-- ==== Sys2Proof/Word.lean ====
section
/-! DEFINITION. The words of radix_codec: bytes of data memory and 32-bit registers (00_scope.md R8: every value is unsigned). -/

namespace Sys2Proof

/-- A byte of data memory or of an input text (R8). -/
abbrev Byte := BitVec 8

/-- A host-visible register is 32 bits wide (10_state.md R37). -/
abbrev Word := BitVec 32

end Sys2Proof
end

