-- ==== Sys2Proof/Config.lean ====
section
/-! DEFINITION. The parameters of one block (00_scope.md R6, 10_state.md R20) and the value the spec leaves free. -/

namespace Sys2Proof

/-- STRATEGY of the decode lookup (R6; V9 of 10_state.md R22 holds by this type). -/
inductive Strategy where
  | lut
  | linear
deriving DecidableEq, Repr

/-- PRESET: the preset names of 10_state.md R23. -/
inductive Preset where
  | base16
  | base32
  | base32Pad
  | base32Hex
  | base32Human
  | base64
  | base64Pad
  | custom
deriving DecidableEq, Repr

/-- The parameters that fix one block: the record CFGP of 10_state.md R20 with AW, W and BASE of 00_scope.md R6.
A record of this type need not be valid; `Config` (WellFormed.lean) pairs it with its validity. -/
structure Params where
  /-- RADIX -/
  radix : Nat
  /-- K, the bits of one symbol -/
  chunkBits : Nat
  /-- ALPHA, index 0 first -/
  alpha : List Byte
  /-- PAD_EN -/
  padEn : Bool
  /-- CASE_SENS -/
  caseSens : Bool
  /-- ALIAS, pairs (canonical byte, alias byte) (R21; 90_conflicts.md C1, C2) -/
  aliases : List (Byte × Byte)
  /-- STRATEGY -/
  strategy : Strategy
  /-- PRESET -/
  preset : Preset
  /-- AW, the data-memory address width -/
  aw : Nat
  /-- W, the width of ACC.BUF -/
  accWidth : Nat
  /-- BASE, the bus address of the register window -/
  base : Nat
deriving DecidableEq, Repr

/-- What a read of RESULT_LO, RESULT_HI or ERR_INFO returns while STATUS.BUSY = 1: any value, a free draw for each read
(70_reset_and_hazards.md R228, 93_implementation_defined.md part 1; log 7). It has no body: no proof can see its values. -/
opaque Config.freeRead : Nat → Word

end Sys2Proof
end

