-- ==== Sys2Proof/Machine/Lookup.lean ====
section
/-! DEFINITION. alphabet_rom, decode_lookup_rom and the lookup function decodeByte in both strategies (40_lookup.md). -/

namespace Sys2Proof.Machine

/-- PAD_CHAR, the byte '=' (00_scope.md R6; its value is the spec's general knowledge, log 21). -/
def padChar : Byte := 0x3D

/-- `lower(b)` of 00_scope.md R11: ASCII lower-casing. -/
def lower (b : Byte) : Byte := if 0x41 ≤ b.toNat ∧ b.toNat ≤ 0x5A then b + 0x20 else b

/-- `upper(b)` of 00_scope.md R11. -/
def upper (b : Byte) : Byte := if 0x61 ≤ b.toNat ∧ b.toNat ≤ 0x7A then b - 0x20 else b

/-- alphabet_rom entry i, the canonical byte ALPHA[i] (10_state.md R24). It is read only at i < RADIX (R25); the ROM has no
other entry. -/
def symbolAt (p : Params) (i : Nat) : Byte := p.alpha.getD i 0

/-- `aliases(c)`: the alias bytes of a canonical byte (10_state.md R21). -/
def aliasesOf (p : Params) (c : Byte) : List Byte := (p.aliases.filter fun q => q.1 == c).map (·.2)

/-- The accepted set acc(i) of 40_lookup.md R103. When CASE_SENS = 0 it also holds the lower-case form of the canonical byte
and of each alias (92_eei_decisions.md D8). -/
def accepted (p : Params) (i : Nat) : List Byte :=
  let direct := symbolAt p i :: aliasesOf p (symbolAt p i)
  if p.caseSens then direct else direct ++ direct.map lower

/-- `decodeByte(b)` of 40_lookup.md R104: the symbol value whose accepted set holds b. -/
def decodeByte (p : Params) (b : Byte) : Option Nat := (List.range p.radix).find? fun i => (accepted p i).contains b

/-- A valid entry of decode_lookup_rom: VALID in bit 6, VALUE in bits [5:0] (10_state.md R27). -/
def lutValid (i : Nat) : BitVec 7 := BitVec.ofNat 7 (64 + i)

/-- Entry b of decode_lookup_rom (40_lookup.md R105). -/
def lutEntry (p : Params) (b : Byte) : BitVec 7 :=
  match decodeByte p b with
  | some i => lutValid i
  | none => 0

/-- The 256 entries of decode_lookup_rom, indexed by byte value (10_state.md R27, 40_lookup.md R105). -/
def lutContents (p : Params) : List (BitVec 7) := (List.range 256).map fun b => lutEntry p (BitVec.ofNat 8 b)

/-- decode_lookup_rom: it exists only when STRATEGY = LUT (10_state.md R27, R29). -/
def decodeLookupRom (p : Params) : Option (List (BitVec 7)) :=
  match p.strategy with
  | .lut => some (lutContents p)
  | .linear => none

/-- Sets the entries of the bytes `bs` to symbol value i: one round of the construction order of 40_lookup.md R105. -/
def lutFill (rom : List (BitVec 7)) (i : Nat) : List Byte → List (BitVec 7)
  | [] => rom
  | b :: bs => lutFill (rom.set b.toNat (lutValid i)) i bs

/-- The table built as 40_lookup.md R105 says it can be: all entries invalid, then for i = 0 to RADIX-1 the entries of every
byte in acc(i) set to i. The claim that it is the ROM's contents is a statement of the model, not part of a meaning. -/
def lutBuilt (p : Params) : List (BitVec 7) :=
  (List.range p.radix).foldl (fun rom i => lutFill rom i (accepted p i)) (List.replicate 256 0)

/-- A lookup in decode_lookup_rom: SOME(VALUE) when VALID = 1, else NONE (40_lookup.md R105). -/
def romLookup (rom : List (BitVec 7)) (b : Byte) : Option Nat :=
  let entry := rom.getD b.toNat 0
  if entry.getLsbD 6 then some (entry.toNat % 64) else none

/-- The test of the linear scan at symbol value i (40_lookup.md R106). -/
def linearMatch (p : Params) (b : Byte) (i : Nat) : Bool :=
  let c := symbolAt p i
  b == c || (aliasesOf p c).contains b ||
    (!p.caseSens && (b == lower c || ((aliasesOf p c).map lower).contains b))

/-- The linear scan over the symbol values i, i+1, ... of which `left` remain, in ascending order (40_lookup.md R106). -/
def linearScan (p : Params) (b : Byte) : Nat → Nat → Option Nat
  | _, 0 => none
  | i, left + 1 => if linearMatch p b i then some i else linearScan p b (i + 1) left

/-- The linear lookup: it scans 0..RADIX and reads no decode_lookup_rom (40_lookup.md R106, 10_state.md R29). -/
def linearLookup (p : Params) (b : Byte) : Option Nat := linearScan p b 0 p.radix

/-- The lookup the engine performs, by STRATEGY (40_lookup.md R105, R106). -/
def lookupByte (p : Params) (b : Byte) : Option Nat :=
  match decodeLookupRom p with
  | some rom => romLookup rom b
  | none => linearLookup p b

end Sys2Proof.Machine
end

