-- ==== Sys2Proof/Syntax.lean ====
section
/-! DEFINITION. The commands of RADIX-CMD version 1 (30_encoding.md R82), the registers (10_state.md R38) and the events at
the block's boundary (30_encoding.md R88, 70_reset_and_hazards.md R220). -/

namespace Sys2Proof

/-- The eight commands: one per row of spec/opcode_table.json. A command word holds no operand; every operand comes from an
operand register (30_encoding.md R81, R85). -/
inductive Instr where
  /-- ENCODE, 41_encode.md R130 -/
  | encode
  /-- DECODE, 42_decode.md R150 -/
  | decode
  /-- ENC_LEN, 43_length.md R174 -/
  | encLen
  /-- ENC_LEN_PAD, 43_length.md R175 -/
  | encLenPad
  /-- DEC_LEN, 43_length.md R176 -/
  | decLen
  /-- DEC_LEN_STRIP, 43_length.md R177 -/
  | decLenStrip
  /-- DECODE_BYTE, 40_lookup.md R112 -/
  | decodeByte
  /-- SYMBOL_AT, 40_lookup.md R111 -/
  | symbolAt
deriving DecidableEq, Repr

/-- The host-visible registers, 10_state.md R38. -/
inductive Reg where
  | cfg
  | cmd
  | status
  | srcAddr
  | srcLen
  | dstAddr
  | dstCap
  | resultLo
  | resultHi
  | errInfo
deriving DecidableEq, Repr

/-- What happens at the block's boundary, one event at a time: an action of the host (30_encoding.md R88), the reset input
(70_reset_and_hazards.md R220), or the engine's turn. The list of pending events in State says which agent moves next (log 5). -/
inductive Event where
  /-- A host read of `size` bytes at a bus address: `rd REG -> name` when it is an aligned 32-bit access of the window. -/
  | regRead (size addr : Nat)
  /-- A host write of `size` bytes at a bus address: `wr REG, v` when it is an aligned 32-bit access of the window. -/
  | regWrite (size addr : Nat) (v : Word)
  /-- A host read of one byte of data memory. -/
  | memRead (addr : Nat)
  /-- A host write of one byte of data memory. -/
  | memWrite (addr : Nat) (v : Byte)
  /-- Reset is asserted (R220). -/
  | reset
  /-- The engine's turn: one engine step, if a command runs. -/
  | engine
  /-- `wait`: read STATUS repeatedly until STATUS.BUSY = 0 (R88). -/
  | wait
  /-- `wr CMD, w; wait` as one atomic transformation: a command line of R89 as the host sees it (20_memory.md R70; log 5). -/
  | run (w : Word)
deriving DecidableEq, Repr

end Sys2Proof
end

