-- ==== Sys2Proof/WellFormed.lean ====
section
/-! DEFINITION. What is well formed: a configuration (V1 to V9 of 10_state.md R22, with W of 00_scope.md R6) and a command
word (30_encoding.md R82). -/

namespace Sys2Proof

/-- V1: RADIX is 16, 32 or 64, and RADIX = 2^K. -/
def Params.radixOk (p : Params) : Bool :=
  (p.radix == 16 && p.chunkBits == 4) || (p.radix == 32 && p.chunkBits == 5) || (p.radix == 64 && p.chunkBits == 6)

/-- V2: len(ALPHA) = RADIX. -/
def Params.alphaLengthOk (p : Params) : Bool := p.alpha.length == p.radix

/-- V3: the entries of ALPHA are pairwise distinct. -/
def Params.alphaDistinct (p : Params) : Bool := decide p.alpha.Nodup

/-- Every ALPHA entry and every alias byte. -/
def Params.symbolBytes (p : Params) : List Byte := p.alpha ++ p.aliases.map (·.2)

/-- V4: every ALPHA entry and every alias byte lies in 0x21..=0x7E. -/
def Params.printableOk (p : Params) : Bool := p.symbolBytes.all fun b => 0x21 ≤ b.toNat && b.toNat ≤ 0x7E

/-- V5: no ALPHA entry and no alias byte is PAD_CHAR, whatever PAD_EN is. -/
def Params.noPadByte (p : Params) : Bool := p.symbolBytes.all fun b => b != Machine.padChar

/-- V6: the canonical byte of every alias pair is an entry of ALPHA. -/
def Params.aliasesCanonical (p : Params) : Bool := p.aliases.all fun q => p.alpha.contains q.1

/-- V7: if CASE_SENS = 0, no ALPHA entry and no alias byte lies in 0x61..=0x7A. -/
def Params.noLowerCase (p : Params) : Bool :=
  p.caseSens || p.symbolBytes.all fun b => !(0x61 ≤ b.toNat && b.toNat ≤ 0x7A)

/-- No byte lies in two of the lists. -/
def disjointLists : List (List Byte) → Bool
  | [] => true
  | s :: rest => (s.all fun b => rest.all fun t => !t.contains b) && disjointLists rest

/-- V8: the accepted sets acc(0), ..., acc(RADIX-1) are pairwise disjoint. -/
def Params.acceptedDisjoint (p : Params) : Bool := disjointLists ((List.range p.radix).map (Machine.accepted p))

/-- W >= 13 (00_scope.md R6, 10_state.md R34). -/
def Params.accWidthOk (p : Params) : Bool := 13 ≤ p.accWidth

/-- A valid configuration: V1 to V8 of 10_state.md R22 (V9 holds by the type of STRATEGY) and W >= 13. -/
def Params.valid (p : Params) : Bool :=
  p.radixOk && p.alphaLengthOk && p.alphaDistinct && p.printableOk && p.noPadByte && p.aliasesCanonical &&
    p.noLowerCase && p.acceptedDisjoint && p.accWidthOk

/-- A configuration in effect: parameters that are valid. An invalid configuration builds no block, so no state holds one
(10_state.md R22, 60_exceptions.md R201). -/
structure Config extends Params where
  ok : toParams.valid = true
deriving DecidableEq, Repr

/-- RSV, bits [31:4] of a command word, is 0 (30_encoding.md R81). -/
def rsvZero (w : Word) : Bool := w.extractLsb' 4 28 == 0

/-- OPCODE, bits [3:0] of a command word, is one of the rows 0x1 to 0x8 of 30_encoding.md R82. -/
def opcodeDefined (w : Word) : Bool := 1 ≤ (w.extractLsb' 0 4).toNat && (w.extractLsb' 0 4).toNat ≤ 8

/-- A legal command word (30_encoding.md R82). -/
def legalWord (w : Word) : Bool := rsvZero w && opcodeDefined w

/-- Every command is well formed: it has no operand field (30_encoding.md R81, R85). -/
def Instr.wf (_ : Instr) : Bool := true

end Sys2Proof
end

