-- ==== Sys2Proof/Decode.lean ====
section
/-! DEFINITION. The decoder of command words, total on all 2^32 words and rejecting by name, and the encoder
(30_encoding.md R81 to R84). -/

namespace Sys2Proof

/-- Why a word is no command. Both end in ILLEGAL_CMD (60_exceptions.md R193). -/
inductive DecodeReject where
  /-- OPCODE is 0x0 or 0x9 to 0xF (30_encoding.md R83). -/
  | reservedOpcode (op : BitVec 4)
  /-- RSV is not 0, whatever OPCODE is (30_encoding.md R84). -/
  | reservedBits (rsv : BitVec 28)
deriving DecidableEq, Repr

/-- OPCODE, bits [3:0] (30_encoding.md R81). -/
def opcodeField (w : Word) : BitVec 4 := w.extractLsb' 0 4

/-- RSV, bits [31:4] (30_encoding.md R81). -/
def rsvField (w : Word) : BitVec 28 := w.extractLsb' 4 28

/-- The opcode map of 30_encoding.md R82. -/
def ofOpcode (op : BitVec 4) : Option Instr :=
  match op.toNat with
  | 1 => some .encode
  | 2 => some .decode
  | 3 => some .encLen
  | 4 => some .encLenPad
  | 5 => some .decLen
  | 6 => some .decLenStrip
  | 7 => some .decodeByte
  | 8 => some .symbolAt
  | _ => none

/-- The command that the fields RSV and OPCODE name (30_encoding.md R82 to R84). -/
def decodeFields (rsv : BitVec 28) (op : BitVec 4) : Except DecodeReject Instr :=
  if rsv = 0 then
    match ofOpcode op with
    | some i => .ok i
    | none => .error (.reservedOpcode op)
  else .error (.reservedBits rsv)

/-- The decoder: total on every command word (30_encoding.md R84). -/
def decodeWord (w : Word) : Except DecodeReject Instr := decodeFields (rsvField w) (opcodeField w)

/-- The OPCODE of a command (30_encoding.md R82). -/
def Instr.opcode : Instr → BitVec 4
  | .encode => 0x1
  | .decode => 0x2
  | .encLen => 0x3
  | .encLenPad => 0x4
  | .decLen => 0x5
  | .decLenStrip => 0x6
  | .decodeByte => 0x7
  | .symbolAt => 0x8

/-- The encoder: the command word with the command's OPCODE and RSV = 0 (30_encoding.md R81, R82). -/
def encode (i : Instr) : Word := (0 : BitVec 28) ++ i.opcode

/-- The command the decoder reads from a word of the opcode table: `nbits` bits of it are given and the bits above are 0. A
command word is 32 bits and moves as one word (20_memory.md R63), so no byte order enters. -/
def decodeTableWord (nbits w : Nat) : Option Instr :=
  if nbits ≤ 32 ∧ w < 2 ^ nbits then
    match decodeWord (BitVec.ofNat 32 w) with
    | .ok i => some i
    | .error _ => none
  else none

end Sys2Proof
end

