-- ==== Sys2Proof/Machine/Presets.lean ====
section
/-! DEFINITION. The presets of 10_state.md R23, their alphabets (40_lookup.md R100) and the CFG word (10_state.md R39). -/

namespace Sys2Proof.Machine

/-- The n bytes from `first` upwards: a run of consecutive ASCII codes. -/
def byteRun (first n : Nat) : List Byte := (List.range n).map fun j => BitVec.ofNat 8 (first + j)

/-- `0123456789ABCDEF` (R23, R100). -/
def alphabetBase16 : List Byte := byteRun 0x30 10 ++ byteRun 0x41 6

/-- `ABCDEFGHIJKLMNOPQRSTUVWXYZ234567` (R23, R100). -/
def alphabetBase32 : List Byte := byteRun 0x41 26 ++ byteRun 0x32 6

/-- `0123456789ABCDEFGHIJKLMNOPQRSTUV` (R23, R100). -/
def alphabetBase32Hex : List Byte := byteRun 0x30 10 ++ byteRun 0x41 22

/-- The default HF_ALPHABET `0123456789ABCDEFGHJKMNPQRSTVWXYZ` (00_scope.md R6, 92_eei_decisions.md D5; log 21). -/
def alphabetHumanDefault : List Byte :=
  byteRun 0x30 10 ++ byteRun 0x41 8 ++ [0x4A, 0x4B, 0x4D, 0x4E] ++ byteRun 0x50 5 ++ byteRun 0x56 5

/-- `A` to `Z`, `a` to `z`, `0` to `9`, `+`, `/` (R23, R100). -/
def alphabetBase64 : List Byte := byteRun 0x41 26 ++ byteRun 0x61 26 ++ byteRun 0x30 10 ++ [0x2B, 0x2F]

/-- The alias pairs of the human-friendly preset: ('0','O'), ('1','I'), ('1','L') (R23). -/
def aliasesHuman : List (Byte × Byte) := [(0x30, 0x4F), (0x31, 0x49), (0x31, 0x4C)]

/-- The rows of 10_state.md R23. STRATEGY is chosen separately for any preset; `hf` is HF_ALPHABET. CUSTOM has no row. -/
def presetParams (id : Preset) (strategy : Strategy) (hf : List Byte) (aw accWidth base : Nat) : Option Params :=
  let row (radix chunkBits : Nat) (alpha : List Byte) (padEn caseSens : Bool) (aliases : List (Byte × Byte)) : Params :=
    ⟨radix, chunkBits, alpha, padEn, caseSens, aliases, strategy, id, aw, accWidth, base⟩
  match id with
  | .base16 => some (row 16 4 alphabetBase16 false false [])
  | .base32 => some (row 32 5 alphabetBase32 false true [])
  | .base32Pad => some (row 32 5 alphabetBase32 true true [])
  | .base32Hex => some (row 32 5 alphabetBase32Hex false true [])
  | .base32Human => some (row 32 5 hf false false aliasesHuman)
  | .base64 => some (row 64 6 alphabetBase64 false true [])
  | .base64Pad => some (row 64 6 alphabetBase64 true true [])
  | .custom => none

/-- The preset's number in CFG.PRESET (R23, 92_eei_decisions.md D4). -/
def presetId : Preset → Nat
  | .base16 => 0
  | .base32 => 1
  | .base32Pad => 2
  | .base32Hex => 3
  | .base32Human => 4
  | .base64 => 5
  | .base64Pad => 6
  | .custom => 15

/-- The value of register CFG (10_state.md R39): K [2:0], PAD_EN [3], CASE_SENS [4], STRATEGY [5], ALIAS_EN [6],
PRESET [11:8]; every other bit reads 0. -/
def cfgWord (p : Params) : Word :=
  BitVec.ofNat 32 (p.chunkBits % 8 + p.padEn.toNat * 2 ^ 3 + p.caseSens.toNat * 2 ^ 4 +
    (p.strategy == .linear).toNat * 2 ^ 5 + (!p.aliases.isEmpty).toNat * 2 ^ 6 + presetId p.preset * 2 ^ 8)

/-- The configuration of `State.reset`: BASE32_PAD with the defaults of 00_scope.md R6 (LUT, AW = 32, W = 16) and BASE = 0
(log 2). -/
def defaultConfig : Config where
  radix := 32
  chunkBits := 5
  alpha := alphabetBase32
  padEn := true
  caseSens := true
  aliases := []
  strategy := .lut
  preset := .base32Pad
  aw := 32
  accWidth := 16
  base := 0
  ok := by decide

end Sys2Proof.Machine
end

