-- ==== Sys2Proof/Machine/State.lean ====
section
/-! DEFINITION. The state of one block (10_state.md, 70_reset_and_hazards.md R221), the reasons a step can stop, and the state
after reset. -/

namespace Sys2Proof.Machine

/-- PHASE of the sequencer (10_state.md R36). -/
inductive Phase where
  | idle
  | run
deriving DecidableEq, Repr

/-- The engine's control point within the running command: where it stands in the pseudocode of 41_encode.md R130,
42_decode.md R150 and 43_length.md R177 between two data-memory accesses (log 6). -/
inductive ControlPoint where
  /-- The command has been accepted; its checks come next. -/
  | start
  /-- In trailingPads (43_length.md R173), with t pad bytes counted so far. -/
  | prescan (t : Nat)
  /-- trailingPads has returned t. -/
  | sized (t : Nat)
  /-- In the main pass (41_encode.md R132 to R134, 42_decode.md R152). -/
  | main
  /-- DECODE has read the pad byte that stops its scan (42_decode.md R153). -/
  | stopped
  /-- DECODE has read the byte ch at IN_POS and it is no symbol (42_decode.md R154). -/
  | invalid (ch : Byte)
deriving DecidableEq, Repr

/-- The fields of STATUS (10_state.md R41). Bit 3 and bits [31:8] read 0, see `Status.word`. -/
structure Status where
  /-- BUSY, bit 0 -/
  busy : Bool
  /-- DONE, bit 1 -/
  done : Bool
  /-- ERR, bit 2 -/
  err : Bool
  /-- ERR_CODE, bits [7:4] -/
  errCode : BitVec 4
deriving DecidableEq, Repr

/-- bit_accumulator (10_state.md R30). Both fields are exact naturals: the push keeps BUF below 2^W, and R34 bounds HELD, so no
other write needs a truncation (00_scope.md R9; log 13). -/
structure Acc where
  /-- ACC.BUF -/
  buf : Nat
  /-- ACC.HELD -/
  held : Nat
deriving DecidableEq, Repr

/-- The error kinds of 60_exceptions.md R190, with what each records. -/
inductive ErrorKind where
  /-- INVALID_SYMBOL: the offset and the offending byte (R191). -/
  | invalidSymbol (offset : Nat) (ch : Byte)
  /-- NOT_ENOUGH_SPACE: the required size (R192). -/
  | notEnoughSpace (required : Nat)
  /-- ILLEGAL_CMD (R193). -/
  | illegalCmd
  /-- OPERAND_RANGE (R194). -/
  | operandRange
  /-- ADDRESS_RANGE: which regions are out of range (R195). -/
  | addressRange (badSrc badDst : Bool)
deriving DecidableEq, Repr

/-- What the host's last read gave it (30_encoding.md R88, `rd REG -> name`). A field of the model, not of the block (log 15). -/
inductive Reply where
  | none
  | word (w : Word)
  | byte (b : Byte)
deriving DecidableEq, Repr

/-- Data memory (20_memory.md R60): addresses strictly rising, and no cell equal to what an unlisted address reads as. -/
abbrev Memory := List Host.Cell

/-- The state of one block, its data memory, and the pending events at its boundary.
The register CFG and the two ROMs are constants of `config` (`cfgWord`, `symbolAt`, `decodeLookupRom`). -/
structure State where
  /-- The configuration: a parameter that no step changes (10_state.md R20; log 1). -/
  config : Config
  /-- CMD (10_state.md R40). -/
  cmd : Word
  /-- STATUS (10_state.md R41). -/
  status : Status
  /-- SRC_ADDR (10_state.md R42). -/
  srcAddr : Word
  /-- SRC_LEN (10_state.md R42). -/
  srcLen : Word
  /-- DST_ADDR (10_state.md R42). -/
  dstAddr : Word
  /-- DST_CAP (10_state.md R42). -/
  dstCap : Word
  /-- RESULT_LO (10_state.md R43). -/
  resultLo : Word
  /-- RESULT_HI (10_state.md R43). -/
  resultHi : Word
  /-- ERR_INFO (10_state.md R44). -/
  errInfo : Word
  /-- bit_accumulator (10_state.md R30). -/
  acc : Acc
  /-- PHASE (10_state.md R36). -/
  phase : Phase
  /-- OP (10_state.md R36). -/
  op : BitVec 4
  /-- IN_POS (10_state.md R36; log 13). -/
  inPos : Nat
  /-- OUT_POS (10_state.md R36; log 13). -/
  outPos : Nat
  /-- The engine's control point (log 6). -/
  ctl : ControlPoint
  /-- Data memory (20_memory.md R60). -/
  mem : Memory
  /-- The pending events, oldest first (the model's own; log 5). -/
  events : List Event
  /-- What the host's last read gave it (the model's own; log 15). -/
  reply : Reply
  /-- How many free values have been drawn (the model's own; log 7). -/
  draws : Nat
deriving DecidableEq, Repr

/-- Why the machine stops. -/
inductive Fault where
  /-- REGION_HAZARD: raised by a host access to data memory (`hostMemRead`, `hostMemWrite`) that touches the running command's
  input or destination region (70_reset_and_hazards.md R229). Safe. -/
  | regionHazard (addr : Nat)
  /-- Raised by a host access to data memory (`hostMemRead`, `hostMemWrite`) at an address of 2^AW or more: the memory has the
  addresses 0 to 2^AW - 1 and no others (20_memory.md R60; log 10). No command raises it. Safe. -/
  | noSuchAddress (addr : Nat)
  /-- Raised by `runEngine` when a command has not completed within the accesses 60_exceptions.md R200 allows it; R200 says that
  this never happens (log 20). Safe. -/
  | engineHang
deriving DecidableEq, Repr

/-- Why the model gives no next state. -/
inductive Refusal where
  /-- Raised by an arm of `exec` for an instruction that has no meaning yet: no arm is one. Safe. -/
  | notModelled (mnemonic : String)
  /-- Raised by a host access to the register window that is not an aligned 32-bit access (20_memory.md R64,
  93_implementation_defined.md part 1: refuse). Safe. -/
  | registerAccessForm (size addr : Nat)
  /-- Raised by a host access at a bus address outside the register window (30_encoding.md R80): it is no access to this block,
  and the spec says nothing of what answers it (log 11). Safe. -/
  | outsideWindow (addr : Nat)
  /-- Raised by `construct` for parameters that are no valid configuration (10_state.md R22, 60_exceptions.md R201). Safe. -/
  | invalidConfig
deriving DecidableEq, Repr

/-- Every field at its reset value (70_reset_and_hazards.md R221), for a block of configuration c whose memory lists nothing and
at whose boundary nothing is pending. -/
def State.resetWith (c : Config) : State where
  config := c
  cmd := 0
  status := ⟨false, false, false, 0⟩
  srcAddr := 0
  srcLen := 0
  dstAddr := 0
  dstCap := 0
  resultLo := 0
  resultHi := 0
  errInfo := 0
  acc := ⟨0, 0⟩
  phase := .idle
  op := 0
  inPos := 0
  outPos := 0
  ctl := .start
  mem := []
  events := []
  reply := .none
  draws := 0

/-- The machine right after reset, in the model's default configuration (log 2). -/
def State.reset : State := State.resetWith defaultConfig

end Sys2Proof.Machine
end

