-- ==== Sys2Proof/Machine/Flags.lean ====
section
/-! DEFINITION. STATUS, the block's only flags (10_state.md R41): its word and the values that acceptance and completion give
it; the codes and records of the error kinds (60_exceptions.md R190). -/

namespace Sys2Proof.Machine

/-- STATUS as a read returns it: BUSY [0], DONE [1], ERR [2], ERR_CODE [7:4], every other bit 0 (10_state.md R41). -/
def Status.word (st : Status) : Word :=
  BitVec.ofNat 32 (st.busy.toNat + st.done.toNat * 2 ^ 1 + st.err.toNat * 2 ^ 2 + st.errCode.toNat * 2 ^ 4)

/-- Acceptance sets BUSY and clears DONE, ERR and ERR_CODE (30_encoding.md R86). -/
def statusAccepted : Status := ⟨true, false, false, 0⟩

/-- Success sets DONE; BUSY = ERR = 0 (60_exceptions.md R197). -/
def statusDone : Status := ⟨false, true, false, 0⟩

/-- An error sets ERR and ERR_CODE; BUSY = DONE = 0 (60_exceptions.md R196). -/
def statusError (code : BitVec 4) : Status := ⟨false, false, true, code⟩

/-- ERR_CODE of an error kind (60_exceptions.md R190). -/
def ErrorKind.code : ErrorKind → BitVec 4
  | .invalidSymbol _ _ => 1
  | .notEnoughSpace _ => 2
  | .illegalCmd => 3
  | .operandRange => 4
  | .addressRange _ _ => 5

/-- The RESULT an error kind records (60_exceptions.md R190). -/
def ErrorKind.result : ErrorKind → Nat
  | .invalidSymbol offset _ => offset
  | .notEnoughSpace required => required
  | .illegalCmd => 0
  | .operandRange => 0
  | .addressRange _ _ => 0

/-- The ERR_INFO an error kind records (10_state.md R44, 60_exceptions.md R190). -/
def ErrorKind.info : ErrorKind → Word
  | .invalidSymbol _ ch => ch.setWidth 32
  | .notEnoughSpace _ => 0
  | .illegalCmd => 0
  | .operandRange => 0
  | .addressRange badSrc badDst => BitVec.ofNat 32 (badDst.toNat * 2 + badSrc.toNat)

end Sys2Proof.Machine
end

