-- ==== Sys2Proof/Machine/Length.lean ====
section
/-! DEFINITION. LengthCalculator: the length functions of 43_length.md R170 to R172, on exact naturals (00_scope.md R9). -/

namespace Sys2Proof.Machine

/-- `ceil_div(a, b)` (00_scope.md R9). -/
def ceilDiv (a b : Nat) : Nat := (a + b - 1) / b

/-- `round_up(a, m)` (00_scope.md R9). -/
def roundUp (a m : Nat) : Nat := ceilDiv a m * m

/-- PAD_ALIGN, 8 for every radix (00_scope.md R7). -/
def padAlign : Nat := 8

/-- `encodedLen(n)` (R170). -/
def encodedLen (p : Params) (n : Nat) : Nat := ceilDiv (8 * n) p.chunkBits

/-- `encodedLenPadded(n)` (R171). -/
def encodedLenPadded (p : Params) (n : Nat) : Nat :=
  if p.padEn then roundUp (encodedLen p n) padAlign else encodedLen p n

/-- `decodedLen(n)` (R172). -/
def decodedLen (p : Params) (n : Nat) : Nat := n * p.chunkBits / 8

end Sys2Proof.Machine
end

