-- ==== Sys2Proof/Machine/Operands.lean ====
section
/-! DEFINITION. Operand assembly (30_encoding.md R85): each operand is an operand register read as an unsigned number; regions
and their range (20_memory.md R67). -/

namespace Sys2Proof.Machine

/-- src = SRC_ADDR, the start of the input region. -/
def State.src (s : State) : Nat := s.srcAddr.toNat

/-- n = SRC_LEN, a length (10_state.md R42). -/
def State.len (s : State) : Nat := s.srcLen.toNat

/-- dst = DST_ADDR, the start of the destination region. -/
def State.dst (s : State) : Nat := s.dstAddr.toNat

/-- cap = DST_CAP, the destination capacity in bytes. -/
def State.cap (s : State) : Nat := s.dstCap.toNat

/-- The byte operand of DECODE_BYTE: SRC_LEN[7:0]; bits [31:8] are ignored (40_lookup.md R112). -/
def State.byteOperand (s : State) : Byte := s.srcLen.extractLsb' 0 8

/-- The index operand of SYMBOL_AT: all 32 bits of SRC_LEN (40_lookup.md R111). -/
def State.indexOperand (s : State) : Nat := s.srcLen.toNat

/-- A region with start a and length m is in range when a + m <= 2^AW, computed exactly (20_memory.md R67). -/
def regionInRange (p : Params) (a m : Nat) : Bool := a + m ≤ 2 ^ p.aw

/-- The input region is out of range (20_memory.md R67). -/
def State.badSrc (s : State) : Bool := !regionInRange s.config.toParams s.src s.len

/-- The destination region, the whole capacity, is out of range (20_memory.md R67). -/
def State.badDst (s : State) : Bool := !regionInRange s.config.toParams s.dst s.cap

/-- Address a lies in the region with start `start` and length m; a region of length 0 holds no byte (00_scope.md R14). -/
def inRegion (a start m : Nat) : Bool := start ≤ a && a < start + m

end Sys2Proof.Machine
end

