-- ==== Sys2Proof/Machine/Ops.lean ====
section
/-! DEFINITION. The shared operations: data memory, the bit accumulator, acceptance, and the two completions. -/

namespace Sys2Proof.Machine

/-- What one engine step answers. -/
abbrev Outcome := Host.Outcome State Fault Refusal

/-- What an unlisted byte of data memory reads as. The spec gives no power-on contents (log 3). -/
def unlistedByte : Byte := 0

/-- The canonical form of a memory: addresses strictly rising, no cell equal to what an unlisted address reads as. -/
abbrev Memory.wf (m : Memory) : Prop :=
  List.Pairwise (fun x y : Host.Cell => x.1 < y.1) m ∧ ∀ c ∈ m, c.2 ≠ unlistedByte

/-- The byte at an address (20_memory.md R61). -/
def Memory.read : Memory → Nat → Byte
  | [], _ => unlistedByte
  | (b, v) :: rest, a => if a = b then v else Memory.read rest a

/-- The memory after the byte v is written at address a. It keeps the canonical form. -/
def Memory.write : Memory → Nat → Byte → Memory
  | [], a, v => if v = unlistedByte then [] else [(a, v)]
  | (b, x) :: rest, a, v =>
    if a < b then (if v = unlistedByte then (b, x) :: rest else (a, v) :: (b, x) :: rest)
    else if a = b then (if v = unlistedByte then rest else (a, v) :: rest)
    else (b, x) :: Memory.write rest a v

/-- ACC_PUSH(v, k) at width W (10_state.md R32). -/
def Acc.push (accWidth : Nat) (v k : Nat) (acc : Acc) : Acc :=
  ⟨((acc.buf <<< k) ||| v) % 2 ^ accWidth, acc.held + k⟩

/-- The value ACC_TAKE(k) returns (10_state.md R33). -/
def Acc.takeValue (k : Nat) (acc : Acc) : Nat := (acc.buf >>> (acc.held - k)) &&& (2 ^ k - 1)

/-- The accumulator after ACC_TAKE(k): BUF is unchanged (10_state.md R33). -/
def Acc.taken (k : Nat) (acc : Acc) : Acc := ⟨acc.buf, acc.held - k⟩

/-- The value ACC_FLUSH(k) returns: the remaining bits, left-aligned in k bits (10_state.md R35). -/
def Acc.flushValue (k : Nat) (acc : Acc) : Nat := (acc.buf <<< (k - acc.held)) &&& (2 ^ k - 1)

/-- The accumulator after ACC_FLUSH (10_state.md R35). -/
def Acc.flushed (acc : Acc) : Acc := ⟨acc.buf, 0⟩

/-- Acceptance of a command word (30_encoding.md R86): RESULT and ERR_INFO keep their values. It clears the last command's
outcome, which is the only return from an error there is (60_exceptions.md R202). -/
def accept (w : Word) (s : State) : State :=
  { s with
    cmd := w
    status := statusAccepted
    phase := .run
    op := opcodeField w
    inPos := 0
    outPos := 0
    ctl := .start }

/-- The completion step (60_exceptions.md R196, R197): RESULT, ERR_INFO and STATUS change in one step and PHASE becomes IDLE. -/
def complete (st : Status) (result : Nat) (info : Word) (s : State) : State :=
  { s with
    resultLo := BitVec.ofNat 32 result
    resultHi := BitVec.ofNat 32 (result >>> 32)
    errInfo := info
    status := st
    phase := .idle
    ctl := .start }

/-- `raise E(info)`: a command ends with an error (60_exceptions.md R196). The block has no trap: this is the one thing an
exception is (R202). -/
def raise (e : ErrorKind) (s : State) : State := complete (statusError e.code) e.result e.info s

/-- `finish(r)`: a command ends with success (60_exceptions.md R197). -/
def finish (r : Nat) (s : State) : State := complete statusDone r 0 s

/-- MemRead(a, 1) by the engine: it returns the byte at its address, without a bus error (20_memory.md R62). The range checks of a
command keep every address it reads below 2^AW (R67; `State.Inv`). -/
def engineRead (a : Nat) (s : State) : Byte := s.mem.read a

/-- MemWrite(dst + OUT_POS, 1, v) by the engine, which completes (20_memory.md R62); OUT_POS advances by one (10_state.md R36). Every
write falls inside the destination region (20_memory.md R68): at DST_CAP bytes or more there is no destination byte to write, and
memory stays. That case arises in a DECODE over its own input alone (log 9). -/
def emit (v : Byte) (s : State) : State :=
  { s with
    mem := if s.outPos < s.cap then s.mem.write (s.dst + s.outPos) v else s.mem
    outPos := s.outPos + 1 }

/-- The start of the main pass of ENCODE and DECODE: the accumulator and both cursors are cleared (10_state.md R31). -/
def startMain (s : State) : State := { s with acc := ⟨0, 0⟩, inPos := 0, outPos := 0, ctl := .main }

/-- One step of `trailingPads(src, n)` with t pad bytes counted (43_length.md R173): it reads the byte before them. -/
def prescanStep (t : Nat) (s : State) : State :=
  if t < s.len then
    if engineRead (s.src + s.len - 1 - t) s = padChar then { s with ctl := .prescan (t + 1) } else { s with ctl := .sized t }
  else { s with ctl := .sized t }

/-- The engine at the start of a command, PHASE = RUN. On an accepted state this changes nothing. -/
def atStart (s : State) : State := { s with phase := .run, ctl := .start }

/-- Runs engine steps until the command completes, at most `fuel` of them. Every command completes within the fuel its meaning
gives (60_exceptions.md R200). -/
def runEngine (tick : State → Outcome) : Nat → State → Outcome
  | 0, _ => .fault .engineHang
  | fuel + 1, s =>
    match tick s with
    | .next t => if t.phase = .idle then .next t else runEngine tick fuel t
    | .fault r => .fault r
    | .refused r => .refused r

end Sys2Proof.Machine
end

