-- ==== Sys2Proof/Machine/DecodeCmd.lean ====
section
/-! DEFINITION. DECODE, radix_decoder (42_decode.md R150 to R155), one engine step per data-memory access. -/

namespace Sys2Proof.Machine

/-- The check of DECODE's regions (R150). -/
def decodeStart (s : State) : State :=
  if s.badSrc || s.badDst then raise (.addressRange s.badSrc s.badDst) s else { s with ctl := .prescan 0 }

/-- The space check of DECODE after the pre-scan has found t trailing pad bytes (R151). -/
def decodeSized (t : Nat) (s : State) : State :=
  if s.cap < decodedLen s.config.toParams (s.len - t) then
    raise (.notEnoughSpace (decodedLen s.config.toParams (s.len - t))) s
  else startMain s

/-- What DECODE does with the character it has read (R152): the pad byte stops the scan when PAD_EN = 1 (R153), a byte that is
no symbol aborts it (R154), and a symbol's value is pushed. -/
def decodeChar (s : State) (ch : Byte) : State :=
  let p := s.config.toParams
  if p.padEn && ch == padChar then { s with ctl := .stopped }
  else
    match lookupByte p ch with
    | none => { s with ctl := .invalid ch }
    | some v => { s with inPos := s.inPos + 1, acc := s.acc.push p.accWidth v p.chunkBits }

/-- One engine step of the main pass of DECODE: a byte while HELD >= 8 (R152), else the next character, else the completion; the
bits left in ACC are discarded (R155). -/
def decodeMain (s : State) : State :=
  if 8 ≤ s.acc.held then emit (BitVec.ofNat 8 (s.acc.takeValue 8)) { s with acc := s.acc.taken 8 }
  else if s.inPos < s.len then decodeChar s (engineRead (s.src + s.inPos) s)
  else finish s.outPos s

/-- One engine step of DECODE. -/
def decodeTick (s : State) : Outcome :=
  match s.ctl with
  | .start => .next (decodeStart s)
  | .prescan t => .next (prescanStep t s)
  | .sized t => .next (decodeSized t s)
  | .main => .next (decodeMain s)
  | .stopped => .next (finish s.outPos s)
  | .invalid ch => .next (raise (.invalidSymbol s.inPos ch) s)

/-- The engine steps DECODE needs at most: its 2n + decodedLen(n) accesses (60_exceptions.md R200), the checks and the
completion. -/
def decodeFuel (s : State) : Nat := 2 * s.len + decodedLen s.config.toParams s.len + 4

/-- DECODE (R150), from its start to its completion. -/
def execDecode (s : State) : Outcome := runEngine decodeTick (decodeFuel s) (atStart s)

end Sys2Proof.Machine
end

