-- ==== Sys2Proof/Machine/EncodeCmd.lean ====
section
/-! DEFINITION. ENCODE, radix_encoder (41_encode.md R130 to R134), one engine step per data-memory access. -/

namespace Sys2Proof.Machine

/-- The checks of ENCODE, in the order of R130: the regions, then the space (60_exceptions.md R198). -/
def encodeStart (s : State) : State :=
  if s.badSrc || s.badDst then raise (.addressRange s.badSrc s.badDst) s
  else if s.cap < encodedLenPadded s.config.toParams s.len then
    raise (.notEnoughSpace (encodedLenPadded s.config.toParams s.len)) s
  else startMain s

/-- One engine step of the main pass of ENCODE: a symbol while HELD >= K (R132), else the next input byte (R132), else the
final partial symbol (R133), else a pad byte (R134), else the completion. -/
def encodeMain (s : State) : State :=
  let p := s.config.toParams
  if p.chunkBits ≤ s.acc.held then
    emit (symbolAt p (s.acc.takeValue p.chunkBits)) { s with acc := s.acc.taken p.chunkBits }
  else if s.inPos < s.len then
    { s with inPos := s.inPos + 1, acc := s.acc.push p.accWidth (engineRead (s.src + s.inPos) s).toNat 8 }
  else if 0 < s.acc.held then
    emit (symbolAt p (s.acc.flushValue p.chunkBits)) { s with acc := s.acc.flushed }
  else if p.padEn && s.outPos % padAlign != 0 then emit padChar s
  else finish s.outPos s

/-- One engine step of ENCODE. It makes no pre-scan and has no stop, so those control points are never entered; they are taken as
the start. -/
def encodeTick (s : State) : Outcome :=
  match s.ctl with
  | .main => .next (encodeMain s)
  | .start | .prescan _ | .sized _ | .stopped | .invalid _ => .next (encodeStart s)

/-- The engine steps ENCODE needs at most: its n + encodedLenPadded(n) accesses (60_exceptions.md R200), the checks and the
completion. -/
def encodeFuel (s : State) : Nat := s.len + encodedLenPadded s.config.toParams s.len + 2

/-- ENCODE (R130), from its start to its completion. -/
def execEncode (s : State) : Outcome := runEngine encodeTick (encodeFuel s) (atStart s)

end Sys2Proof.Machine
end

