-- ==== Sys2Proof/Machine/LengthCmds.lean ====
section
/-! DEFINITION. ENC_LEN, ENC_LEN_PAD, DEC_LEN and DEC_LEN_STRIP (43_length.md R174 to R177). -/

namespace Sys2Proof.Machine

/-- ENC_LEN (R174): `finish(encodedLen(n))`. -/
def execEncLen (s : State) : Outcome := .next (finish (encodedLen s.config.toParams s.len) s)

/-- ENC_LEN_PAD (R175): `finish(encodedLenPadded(n))`. -/
def execEncLenPad (s : State) : Outcome := .next (finish (encodedLenPadded s.config.toParams s.len) s)

/-- DEC_LEN (R176): `finish(decodedLen(n))`. -/
def execDecLen (s : State) : Outcome := .next (finish (decodedLen s.config.toParams s.len) s)

/-- One engine step of DEC_LEN_STRIP (R177). It has no main pass, so the control points of one are never entered; they are
taken as the start. -/
def decLenStripTick (s : State) : Outcome :=
  match s.ctl with
  | .prescan t => .next (prescanStep t s)
  | .sized t => .next (finish (decodedLen s.config.toParams (s.len - t)) s)
  | .start | .main | .stopped | .invalid _ =>
    .next (if s.badSrc then raise (.addressRange true false) s else { s with ctl := .prescan 0 })

/-- The engine steps DEC_LEN_STRIP needs at most: its n accesses (60_exceptions.md R200) and the steps between them. -/
def decLenStripFuel (s : State) : Nat := s.len + 3

/-- DEC_LEN_STRIP (R177), from its start to its completion. -/
def execDecLenStrip (s : State) : Outcome := runEngine decLenStripTick (decLenStripFuel s) (atStart s)

end Sys2Proof.Machine
end

