-- ==== Sys2Proof/Machine/LookupCmds.lean ====
section
/-! DEFINITION. SYMBOL_AT and DECODE_BYTE (40_lookup.md R111, R112). -/

namespace Sys2Proof.Machine

/-- SYMBOL_AT (R111): one alphabet_rom entry; the index is checked first. -/
def execSymbolAt (s : State) : Outcome :=
  if s.config.radix ≤ s.indexOperand then .next (raise .operandRange s)
  else .next (finish (symbolAt s.config.toParams s.indexOperand).toNat s)

/-- DECODE_BYTE (R112): one decode lookup; RESULT is `(1 << 8) | i`, or 0 for an invalid byte, which is no error. -/
def execDecodeByte (s : State) : Outcome :=
  match lookupByte s.config.toParams s.byteOperand with
  | some i => .next (finish ((1 <<< 8) ||| i) s)
  | none => .next (finish 0 s)

end Sys2Proof.Machine
end

