-- ==== Sys2Proof/Machine/Engine.lean ====
section
/-! DEFINITION. The engine's turn: one step of the running command (00_scope.md R3, 10_state.md R36). -/

namespace Sys2Proof.Machine

/-- One engine step of a command. A command that makes no data-memory access (20_memory.md R61) completes in its first step. -/
def tick : Instr → State → Outcome
  | .encode => encodeTick
  | .decode => decodeTick
  | .encLen => execEncLen
  | .encLenPad => execEncLenPad
  | .decLen => execDecLen
  | .decLenStrip => decLenStripTick
  | .decodeByte => execDecodeByte
  | .symbolAt => execSymbolAt

/-- The command that the block runs: RSV of the accepted word and OP name it (30_encoding.md R84, R86). -/
def State.running (s : State) : Except DecodeReject Instr := decodeFields (rsvField s.cmd) s.op

/-- One engine step: an illegal command completes with ILLEGAL_CMD, reading no operand and no memory (30_encoding.md R83, R84). -/
def engineStep (s : State) : Outcome :=
  match s.running with
  | .ok i => tick i s
  | .error _ => .next (raise .illegalCmd s)

/-- The engine's turn: one step while PHASE = RUN; an idle block loses no state (60_exceptions.md R209). -/
def engineTurn (s : State) : Outcome :=
  match s.phase with
  | .run => engineStep s
  | .idle => .next s

end Sys2Proof.Machine
end

