-- ==== Sys2Proof/Machine/Dispatch.lean ====
section
/-! DEFINITION. exec: the meaning of each command, from its start to its completion. One arm per row of spec/opcode_table.json. -/

namespace Sys2Proof.Machine

def exec (i : Instr) (s : State) : Host.Outcome State Fault Refusal :=
  match i with
  | .encode => Sys2Proof.Machine.execEncode s
  | .decode => Sys2Proof.Machine.execDecode s
  | .encLen => Sys2Proof.Machine.execEncLen s
  | .encLenPad => Sys2Proof.Machine.execEncLenPad s
  | .decLen => Sys2Proof.Machine.execDecLen s
  | .decLenStrip => Sys2Proof.Machine.execDecLenStrip s
  | .decodeByte => Sys2Proof.Machine.execDecodeByte s
  | .symbolAt => Sys2Proof.Machine.execSymbolAt s

end Sys2Proof.Machine
end

