-- ==== Sys2Proof/Machine/HostPort.lean ====
section
/-! DEFINITION. What the host does at the block's boundary: the register window (30_encoding.md R80), the data memory it owns
(20_memory.md R60, R70), the reset input (70_reset_and_hazards.md R220), the host's command lines (30_encoding.md R89, R96), and
the construction of a block (60_exceptions.md R201). -/

namespace Sys2Proof.Machine

/-- The register's offset from BASE (10_state.md R38). -/
def regOffset : Reg → Nat
  | .cfg => 0x00
  | .cmd => 0x04
  | .status => 0x08
  | .srcAddr => 0x0C
  | .srcLen => 0x10
  | .dstAddr => 0x14
  | .dstCap => 0x18
  | .resultLo => 0x1C
  | .resultHi => 0x20
  | .errInfo => 0x24

/-- The register at an offset of the window; 0x28 to 0xFF are unmapped (10_state.md R38). -/
def regAt (offset : Nat) : Option Reg :=
  [Reg.cfg, .cmd, .status, .srcAddr, .srcLen, .dstAddr, .dstCap, .resultLo, .resultHi, .errInfo].find?
    fun r => regOffset r == offset

/-- A read's value w goes to the host. -/
def answer (w : Word) (s : State) : State := { s with reply := .word w }

/-- A read of RESULT_LO, RESULT_HI or ERR_INFO: its value, or a free draw while BUSY = 1 (70_reset_and_hazards.md R228). -/
def readResult (w : Word) (s : State) : State :=
  if s.status.busy then { s with reply := .word (Config.freeRead s.draws), draws := s.draws + 1 } else answer w s

/-- A read of a register; it has no side effect on the block (20_memory.md R65, 70_reset_and_hazards.md R228). -/
def readReg (r : Reg) (s : State) : State :=
  match r with
  | .cfg => answer (cfgWord s.config.toParams) s
  | .cmd => answer s.cmd s
  | .status => answer s.status.word s
  | .srcAddr => answer s.srcAddr s
  | .srcLen => answer s.srcLen s
  | .dstAddr => answer s.dstAddr s
  | .dstCap => answer s.dstCap s
  | .resultLo => readResult s.resultLo s
  | .resultHi => readResult s.resultHi s
  | .errInfo => readResult s.errInfo s

/-- A write of a register. CMD and the operand registers ignore it while BUSY = 1 (70_reset_and_hazards.md R226, R227), the
read-only registers always (30_encoding.md R80). -/
def writeReg (r : Reg) (v : Word) (s : State) : State :=
  match r with
  | .cmd => if s.status.busy then s else accept v s
  | .srcAddr => if s.status.busy then s else { s with srcAddr := v }
  | .srcLen => if s.status.busy then s else { s with srcLen := v }
  | .dstAddr => if s.status.busy then s else { s with dstAddr := v }
  | .dstCap => if s.status.busy then s else { s with dstCap := v }
  | .cfg | .status | .resultLo | .resultHi | .errInfo => s

/-- A host access of `size` bytes at a bus address, decoded as 30_encoding.md R80 says: outside the window it is no access to this
block; inside it only aligned 32-bit accesses are in the contract (20_memory.md R64). -/
def windowAccess (size addr : Nat) (s : State) (k : Nat → State) : Outcome :=
  if s.config.base ≤ addr ∧ addr < s.config.base + 0x100 then
    if size = 4 ∧ (addr - s.config.base) % 4 = 0 then .next (k (addr - s.config.base))
    else .refused (.registerAccessForm size addr)
  else .refused (.outsideWindow addr)

/-- A host read in the register window; an unmapped offset reads 0 (30_encoding.md R80). -/
def hostRegRead (size addr : Nat) (s : State) : Outcome :=
  windowAccess size addr s fun offset =>
    match regAt offset with
    | some r => readReg r s
    | none => answer 0 s

/-- A host write in the register window; a write at an unmapped offset is ignored (30_encoding.md R80). -/
def hostRegWrite (size addr : Nat) (v : Word) (s : State) : Outcome :=
  windowAccess size addr s fun offset =>
    match regAt offset with
    | some r => writeReg r v s
    | none => s

/-- Address a is a byte of the running command's input or destination region (70_reset_and_hazards.md R229; log 8). -/
def regionHazardAt (a : Nat) (s : State) : Bool :=
  s.status.busy && (inRegion a s.src s.len || inRegion a s.dst s.cap)

/-- A host access to one byte of data memory: bytes outside both regions may be accessed freely at any time
(70_reset_and_hazards.md R229). -/
def hostMemAccess (a : Nat) (s : State) (t : State) : Outcome :=
  if 2 ^ s.config.aw ≤ a then .fault (.noSuchAddress a)
  else if regionHazardAt a s then .fault (.regionHazard a)
  else .next t

/-- A host read of one byte of data memory. -/
def hostMemRead (a : Nat) (s : State) : Outcome := hostMemAccess a s { s with reply := .byte (s.mem.read a) }

/-- A host write of one byte of data memory. -/
def hostMemWrite (a : Nat) (v : Byte) (s : State) : Outcome := hostMemAccess a s { s with mem := s.mem.write a v }

/-- Reset (70_reset_and_hazards.md R220 to R222): every piece of the block's state takes its reset value in one step; the
configuration, the ROMs and data memory are unchanged, and a running command is abandoned. The model's own fields are not the
block's and stay (log 22). -/
def doReset (s : State) : State :=
  { State.resetWith s.config with mem := s.mem, events := s.events, reply := s.reply, draws := s.draws }

/-- The construction of a block: parameters that are no valid configuration are refused (60_exceptions.md R201). -/
def construct (p : Params) : Outcome :=
  if h : p.valid = true then .next (State.resetWith ⟨p, h⟩) else .refused .invalidConfig

/-- `wr REG, v` (30_encoding.md R88). -/
def wr (p : Params) (r : Reg) (v : Word) : Event := .regWrite 4 (p.base + regOffset r) v

/-- `rd REG -> name` (30_encoding.md R88). -/
def rd (p : Params) (r : Reg) : Event := .regRead 4 (p.base + regOffset r)

/-- The start and the wait of a command line of 30_encoding.md R89: `wr CMD, w; wait`. -/
def startAndWait (p : Params) (i : Instr) : List Event := [wr p .cmd (Sys2Proof.encode i), .wait]

/-- `ENCODE src, n, dst, cap` (30_encoding.md R89). -/
def lineEncode (p : Params) (src n dst cap : Word) : List Event :=
  [wr p .srcAddr src, wr p .srcLen n, wr p .dstAddr dst, wr p .dstCap cap] ++ startAndWait p .encode

/-- `DECODE src, n, dst, cap` (30_encoding.md R89). -/
def lineDecode (p : Params) (src n dst cap : Word) : List Event :=
  [wr p .srcAddr src, wr p .srcLen n, wr p .dstAddr dst, wr p .dstCap cap] ++ startAndWait p .decode

/-- `ENC_LEN n` (30_encoding.md R89). -/
def lineEncLen (p : Params) (n : Word) : List Event := wr p .srcLen n :: startAndWait p .encLen

/-- `ENC_LEN_PAD n` (30_encoding.md R89). -/
def lineEncLenPad (p : Params) (n : Word) : List Event := wr p .srcLen n :: startAndWait p .encLenPad

/-- `DEC_LEN n` (30_encoding.md R89). -/
def lineDecLen (p : Params) (n : Word) : List Event := wr p .srcLen n :: startAndWait p .decLen

/-- `DEC_LEN_STRIP src, n` (30_encoding.md R89). -/
def lineDecLenStrip (p : Params) (src n : Word) : List Event :=
  [wr p .srcAddr src, wr p .srcLen n] ++ startAndWait p .decLenStrip

/-- `DECODE_BYTE b` (30_encoding.md R89). -/
def lineDecodeByte (p : Params) (b : Word) : List Event := wr p .srcLen b :: startAndWait p .decodeByte

/-- `SYMBOL_AT i` (30_encoding.md R89). -/
def lineSymbolAt (p : Params) (i : Word) : List Event := wr p .srcLen i :: startAndWait p .symbolAt

/-- The first half of ENCODE_ALLOC (30_encoding.md R96): it asks for the size m. The allocation is the host's. -/
def encodeAllocSize (p : Params) (n : Word) : List Event := lineEncLenPad p n ++ [rd p .resultLo]

/-- The second half of ENCODE_ALLOC (30_encoding.md R96), with the m bytes allocated at dst. -/
def encodeAllocRun (p : Params) (src n dst m : Word) : List Event := lineEncode p src n dst m ++ [rd p .resultLo]

/-- The first half of DECODE_ALLOC (30_encoding.md R96): it asks for the size m. -/
def decodeAllocSize (p : Params) (src n : Word) : List Event := lineDecLenStrip p src n ++ [rd p .resultLo]

/-- The second half of DECODE_ALLOC (30_encoding.md R96), with the m bytes allocated at dst: it reads STATUS, then the length. -/
def decodeAllocRun (p : Params) (src n dst m : Word) : List Event :=
  lineDecode p src n dst m ++ [rd p .status, rd p .resultLo]

end Sys2Proof.Machine
end

