-- ==== Sys2Proof/Machine/Step.lean ====
section
/-! DEFINITION. One step of the machine: the next event at the block's boundary, or the engine's turn when none is pending. -/

namespace Sys2Proof.Machine

/-- `wr CMD, w; wait` as one atomic transformation (20_memory.md R70). While BUSY = 1 the write is ignored
(70_reset_and_hazards.md R226) and the wait remains. -/
def runCommand (w : Word) (s : State) : Outcome :=
  if s.status.busy then .next { s with events := .wait :: s.events }
  else
    match decodeWord w with
    | .ok i => exec i (accept w s)
    | .error _ => .next (raise .illegalCmd (accept w s))

/-- `wait` (30_encoding.md R88): while BUSY = 1 the host polls and the engine has its turn (70_reset_and_hazards.md R231). -/
def waitStep (rest : List Event) (s : State) : Outcome :=
  if s.status.busy then engineTurn s else .next { s with events := rest }

/-- One step. The head of `events` says which agent moves; with no event pending the engine moves while it runs, so that every
command completes (70_reset_and_hazards.md R231; log 5, log 16). -/
def step (s : State) : Host.Outcome State Fault Refusal :=
  match s.events with
  | [] => engineTurn s
  | .regRead size addr :: rest => hostRegRead size addr { s with events := rest }
  | .regWrite size addr v :: rest => hostRegWrite size addr v { s with events := rest }
  | .memRead a :: rest => hostMemRead a { s with events := rest }
  | .memWrite a v :: rest => hostMemWrite a v { s with events := rest }
  | .reset :: rest => .next (doReset { s with events := rest })
  | .engine :: rest => engineTurn { s with events := rest }
  | .wait :: rest => waitStep rest s
  | .run w :: rest => runCommand w { s with events := rest }

/-- s with the command word w, of which `nbits` bits are given and the bits above are 0, as the next event; the block is idle, so
that the next step accepts it and runs the command (log 4). -/
def State.withFetchWord (s : State) (nbits w : Nat) : State :=
  { s with
    events := .run (BitVec.ofNat 32 (w % 2 ^ nbits)) :: s.events
    status := { s.status with busy := false }
    phase := .idle }

end Sys2Proof.Machine
end

