-- ==== Sys2Proof/Machine/PureForm.lean ====
section
/-! DEFINITION. The pure-function forms of the commands over byte sequences: 41_encode.md R135, 42_decode.md R156,
43_length.md R173. No meaning uses them: they are what the meanings are compared with (00_scope.md R12). -/

namespace Sys2Proof.Machine

/-- Bit r of the bit string of a byte sequence, each byte's most significant bit first, extended with zeros (R135). -/
def bitOfBytes (xs : List Byte) (r : Nat) : Bool := (xs.getD (r / 8) 0).getLsbD (7 - r % 8)

/-- Bit r of the bit string of a sequence of k-bit values, each value's most significant bit first (R156). -/
def bitOfValues (k : Nat) (vs : List Nat) (r : Nat) : Bool := (vs.getD (r / k) 0).testBit (k - 1 - r % k)

/-- The number whose `width` bits are those of a bit string from position `start`, most significant first (R135). -/
def msbValue (bit : Nat → Bool) (start width : Nat) : Nat :=
  ((List.range width).map fun t => (bit (start + t)).toNat * 2 ^ (width - 1 - t)).sum

/-- The symbols of `encodeBytes(xs)` (R135). -/
def encodeSymbols (p : Params) (xs : List Byte) : List Byte :=
  (List.range (encodedLen p xs.length)).map fun j => symbolAt p (msbValue (bitOfBytes xs) (j * p.chunkBits) p.chunkBits)

/-- `encodeBytes(xs)` (R135). -/
def encodeBytes (p : Params) (xs : List Byte) : List Byte :=
  let n := encodedLen p xs.length
  encodeSymbols p xs ++ if p.padEn then List.replicate (roundUp n padAlign - n) padChar else []

/-- The outcome of `decodeBytes(ts)` (R156). -/
inductive DecodeResult where
  /-- OK, with the bytes written. -/
  | ok (written : List Byte)
  /-- INVALID_SYMBOL at an offset, with the offending byte and the bytes written before it. -/
  | invalidSymbol (offset : Nat) (ch : Byte) (written : List Byte)
deriving DecidableEq, Repr

/-- The number c of characters scanned: up to the first pad byte when PAD_EN = 1 (R156). -/
def scanLength (p : Params) (ts : List Byte) : Nat :=
  if p.padEn then ts.findIdx fun ch => ch == padChar else ts.length

/-- The first m bytes of the byte stream V of a sequence of symbol values (R156). -/
def streamBytes (k : Nat) (vs : List Nat) (m : Nat) : List Byte :=
  (List.range m).map fun q => BitVec.ofNat 8 (msbValue (bitOfValues k vs) (8 * q) 8)

/-- The symbol values of a text, as far as its bytes are symbols. -/
def symbolValues (p : Params) (ts : List Byte) : List Nat := ts.map fun ch => (decodeByte p ch).getD 0

/-- `decodeBytes(ts)` (R156). -/
def decodeBytes (p : Params) (ts : List Byte) : DecodeResult :=
  let scanned := ts.take (scanLength p ts)
  match scanned.findIdx? fun ch => (decodeByte p ch).isNone with
  | some p0 =>
    .invalidSymbol p0 (scanned.getD p0 0)
      (streamBytes p.chunkBits (symbolValues p (scanned.take p0)) (p0 * p.chunkBits / 8))
  | none => .ok (streamBytes p.chunkBits (symbolValues p scanned) (scanned.length * p.chunkBits / 8))

/-- The number of trailing pad bytes of a text (R173). -/
def trailingPads (ts : List Byte) : Nat := (ts.reverse.takeWhile fun ch => ch == padChar).length

/-- `decodedLenStripped(text)` (R173). -/
def decodedLenStripped (p : Params) (ts : List Byte) : Nat := decodedLen p (ts.length - trailingPads ts)

/-- The n bytes of a memory from address a upwards. -/
def Memory.bytes (m : Memory) (a n : Nat) : List Byte := (List.range n).map fun j => m.read (a + j)

end Sys2Proof.Machine
end

