-- ==== Sys2Proof/Safety.lean ====
section
/-! DEFINITION. What the statements about the machine speak of: its invariant, the frame of a command, disjoint regions, runs of
engine turns. -/

namespace Sys2Proof.Machine

/-- The input region and the destination region have no byte in common (20_memory.md R69). -/
def State.regionsDisjoint (s : State) : Prop := ∀ a, ¬(inRegion a s.src s.len = true ∧ inRegion a s.dst s.cap = true)

/-- Every read of DECODE precedes every write to the same address (20_memory.md R69): the regions have no byte in common, or the
destination starts no later than the input, whose characters outnumber the bytes they give. -/
def State.decodeReadsFirst (s : State) : Prop := s.regionsDisjoint ∨ s.dst ≤ s.src

/-- Both regions of ENCODE and DECODE are in range (20_memory.md R67). -/
def State.regionsInRange (s : State) : Prop := s.badSrc = false ∧ s.badDst = false

/-- The bytes of the input region. -/
def State.input (s : State) : List Byte := s.mem.bytes s.src s.len

/-- The invariant of the machine. -/
structure State.Inv (s : State) : Prop where
  /-- Data memory is in canonical form. -/
  memWf : s.mem.wf
  /-- Data memory has no cell at or above 2^AW (20_memory.md R60). -/
  memInSpace : ∀ c ∈ s.mem, c.1 < 2 ^ s.config.aw
  /-- PHASE is RUN exactly while STATUS.BUSY = 1 (10_state.md R36). -/
  runIffBusy : s.phase = .run ↔ s.status.busy = true
  /-- At most one of BUSY, DONE and ERR is 1 (10_state.md R41). -/
  oneFlag : ¬(s.status.busy = true ∧ s.status.done = true) ∧ ¬(s.status.busy = true ∧ s.status.err = true) ∧
    ¬(s.status.done = true ∧ s.status.err = true)
  /-- ERR_CODE is an error code when ERR = 1, else 0 (10_state.md R41). -/
  codeIffErr : s.status.err = true ↔ s.status.errCode ≠ 0
  /-- Error codes 6 to 15 are never produced (60_exceptions.md R190). -/
  codeDefined : s.status.errCode.toNat ≤ 5
  /-- OP is the OPCODE of the accepted word while a command runs (30_encoding.md R86). -/
  opIsOpcode : s.phase = .run → s.op = opcodeField s.cmd
  /-- 0 <= ACC.HELD < 8 + K (10_state.md R34). -/
  heldBound : s.acc.held < 8 + s.config.chunkBits
  /-- ACC.BUF is a W-bit register (10_state.md R30). -/
  bufBound : s.acc.buf < 2 ^ s.config.accWidth
  /-- IN_POS fits its AW+1 bits (10_state.md R36). -/
  inPosFits : s.inPos ≤ 2 ^ s.config.aw
  /-- OUT_POS fits its AW+1 bits (10_state.md R36). -/
  outPosFits : s.outPos ≤ 2 ^ s.config.aw
  /-- In a pre-scan the input region has been found in range, and for DECODE the destination too (20_memory.md R67). -/
  prescanInRange : s.phase = .run → ∀ t, s.ctl = .prescan t ∨ s.ctl = .sized t →
    s.badSrc = false ∧ (s.running = .ok .decode → s.badDst = false)
  /-- In a main pass both regions have been found in range, and IN_POS counts bytes of the input (20_memory.md R67, 10_state.md
  R36). -/
  mainInRange : s.phase = .run → s.ctl = .main → s.regionsInRange ∧ s.inPos ≤ s.len
  /-- In the main pass of ENCODE the required size is within DST_CAP (20_memory.md R68), and the cursors count the bits moved, until
  the last symbol and the pad bytes (41_encode.md R131 to R134). -/
  encodeCounts : s.phase = .run → s.running = .ok .encode → s.ctl = .main →
    encodedLenPadded s.config.toParams s.len ≤ s.cap ∧
      (s.outPos * s.config.chunkBits + s.acc.held = 8 * s.inPos ∨
        s.inPos = s.len ∧ s.acc.held = 0 ∧ encodedLen s.config.toParams s.len ≤ s.outPos ∧
          s.outPos ≤ encodedLenPadded s.config.toParams s.len)
  /-- In the main pass of DECODE the cursors count the bits moved (42_decode.md R152). -/
  decodeCounts : s.phase = .run → s.running = .ok .decode → s.ctl = .main →
    s.outPos * 8 + s.acc.held = s.inPos * s.config.chunkBits

/-- What every command leaves as it was, from s to t: the configuration (and with it CFG and the ROMs), CMD, OP, the operand
registers, and what belongs to the host. -/
structure CommandFrame (s t : State) : Prop where
  config : t.config = s.config
  cmd : t.cmd = s.cmd
  op : t.op = s.op
  srcAddr : t.srcAddr = s.srcAddr
  srcLen : t.srcLen = s.srcLen
  dstAddr : t.dstAddr = s.dstAddr
  dstCap : t.dstCap = s.dstCap
  events : t.events = s.events
  reply : t.reply = s.reply
  draws : t.draws = s.draws

/-- Every byte of memory outside the region [start, start + m) reads as before. -/
def KeepsOutside (start m : Nat) (before after : Memory) : Prop :=
  ∀ a, inRegion a start m = false → after.read a = before.read a

/-- A completion with STATUS, RESULT and ERR_INFO as given; the engine is idle. -/
structure CompletedWith (st : Status) (result : Nat) (info : Word) (t : State) : Prop where
  status : t.status = st
  resultLo : t.resultLo = BitVec.ofNat 32 result
  resultHi : t.resultHi = BitVec.ofNat 32 (result / 2 ^ 32)
  errInfo : t.errInfo = info
  phase : t.phase = .idle

/-- The state with the event at the head of `events` taken off. -/
def State.popped (rest : List Event) (s : State) : State := { s with events := rest }

/-- The four operand registers hold the same values. -/
def SameOperands (s t : State) : Prop :=
  t.srcAddr = s.srcAddr ∧ t.srcLen = s.srcLen ∧ t.dstAddr = s.dstAddr ∧ t.dstCap = s.dstCap

/-- STATUS, RESULT and ERR_INFO hold the same values: the outcome of the last command (60_exceptions.md R202). -/
def SameOutcome (s t : State) : Prop :=
  t.status = s.status ∧ t.resultLo = s.resultLo ∧ t.resultHi = s.resultHi ∧ t.errInfo = s.errInfo

/-- A map from bytes to symbol values given by rows (first byte, last byte, value of the first byte), as 40_lookup.md R109 lists
one; a byte of no row maps to NONE. -/
def rangesLookup (rows : List (Nat × Nat × Nat)) (b : Byte) : Option Nat :=
  rows.findSome? fun r => if r.1 ≤ b.toNat ∧ b.toNat ≤ r.2.1 then some (r.2.2 + (b.toNat - r.1)) else none

/-- Two outcomes of a decoding that agree up to the letter case of the offending byte (42_decode.md R160). -/
def SameUpToCase : DecodeResult → DecodeResult → Prop
  | .ok xs, .ok ys => xs = ys
  | .invalidSymbol p x xs, .invalidSymbol q y ys => p = q ∧ lower x = lower y ∧ xs = ys
  | _, _ => False

/-- The bytes a decoding writes. -/
def DecodeResult.written : DecodeResult → List Byte
  | .ok xs => xs
  | .invalidSymbol _ _ xs => xs

/-- The command's offending byte, its offset and its success, as the completion of DECODE records them (60_exceptions.md R190,
R197). -/
def DecodeResult.recorded (r : DecodeResult) : Status × Nat × Word :=
  match r with
  | .ok xs => (statusDone, xs.length, 0)
  | .invalidSymbol p ch _ => (statusError 1, p, ch.setWidth 32)

/-- The error codes a legal command can complete with (60_exceptions.md R190). -/
def errorCodes : Instr → List (BitVec 4)
  | .encode => [2, 5]
  | .decode => [1, 2, 5]
  | .encLen | .encLenPad | .decLen | .decodeByte => []
  | .decLenStrip => [5]
  | .symbolAt => [4]

/-- How many data-memory accesses a command may make (60_exceptions.md R200). -/
def accessBound (i : Instr) (s : State) : Nat :=
  match i with
  | .encode => s.len + encodedLenPadded s.config.toParams s.len
  | .decode => 2 * s.len + decodedLen s.config.toParams s.len
  | .decLenStrip => s.len
  | .encLen | .encLenPad | .decLen | .decodeByte | .symbolAt => 0

/-- t is idle after command i with DONE, or with an error of the command's own (60_exceptions.md R190, R196, R197). -/
def CompletedBy (i : Instr) (t : State) : Prop :=
  t.phase = .idle ∧ (t.status = statusDone ∨ ∃ code ∈ errorCodes i, t.status = statusError code)

/-- k turns of the engine, one after the other. -/
def turns : Nat → State → Outcome
  | 0, s => .next s
  | k + 1, s =>
    match engineTurn s with
    | .next t => turns k t
    | .fault r => .fault r
    | .refused r => .refused r

/-- k steps of the machine, one after the other. -/
def steps : Nat → State → Outcome
  | 0, s => .next s
  | k + 1, s =>
    match step s with
    | .next t => steps k t
    | .fault r => .fault r
    | .refused r => .refused r

/-- The same outcome with another configuration in its next state. -/
def inConfig (c : Config) : Outcome → Outcome
  | .next t => .next { t with config := c }
  | .fault r => .fault r
  | .refused r => .refused r

/-- The same outcome with ACC.BUF, which no host can read (10_state.md R31), set to 0 in its next state. -/
def withoutBuf : Outcome → Outcome
  | .next t => .next { t with acc := ⟨0, t.acc.held⟩ }
  | .fault r => .fault r
  | .refused r => .refused r

/-- A byte that a configuration names as a symbol: an ALPHA entry or an alias byte. -/
def NamesSymbol (p : Params) (b : Byte) : Prop := b ∈ p.alpha ∨ ∃ c, (c, b) ∈ p.aliases

/-- The conditions on a configuration as propositions: V1 to V8 of 10_state.md R22 (V9 holds by the type of STRATEGY), and W >= 13
(00_scope.md R6). `Params.valid` computes the same. -/
structure ValidParams (p : Params) : Prop where
  v1 : (p.radix = 16 ∨ p.radix = 32 ∨ p.radix = 64) ∧ p.radix = 2 ^ p.chunkBits
  v2 : p.alpha.length = p.radix
  v3 : p.alpha.Pairwise fun b c => b ≠ c
  v4 : ∀ b, NamesSymbol p b → 0x21 ≤ b.toNat ∧ b.toNat ≤ 0x7E
  v5 : ∀ b, NamesSymbol p b → b ≠ 0x3D
  v6 : ∀ c a, (c, a) ∈ p.aliases → c ∈ p.alpha
  v7 : p.caseSens = false → ∀ b, NamesSymbol p b → ¬(0x61 ≤ b.toNat ∧ b.toNat ≤ 0x7A)
  v8 : ∀ i j b, i < p.radix → j < p.radix → i ≠ j → b ∈ accepted p i → b ∉ accepted p j
  accWidth : 13 ≤ p.accWidth

end Sys2Proof.Machine
end

