-- ==== Sys2Proof/Certificates/Slice0/Obligations.lean ====
section
/-! DEFINITION. The statements for the provers. Each docstring names the rule of spec/ it formalises. -/

open Sys2Proof Sys2Proof.Machine

/-! ### Command words -/

/-- 30_encoding.md R82 and 95_test_vectors.md L2.6: words written out bit by bit from the format CMDW, and what they decode to. -/
def Obligations.WrittenWordsDecode : Prop :=
  decodeWord 0b00000000000000000000000000000001 = .ok .encode ∧
  decodeWord 0b00000000000000000000000000000010 = .ok .decode ∧
  decodeWord 0b00000000000000000000000000000110 = .ok .decLenStrip ∧
  decodeWord 0b00000000000000000000000000001000 = .ok .symbolAt ∧
  decodeWord 0b00000000000000000000000000000000 = .error (.reservedOpcode 0) ∧
  decodeWord 0b00000000000000000000000000001001 = .error (.reservedOpcode 9) ∧
  decodeWord 0b00000000000000000000000000010001 = .error (.reservedBits 1) ∧
  decodeWord 0b10000000000000000000000000000001 = .error (.reservedBits 0x8000000)

/-- 30_encoding.md R82: the opcode map, and a command word is legal exactly when RSV = 0 and OPCODE is one of its rows. -/
def Obligations.LegalWordsAreTheEightRows : Prop :=
  [Instr.encode, .decode, .encLen, .encLenPad, .decLen, .decLenStrip, .decodeByte, .symbolAt].map encode =
    [0x1, 0x2, 0x3, 0x4, 0x5, 0x6, 0x7, 0x8] ∧
  (∀ w i, decodeWord w = .ok i ↔ w = encode i) ∧
  ∀ w : Word, (∃ i, decodeWord w = .ok i) ↔
    w.extractLsb' 4 28 = 0 ∧ 1 ≤ (w.extractLsb' 0 4).toNat ∧ (w.extractLsb' 0 4).toNat ≤ 8

/-- 30_encoding.md R83 and R84: the decoder rejects every other word, by name: RSV != 0 whatever OPCODE is, else a reserved
OPCODE. -/
def Obligations.RejectionNamesItsCause : Prop :=
  (∀ w : Word, w.extractLsb' 4 28 ≠ 0 → decodeWord w = .error (.reservedBits (w.extractLsb' 4 28))) ∧
  ∀ w : Word, w.extractLsb' 4 28 = 0 → ((w.extractLsb' 0 4).toNat = 0 ∨ 9 ≤ (w.extractLsb' 0 4).toNat) →
    decodeWord w = .error (.reservedOpcode (w.extractLsb' 0 4))

/-- Decode and encode agree for every command, and the table word of every command is read as the command. -/
def Obligations.DecodeInvertsEncode : Prop :=
  ∀ i : Instr, decodeWord (encode i) = .ok i ∧ decodeTableWord 32 (encode i).toNat = some i

/-! ### Acceptance, and the step -/

/-- A step runs the decoded command: when the next event is the command line of a legal word and the block is idle, the step is
exec of its command on the accepted state (30_encoding.md R86, 20_memory.md R70; log 5). -/
def Obligations.StepRunsTheDecodedCommand : Prop :=
  ∀ (s : State) (w : Word) (i : Instr) (rest : List Event), s.events = .run w :: rest → s.status.busy = false →
    decodeWord w = .ok i → step s = exec i (accept w (s.popped rest))

/-- 30_encoding.md R84 and 60_exceptions.md R193: every illegal word, accepted by an idle block, completes with ILLEGAL_CMD:
RESULT = 0, ERR_INFO = 0, and no operand register or byte of memory enters the next state. The second clause says so of the
engine's turn after the acceptance of the word. The first says it of the event `run w`, the command line as one transformation,
which is the model's choice (log 5). -/
def Obligations.IllegalWordCompletesWithIllegalCmd : Prop :=
  (∀ (s : State) (w : Word) (rest : List Event), s.events = .run w :: rest → s.status.busy = false →
    (∀ i, w ≠ encode i) →
    step s = .next { s with
      events := rest, cmd := w, op := w.extractLsb' 0 4, inPos := 0, outPos := 0, ctl := .start, phase := .idle
      status := ⟨false, false, true, 3⟩, resultLo := 0, resultHi := 0, errInfo := 0 }) ∧
  ∀ (s : State) (w : Word), (∀ i, w ≠ encode i) →
    engineTurn (accept w s) = .next { s with
      cmd := w, op := w.extractLsb' 0 4, inPos := 0, outPos := 0, ctl := .start, phase := .idle
      status := ⟨false, false, true, 3⟩, resultLo := 0, resultHi := 0, errInfo := 0 }

/-- 30_encoding.md R86: an accepted write of CMD sets CMD, STATUS, PHASE, OP and the cursors in one step, for every word, legal or
not; RESULT, ERR_INFO and everything else keep their values. -/
def Obligations.AcceptanceEffect : Prop :=
  ∀ (s : State) (w : Word) (rest : List Event), s.events = .regWrite 4 (s.config.base + 0x04) w :: rest →
    s.status.busy = false →
    step s = .next { s with
      events := rest, cmd := w, status := ⟨true, false, false, 0⟩, phase := .run, op := w.extractLsb' 0 4
      inPos := 0, outPos := 0, ctl := .start }

/-- 70_reset_and_hazards.md R226 (the first clause): a CMD write while STATUS.BUSY = 1 is ignored and nothing reports the loss. The
second clause is the model's choice (log 5): the event `run w`, a CMD write and a wait as one, met while BUSY = 1 leaves its
wait alone. -/
def Obligations.CmdWriteWhileBusyIgnored : Prop :=
  (∀ (s : State) (w : Word) (rest : List Event), s.events = .regWrite 4 (s.config.base + 0x04) w :: rest →
    s.status.busy = true → step s = .next { s with events := rest }) ∧
  ∀ (s : State) (w : Word) (rest : List Event), s.events = .run w :: rest → s.status.busy = true →
    step s = .next { s with events := .wait :: rest }

/-- 10_state.md R42 (every bit of an operand register is written, by an idle block) and 70_reset_and_hazards.md R227: operand
writes while busy are ignored, and no step but a reset changes the operands of a running command. -/
def Obligations.OperandRegisterWrites : Prop :=
  (∀ (s : State) (v : Word) (rest : List Event), s.status.busy = false →
    (s.events = .regWrite 4 (s.config.base + 0x0C) v :: rest → step s = .next { s with events := rest, srcAddr := v }) ∧
    (s.events = .regWrite 4 (s.config.base + 0x10) v :: rest → step s = .next { s with events := rest, srcLen := v }) ∧
    (s.events = .regWrite 4 (s.config.base + 0x14) v :: rest → step s = .next { s with events := rest, dstAddr := v }) ∧
    (s.events = .regWrite 4 (s.config.base + 0x18) v :: rest → step s = .next { s with events := rest, dstCap := v })) ∧
  (∀ (s : State) (v : Word) (rest : List Event) (offset : Nat), s.status.busy = true → offset ∈ [0x0C, 0x10, 0x14, 0x18] →
    s.events = .regWrite 4 (s.config.base + offset) v :: rest → step s = .next { s with events := rest }) ∧
  ∀ s t : State, s.status.busy = true → step s = .next t → (∃ rest, s.events = .reset :: rest) ∨ SameOperands s t

/-- 30_encoding.md R80: in the window, a read at an offset above 0x24 returns 0, a write there is ignored, and so is a write to a
read-only register. -/
def Obligations.UnmappedAndReadOnlyOffsets : Prop :=
  (∀ (s : State) (k : Nat) (rest : List Event), 0x28 ≤ 4 * k → 4 * k < 0x100 →
    s.events = .regRead 4 (s.config.base + 4 * k) :: rest → step s = .next { s with events := rest, reply := .word 0 }) ∧
  (∀ (s : State) (v : Word) (k : Nat) (rest : List Event), 0x28 ≤ 4 * k → 4 * k < 0x100 →
    s.events = .regWrite 4 (s.config.base + 4 * k) v :: rest → step s = .next { s with events := rest }) ∧
  ∀ (s : State) (v : Word) (offset : Nat) (rest : List Event), offset ∈ [0x00, 0x08, 0x1C, 0x20, 0x24] →
    s.events = .regWrite 4 (s.config.base + offset) v :: rest → step s = .next { s with events := rest }

/-- 10_state.md R38 to R44: what a read of each register gives an idle block's host; a read changes nothing else. -/
def Obligations.RegisterReadsWhileIdle : Prop :=
  ∀ (s : State) (rest : List Event), s.status.busy = false →
    ∀ r ∈ [(0x00, cfgWord s.config.toParams), (0x04, s.cmd), (0x08, s.status.word), (0x0C, s.srcAddr), (0x10, s.srcLen),
        (0x14, s.dstAddr), (0x18, s.dstCap), (0x1C, s.resultLo), (0x20, s.resultHi), (0x24, s.errInfo)],
      s.events = .regRead 4 (s.config.base + r.1) :: rest → step s = .next { s with events := rest, reply := .word r.2 }

/-- 70_reset_and_hazards.md R228: while BUSY = 1 a read of RESULT_LO, RESULT_HI or ERR_INFO returns any value, a new free draw each
time; STATUS reads as BUSY = 1 and DONE = ERR = 0 (in a state of the invariant); CFG, CMD and the operand registers read as
ever. -/
def Obligations.RegisterReadsWhileBusy : Prop :=
  ∀ (s : State) (rest : List Event), s.status.busy = true →
    (∀ offset ∈ [0x1C, 0x20, 0x24], s.events = .regRead 4 (s.config.base + offset) :: rest →
      step s = .next { s with events := rest, reply := .word (Config.freeRead s.draws), draws := s.draws + 1 }) ∧
    (s.Inv → s.events = .regRead 4 (s.config.base + 0x08) :: rest →
      step s = .next { s with events := rest, reply := .word 1 }) ∧
    ∀ r ∈ [(0x00, cfgWord s.config.toParams), (0x04, s.cmd), (0x0C, s.srcAddr), (0x10, s.srcLen), (0x14, s.dstAddr),
        (0x18, s.dstCap)],
      s.events = .regRead 4 (s.config.base + r.1) :: rest → step s = .next { s with events := rest, reply := .word r.2 }

/-- 10_state.md R39: the fields of CFG and its reserved bits; no step, a reset among them, changes its value; the rule's two
examples. -/
def Obligations.CfgFields : Prop :=
  (∀ c : Config,
    ((cfgWord c.toParams).extractLsb' 0 3).toNat = c.chunkBits ∧
    (cfgWord c.toParams).getLsbD 3 = c.padEn ∧
    (cfgWord c.toParams).getLsbD 4 = c.caseSens ∧
    (cfgWord c.toParams).getLsbD 5 = decide (c.strategy = .linear) ∧
    (cfgWord c.toParams).getLsbD 6 = decide (c.aliases ≠ []) ∧
    (cfgWord c.toParams).getLsbD 7 = false ∧
    ((cfgWord c.toParams).extractLsb' 8 4).toNat = presetId c.preset ∧
    (cfgWord c.toParams).extractLsb' 12 20 = 0) ∧
  (∀ s t : State, step s = .next t → cfgWord t.config.toParams = cfgWord s.config.toParams) ∧
  ∀ (hf : List Byte) (aw accWidth base : Nat),
    (∀ p ∈ presetParams .base64Pad .lut hf aw accWidth base, cfgWord p = 0x0000061E) ∧
    ∀ p ∈ presetParams .base16 .linear hf aw accWidth base, cfgWord p = 0x00000024

/-- 10_state.md R41: the fields of STATUS in its word, and its reserved bits. -/
def Obligations.StatusFields : Prop :=
  ∀ st : Status,
    st.word.getLsbD 0 = st.busy ∧ st.word.getLsbD 1 = st.done ∧ st.word.getLsbD 2 = st.err ∧ st.word.getLsbD 3 = false ∧
    st.word.extractLsb' 4 4 = st.errCode ∧ st.word.extractLsb' 8 24 = 0

/-- 20_memory.md R64 and 30_encoding.md R80: a host access in the window that is not an aligned 32-bit one is refused, and so is
one outside the window (log 11). -/
def Obligations.OnlyAlignedWordAccesses : Prop :=
  ∀ (s : State) (size addr : Nat) (v : Word) (rest : List Event),
    (s.events = .regRead size addr :: rest ∨ s.events = .regWrite size addr v :: rest) →
    (s.config.base ≤ addr ∧ addr < s.config.base + 0x100 → size ≠ 4 ∨ (addr - s.config.base) % 4 ≠ 0 →
      step s = .refused (.registerAccessForm size addr)) ∧
    (addr < s.config.base ∨ s.config.base + 0x100 ≤ addr → step s = .refused (.outsideWindow addr))

/-! ### The host's data memory -/

/-- 70_reset_and_hazards.md R229: while BUSY = 1 a host access to a byte of the running command's input or destination region is
the fault REGION_HAZARD; bytes outside both regions may be accessed freely at any time. A region of length 0 holds no byte. The
model's choices in it: the operand registers name both regions whatever command runs, one that uses no region among them (log 8),
and a host access is one byte wide (log 12). -/
def Obligations.RegionHazardFaults : Prop :=
  (∀ (s : State) (a : Nat) (v : Byte) (rest : List Event), s.status.busy = true → a < 2 ^ s.config.aw →
    (s.srcAddr.toNat ≤ a ∧ a < s.srcAddr.toNat + s.srcLen.toNat) ∨
      (s.dstAddr.toNat ≤ a ∧ a < s.dstAddr.toNat + s.dstCap.toNat) →
    (s.events = .memRead a :: rest → step s = .fault (.regionHazard a)) ∧
    (s.events = .memWrite a v :: rest → step s = .fault (.regionHazard a))) ∧
  ∀ (s : State) (a : Nat) (v : Byte) (rest : List Event), a < 2 ^ s.config.aw →
    s.status.busy = false ∨
      (¬(s.srcAddr.toNat ≤ a ∧ a < s.srcAddr.toNat + s.srcLen.toNat) ∧
        ¬(s.dstAddr.toNat ≤ a ∧ a < s.dstAddr.toNat + s.dstCap.toNat)) →
    (s.events = .memRead a :: rest → step s = .next { s with events := rest, reply := .byte (s.mem.read a) }) ∧
    (s.events = .memWrite a v :: rest → step s = .next { s with events := rest, mem := s.mem.write a v })

/-- A host access to a data-memory address at or above 2^AW, which 20_memory.md R60 says does not exist, is a fault: the model's
choice (log 10). -/
def Obligations.HostAddressBeyondMemoryFaults : Prop :=
  ∀ (s : State) (a : Nat) (v : Byte) (rest : List Event), 2 ^ s.config.aw ≤ a →
    (s.events = .memRead a :: rest → step s = .fault (.noSuchAddress a)) ∧
    (s.events = .memWrite a v :: rest → step s = .fault (.noSuchAddress a))

/-! ### Reset -/

/-- 70_reset_and_hazards.md R221: every piece of the block's state after reset, from any state, a command running or not; the
configuration (with CFG and the ROMs) and data memory are unchanged. The control point, the pending events, the last reply and the
count of draws are the model's own fields (log 6, log 22). -/
def Obligations.ResetValues : Prop :=
  ∀ (s : State) (rest : List Event), s.events = .reset :: rest →
    step s = .next {
      config := s.config, cmd := 0, status := ⟨false, false, false, 0⟩, srcAddr := 0, srcLen := 0, dstAddr := 0, dstCap := 0
      resultLo := 0, resultHi := 0, errInfo := 0, acc := ⟨0, 0⟩, phase := .idle, op := 0, inPos := 0, outPos := 0
      ctl := .start, mem := s.mem, events := rest, reply := s.reply, draws := s.draws }

/-- 70_reset_and_hazards.md R222: a command abandoned by reset performs no further access and no completion step: whatever turns
the engine has after the reset, the state stays as the reset left it. -/
def Obligations.ResetAbandonsTheCommand : Prop :=
  ∀ (s : State) (rest : List Event), s.events = .reset :: rest →
    ∃ t, step s = .next t ∧ t.mem = s.mem ∧ ∀ k, turns k t = .next t

/-- 60_exceptions.md R201 and 10_state.md R22: parameters that fail any one of V1 to V8, or W >= 13, build no block. Those that meet
all of them build a block in its reset state: that no other condition is checked (log 19) and that memory lists nothing then
(log 3) are the model's choices. -/
def Obligations.ConstructionRefusesInvalid : Prop :=
  ∀ p : Params, (¬ValidParams p → construct p = .refused .invalidConfig) ∧
    (ValidParams p → ∃ h : p.valid = true, construct p = .next (State.resetWith ⟨p, h⟩))

/-- 60_exceptions.md R209: an idle block with no event pending loses no state. -/
def Obligations.IdleBlockStays : Prop := ∀ s : State, s.phase = .idle → s.events = [] → step s = .next s

/-- 60_exceptions.md R202: the outcome of a command stays until the next accepted CMD write or until reset. -/
def Obligations.OutcomeStays : Prop :=
  ∀ s t : State, s.phase = .idle → s.status.busy = false → step s = .next t →
    SameOutcome s t ∨ (∃ rest, s.events = .reset :: rest) ∨
      (∃ w rest, s.events = .regWrite 4 (s.config.base + 0x04) w :: rest) ∨ ∃ w rest, s.events = .run w :: rest

/-! ### The length commands -/

/-- 43_length.md R174: ENC_LEN, its encoding, its result and its corner cases; nothing else changes. -/
def Obligations.EncLenResult : Prop :=
  decodeWord 0x00000003 = .ok .encLen ∧
  (∀ s : State, exec .encLen s = .next { s with
    resultLo := BitVec.ofNat 32 ((8 * s.srcLen.toNat + s.config.chunkBits - 1) / s.config.chunkBits)
    resultHi := BitVec.ofNat 32 ((8 * s.srcLen.toNat + s.config.chunkBits - 1) / s.config.chunkBits / 2 ^ 32)
    errInfo := 0, status := ⟨false, true, false, 0⟩, phase := .idle, ctl := .start }) ∧
  (∀ c : Config, encodedLen c.toParams 0 = 0) ∧
  ∀ p : Params, (p.chunkBits = 4 → encodedLen p 0xFFFFFFFF = 0x1FFFFFFFE) ∧
    (p.chunkBits = 5 → encodedLen p 0xFFFFFFFF = 0x199999998) ∧
    (p.chunkBits = 6 → encodedLen p 0xFFFFFFFF = 0x155555554 ∧ encodedLen p 11 = 15)

/-- 43_length.md R175: ENC_LEN_PAD, its encoding, its result and its corner cases; nothing else changes. -/
def Obligations.EncLenPadResult : Prop :=
  decodeWord 0x00000004 = .ok .encLenPad ∧
  (∀ s : State, exec .encLenPad s = .next { s with
    resultLo := BitVec.ofNat 32 (encodedLenPadded s.config.toParams s.srcLen.toNat)
    resultHi := BitVec.ofNat 32 (encodedLenPadded s.config.toParams s.srcLen.toNat / 2 ^ 32)
    errInfo := 0, status := ⟨false, true, false, 0⟩, phase := .idle, ctl := .start }) ∧
  (∀ c : Config, encodedLenPadded c.toParams 0 = 0) ∧
  (∀ p : Params, p.padEn = false → ∀ n, encodedLenPadded p n = encodedLen p n) ∧
  ∀ p : Params, p.padEn = true →
    (p.chunkBits = 4 → encodedLenPadded p 0xFFFFFFFF = 0x200000000) ∧
    (p.chunkBits = 5 → encodedLenPadded p 0xFFFFFFFF = 0x199999998 ∧ encodedLenPadded p 11 = 24) ∧
    (p.chunkBits = 6 → encodedLenPadded p 0xFFFFFFFF = 0x155555558)

/-- 43_length.md R176: DEC_LEN, its encoding, its result and its corner cases; nothing else changes. -/
def Obligations.DecLenResult : Prop :=
  decodeWord 0x00000005 = .ok .decLen ∧
  (∀ s : State, exec .decLen s = .next { s with
    resultLo := BitVec.ofNat 32 (s.srcLen.toNat * s.config.chunkBits / 8)
    resultHi := 0, errInfo := 0, status := ⟨false, true, false, 0⟩, phase := .idle, ctl := .start }) ∧
  (∀ c : Config, decodedLen c.toParams 1 = 0) ∧
  ∀ p : Params, (p.chunkBits = 4 → decodedLen p 0xFFFFFFFF = 0x7FFFFFFF) ∧
    (p.chunkBits = 5 → decodedLen p 0xFFFFFFFF = 0x9FFFFFFF ∧ decodedLen p 24 = 15) ∧
    (p.chunkBits = 6 → decodedLen p 0xFFFFFFFF = 0xBFFFFFFF)

/-- 43_length.md R177: DEC_LEN_STRIP, its encoding, its result on an input region in range, and ADDRESS_RANGE otherwise; nothing
else changes, memory least of all, and no symbol is validated. -/
def Obligations.DecLenStripResult : Prop :=
  decodeWord 0x00000006 = .ok .decLenStrip ∧
  (∀ s : State, s.srcAddr.toNat + s.srcLen.toNat ≤ 2 ^ s.config.aw →
    exec .decLenStrip s = .next { s with
      resultLo := BitVec.ofNat 32 (decodedLenStripped s.config.toParams (s.mem.bytes s.srcAddr.toNat s.srcLen.toNat))
      resultHi := 0, errInfo := 0, status := ⟨false, true, false, 0⟩, phase := .idle, ctl := .start }) ∧
  ∀ s : State, 2 ^ s.config.aw < s.srcAddr.toNat + s.srcLen.toNat →
    exec .decLenStrip s = .next { s with
      resultLo := 0, resultHi := 0, errInfo := 1, status := ⟨false, false, true, 5⟩, phase := .idle, ctl := .start }

/-- 43_length.md R178. -/
def Obligations.PaddedLengthAligned : Prop :=
  ∀ (p : Params) (n : Nat),
    (p.padEn = true → encodedLenPadded p n % 8 = 0 ∧ encodedLen p n ≤ encodedLenPadded p n ∧
      encodedLenPadded p n < encodedLen p n + 8) ∧
    (p.padEn = false → encodedLenPadded p n = encodedLen p n)

/-- 43_length.md R179: the sizes of a round trip. -/
def Obligations.RoundTripSizes : Prop :=
  (∀ (c : Config) (n : Nat), decodedLen c.toParams (encodedLen c.toParams n) = n) ∧
  ∀ (c : Config) (xs : List Byte), decodedLenStripped c.toParams (encodeBytes c.toParams xs) = xs.length

/-! ### The lookup -/

/-- 40_lookup.md R111: SYMBOL_AT, its encoding, its result on a legal index, OPERAND_RANGE on any other, and its example; nothing
else changes. -/
def Obligations.SymbolAtResult : Prop :=
  decodeWord 0x00000008 = .ok .symbolAt ∧
  (∀ s : State, s.srcLen.toNat < s.config.radix →
    exec .symbolAt s = .next { s with
      resultLo := (s.config.alpha.getD s.srcLen.toNat 0).setWidth 32, resultHi := 0, errInfo := 0
      status := ⟨false, true, false, 0⟩, phase := .idle, ctl := .start }) ∧
  (∀ s : State, s.config.radix ≤ s.srcLen.toNat →
    exec .symbolAt s = .next { s with
      resultLo := 0, resultHi := 0, errInfo := 0, status := ⟨false, false, true, 4⟩, phase := .idle, ctl := .start }) ∧
  alphabetBase64.getD 62 0 = 0x2B

/-- 40_lookup.md R112: DECODE_BYTE, its encoding, and its result in both strategies: bit 8 and the value for a byte of an accepted
set, 0 for any other; bits [31:8] of SRC_LEN are ignored and nothing else changes. -/
def Obligations.DecodeByteResult : Prop :=
  decodeWord 0x00000007 = .ok .decodeByte ∧
  (∀ (s : State) (v : Nat), decodeByte s.config.toParams (s.srcLen.extractLsb' 0 8) = some v →
    v < 64 ∧ exec .decodeByte s = .next { s with
      resultLo := BitVec.ofNat 32 (256 + v), resultHi := 0, errInfo := 0
      status := ⟨false, true, false, 0⟩, phase := .idle, ctl := .start }) ∧
  (∀ s : State, decodeByte s.config.toParams (s.srcLen.extractLsb' 0 8) = none →
    exec .decodeByte s = .next { s with
      resultLo := 0, resultHi := 0, errInfo := 0, status := ⟨false, true, false, 0⟩, phase := .idle, ctl := .start }) ∧
  ∀ c : Config, decodeByte c.toParams 0x3D = none

/-- 40_lookup.md R104 and R103: decodeByte returns the one symbol value whose accepted set holds the byte, and NONE when no
accepted set holds it. -/
def Obligations.DecodeByteFindsTheAcceptedSet : Prop :=
  ∀ (c : Config) (b : Byte) (i : Nat),
    (decodeByte c.toParams b = some i ↔ i < c.radix ∧ b ∈ accepted c.toParams i) ∧
    (decodeByte c.toParams b = none ↔ ∀ j < c.radix, b ∉ accepted c.toParams j)

/-- 40_lookup.md R105: decode_lookup_rom exists in the LUT strategy, its entries are those of R105, and the construction order sets
the same table. -/
def Obligations.LookupRomContents : Prop :=
  ∀ c : Config,
    (c.strategy = .lut → decodeLookupRom c.toParams = some (lutContents c.toParams)) ∧
    (c.strategy = .linear → decodeLookupRom c.toParams = none) ∧
    (lutContents c.toParams).length = 256 ∧
    (∀ (b : Byte) (i : Nat), decodeByte c.toParams b = some i →
      ((lutContents c.toParams).getD b.toNat 0).getLsbD 6 = true ∧
        (((lutContents c.toParams).getD b.toNat 0).extractLsb' 0 6).toNat = i) ∧
    (∀ b : Byte, decodeByte c.toParams b = none → (lutContents c.toParams).getD b.toNat 0 = 0) ∧
    lutBuilt c.toParams = lutContents c.toParams

/-- 40_lookup.md R107: both strategies compute decodeByte on every byte, so the choice of STRATEGY is invisible in every register
and memory value that a command leaves. -/
def Obligations.StrategyIsInvisible : Prop :=
  (∀ (c : Config) (b : Byte), romLookup (lutContents c.toParams) b = decodeByte c.toParams b ∧
    linearLookup c.toParams b = decodeByte c.toParams b) ∧
  ∀ (i : Instr) (s : State) (c : Config) (st : Strategy), c.toParams = { s.config.toParams with strategy := st } →
    exec i { s with config := c } = inConfig c (exec i s)

/-- 40_lookup.md R108: bytes that no valid configuration accepts. -/
def Obligations.NeverAcceptedBytes : Prop :=
  ∀ (c : Config) (b : Byte), 0x80 ≤ b.toNat ∨ b.toNat ≤ 0x20 ∨ b = 0x7F ∨ b = 0x3D → decodeByte c.toParams b = none

/-- 40_lookup.md R110: alias equivalence of BASE32_HUMAN, case equivalence of every case-insensitive configuration, and the accepted
sets of a case-sensitive one. -/
def Obligations.AliasAndCaseEquivalence : Prop :=
  (∀ (st : Strategy) (aw accWidth base : Nat), ∀ p ∈ presetParams .base32Human st alphabetHumanDefault aw accWidth base,
    decodeByte p 0x30 = some 0 ∧ decodeByte p 0x4F = some 0 ∧
      decodeByte p 0x31 = some 1 ∧ decodeByte p 0x49 = some 1 ∧ decodeByte p 0x4C = some 1) ∧
  (∀ (c : Config) (b : Byte), c.caseSens = false → decodeByte c.toParams (upper b) = decodeByte c.toParams (lower b)) ∧
  ∀ (c : Config) (b : Byte) (i : Nat), c.caseSens = true →
    (b ∈ accepted c.toParams i ↔ b = symbolAt c.toParams i ∨ (symbolAt c.toParams i, b) ∈ c.aliases)

/-- 40_lookup.md R109: decodeByte for the presets, listed as every byte that maps to a symbol value. -/
def Obligations.PresetLookupTables : Prop :=
  ∀ (st : Strategy) (aw accWidth base : Nat) (b : Byte),
    (∀ p ∈ presetParams .base16 st alphabetHumanDefault aw accWidth base,
      decodeByte p b = rangesLookup [(0x30, 0x39, 0), (0x41, 0x46, 10), (0x61, 0x66, 10)] b) ∧
    (∀ id ∈ [Preset.base32, .base32Pad], ∀ p ∈ presetParams id st alphabetHumanDefault aw accWidth base,
      decodeByte p b = rangesLookup [(0x41, 0x5A, 0), (0x32, 0x37, 26)] b) ∧
    (∀ p ∈ presetParams .base32Hex st alphabetHumanDefault aw accWidth base,
      decodeByte p b = rangesLookup [(0x30, 0x39, 0), (0x41, 0x56, 10)] b) ∧
    (∀ p ∈ presetParams .base32Human st alphabetHumanDefault aw accWidth base,
      decodeByte p b = rangesLookup [(0x30, 0x39, 0), (0x41, 0x48, 10), (0x61, 0x68, 10), (0x4A, 0x4B, 18), (0x6A, 0x6B, 18),
        (0x4D, 0x4E, 20), (0x6D, 0x6E, 20), (0x50, 0x54, 22), (0x70, 0x74, 22), (0x56, 0x5A, 27), (0x76, 0x7A, 27),
        (0x4F, 0x4F, 0), (0x6F, 0x6F, 0), (0x49, 0x49, 1), (0x69, 0x69, 1), (0x4C, 0x4C, 1), (0x6C, 0x6C, 1)] b) ∧
    ∀ id ∈ [Preset.base64, .base64Pad], ∀ p ∈ presetParams id st alphabetHumanDefault aw accWidth base,
      decodeByte p b = rangesLookup [(0x41, 0x5A, 0), (0x61, 0x7A, 26), (0x30, 0x39, 52), (0x2B, 0x2B, 62),
        (0x2F, 0x2F, 63)] b

/-- 10_state.md R23: each row of the preset table is a valid configuration, in both strategies and for every AW, BASE and
W >= 13. -/
def Obligations.PresetRowsAreValid : Prop :=
  ∀ (id : Preset) (st : Strategy) (aw accWidth base : Nat), 13 ≤ accWidth →
    ∀ p ∈ presetParams id st alphabetHumanDefault aw accWidth base, p.valid = true

/-! ### The bit accumulator -/

/-- 10_state.md R32 to R35 on the accumulator alone: a push puts the new bits below the pending ones and drops only bits at or
above HELD; a take returns the pending bits at the top and keeps the rest; a flush returns the pending bits left-aligned. Only the
HELD low bits of BUF enter. -/
def Obligations.AccumulatorOperations : Prop :=
  (∀ (accWidth v k : Nat) (acc : Acc), v < 2 ^ k → acc.held + k ≤ accWidth →
    (acc.push accWidth v k).held = acc.held + k ∧
    (acc.push accWidth v k).buf % 2 ^ (acc.held + k) = acc.buf % 2 ^ acc.held * 2 ^ k + v ∧
    (acc.push accWidth v k).buf < 2 ^ accWidth) ∧
  (∀ (k : Nat) (acc : Acc), k ≤ acc.held →
    acc.takeValue k = acc.buf % 2 ^ acc.held / 2 ^ (acc.held - k) ∧ acc.takeValue k < 2 ^ k ∧
    (acc.taken k).held = acc.held - k ∧ (acc.taken k).buf = acc.buf) ∧
  ∀ (k : Nat) (acc : Acc), acc.held < k →
    acc.flushValue k = acc.buf % 2 ^ acc.held * 2 ^ (k - acc.held) ∧ acc.flushed.held = 0

/-- 10_state.md R34: no output depends on W. A block with any other W >= 13 leaves the same state for every
command, but for ACC.BUF, which no host can read. -/
def Obligations.AccumulatorWidthIsInvisible : Prop :=
  ∀ (i : Instr) (s : State) (c : Config) (w : Nat), c.toParams = { s.config.toParams with accWidth := w } →
    withoutBuf (exec i { s with config := c }) = withoutBuf (inConfig c (exec i s))

/-! ### ENCODE -/

/-- 60_exceptions.md R195: ADDRESS_RANGE. ENCODE and DECODE with a region out of range, and DEC_LEN_STRIP with its input region out
of range: RESULT = 0, ERR_INFO names the regions, and nothing else changes. -/
def Obligations.AddressRangeErrors : Prop :=
  (∀ (i : Instr) (s : State), i = .encode ∨ i = .decode →
    2 ^ s.config.aw < s.srcAddr.toNat + s.srcLen.toNat ∨ 2 ^ s.config.aw < s.dstAddr.toNat + s.dstCap.toNat →
    exec i s = .next { s with
      resultLo := 0, resultHi := 0
      errInfo := (if 2 ^ s.config.aw < s.dstAddr.toNat + s.dstCap.toNat then 2 else 0) |||
        (if 2 ^ s.config.aw < s.srcAddr.toNat + s.srcLen.toNat then 1 else 0)
      status := ⟨false, false, true, 5⟩, phase := .idle, ctl := .start }) ∧
  ∀ s : State, 2 ^ s.config.aw < s.srcAddr.toNat + s.srcLen.toNat →
    exec .decLenStrip s = .next { s with
      resultLo := 0, resultHi := 0, errInfo := 1, status := ⟨false, false, true, 5⟩, phase := .idle, ctl := .start }

/-- 41_encode.md R131: with the regions in range, ENCODE raises NOT_ENOUGH_SPACE with RESULT = req when DST_CAP < req, and nothing
else changes; when DST_CAP >= req it succeeds. -/
def Obligations.EncodeSpaceCheck : Prop :=
  ∀ s : State, s.regionsInRange →
    (s.dstCap.toNat < encodedLenPadded s.config.toParams s.srcLen.toNat →
      exec .encode s = .next { s with
        resultLo := BitVec.ofNat 32 (encodedLenPadded s.config.toParams s.srcLen.toNat)
        resultHi := BitVec.ofNat 32 (encodedLenPadded s.config.toParams s.srcLen.toNat / 2 ^ 32)
        errInfo := 0, status := ⟨false, false, true, 2⟩, phase := .idle, ctl := .start }) ∧
    (encodedLenPadded s.config.toParams s.srcLen.toNat ≤ s.dstCap.toNat →
      ∃ t, exec .encode s = .next t ∧ t.status = ⟨false, true, false, 0⟩)

/-- The frame of ENCODE and its count (41_encode.md R136), for every memory and every pair of regions in range, overlapping or
not: it writes exactly req bytes from DST_ADDR, finishes with RESULT = req, and changes nothing but RESULT, ERR_INFO, STATUS,
the engine's own state and those bytes. -/
def Obligations.EncodeCountAndFrame : Prop :=
  ∀ s : State, s.regionsInRange → encodedLenPadded s.config.toParams s.srcLen.toNat ≤ s.dstCap.toNat →
    ∃ t, exec .encode s = .next t ∧ CommandFrame s t ∧
      CompletedWith ⟨false, true, false, 0⟩ (encodedLenPadded s.config.toParams s.srcLen.toNat) 0 t ∧
      t.outPos = encodedLenPadded s.config.toParams s.srcLen.toNat ∧ t.inPos = s.srcLen.toNat ∧
      KeepsOutside s.dstAddr.toNat (encodedLenPadded s.config.toParams s.srcLen.toNat) s.mem t.mem

/-- 41_encode.md R135: when the regions do not overlap, a successful ENCODE leaves the bytes of encodeBytes at the destination and
every other byte of data memory unchanged. -/
def Obligations.EncodeWritesItsPureForm : Prop :=
  ∀ s : State, s.mem.wf → s.regionsInRange → encodedLenPadded s.config.toParams s.srcLen.toNat ≤ s.dstCap.toNat →
    s.regionsDisjoint →
    ∃ t, exec .encode s = .next t ∧ t.status = ⟨false, true, false, 0⟩ ∧
      t.mem.bytes s.dstAddr.toNat (encodedLenPadded s.config.toParams s.srcLen.toNat) =
        encodeBytes s.config.toParams s.input ∧
      KeepsOutside s.dstAddr.toNat (encodedLenPadded s.config.toParams s.srcLen.toNat) s.mem t.mem

/-- 41_encode.md R136 and 40_lookup.md R102 on the pure form: encodeBytes gives exactly encodedLenPadded(n) bytes, encodedLen(n) of
them canonical symbols and the rest pad bytes. -/
def Obligations.EncodeOutputShape : Prop :=
  ∀ (c : Config) (xs : List Byte),
    (encodeBytes c.toParams xs).length = encodedLenPadded c.toParams xs.length ∧
    (∀ b ∈ (encodeBytes c.toParams xs).take (encodedLen c.toParams xs.length), b ∈ c.alpha) ∧
    (∀ b ∈ (encodeBytes c.toParams xs).drop (encodedLen c.toParams xs.length), b = padChar)

/-! ### DECODE -/

/-- 42_decode.md R151: with the regions in range, DECODE raises NOT_ENOUGH_SPACE with RESULT = req when DST_CAP < req, where req is
decodedLenStripped of its input whatever PAD_EN is; nothing else changes, and the input's symbols are not examined. -/
def Obligations.DecodeSpaceCheck : Prop :=
  ∀ s : State, s.regionsInRange → s.dstCap.toNat < decodedLenStripped s.config.toParams s.input →
    exec .decode s = .next { s with
      resultLo := BitVec.ofNat 32 (decodedLenStripped s.config.toParams s.input), resultHi := 0, errInfo := 0
      status := ⟨false, false, true, 2⟩, phase := .idle, ctl := .start }

/-- 42_decode.md R156 (with R154, R158): when every read precedes every write to the same address and cap >= req, DECODE has the
outcome of decodeBytes: its status, RESULT and ERR_INFO, its bytes (or those before the offending byte) at the destination, and
every other byte of data memory unchanged. -/
def Obligations.DecodeWritesItsPureForm : Prop :=
  ∀ s : State, s.mem.wf → s.regionsInRange → decodedLenStripped s.config.toParams s.input ≤ s.dstCap.toNat →
    s.decodeReadsFirst →
    ∃ t, exec .decode s = .next t ∧ CommandFrame s t ∧
      CompletedWith (decodeBytes s.config.toParams s.input).recorded.1 (decodeBytes s.config.toParams s.input).recorded.2.1
        (decodeBytes s.config.toParams s.input).recorded.2.2 t ∧
      t.mem.bytes s.dstAddr.toNat (decodeBytes s.config.toParams s.input).written.length =
        (decodeBytes s.config.toParams s.input).written ∧
      KeepsOutside s.dstAddr.toNat (decodeBytes s.config.toParams s.input).written.length s.mem t.mem

/-- The frame of DECODE, for every state, overlapping regions among them (20_memory.md R69): whatever its completion, it changes
nothing but RESULT, ERR_INFO, STATUS, the engine's own state and the bytes from DST_ADDR that its cursor has passed: OUT_POS is
exactly floor(IN_POS*K/8), and of these bytes those inside the destination region change (R68). It completes with DONE and RESULT =
OUT_POS (42_decode.md R158), or with INVALID_SYMBOL at IN_POS, naming the byte that is no symbol (60_exceptions.md R191). When every
read precedes every write to the same address OUT_POS is at most the required size (R157); a DECODE over its own unread input may
pass it, and that its writes past DST_CAP do not land is the model's choice (log 9). -/
def Obligations.DecodeFrame : Prop :=
  ∀ s t : State, exec .decode s = .next t →
    CommandFrame s t ∧ t.phase = .idle ∧
      ((t.status.errCode = 2 ∨ t.status.errCode = 5) ∧ t.mem = s.mem ∨
        t.outPos = t.inPos * s.config.chunkBits / 8 ∧ t.inPos ≤ s.srcLen.toNat ∧
          (s.decodeReadsFirst → t.outPos ≤ decodedLenStripped s.config.toParams s.input) ∧
          decodedLenStripped s.config.toParams s.input ≤ s.dstCap.toNat ∧
          KeepsOutside s.dstAddr.toNat (min t.outPos s.dstCap.toNat) s.mem t.mem ∧
          (CompletedWith ⟨false, true, false, 0⟩ t.outPos 0 t ∨
            CompletedWith ⟨false, false, true, 1⟩ t.inPos ((t.mem.read (s.srcAddr.toNat + t.inPos)).setWidth 32) t ∧
              t.inPos < s.srcLen.toNat ∧
              decodeByte s.config.toParams (t.mem.read (s.srcAddr.toNat + t.inPos)) = none ∧
              ¬(s.config.padEn = true ∧ t.mem.read (s.srcAddr.toNat + t.inPos) = padChar)))

/-- 42_decode.md R157 and 20_memory.md R68: DECODE never writes more than req bytes, whatever its input and whatever PAD_EN is, on
the pure form and, when every read precedes every write to the same address, on the machine; and no command writes outside its
destination region, in any state, overlapping regions among them. That R157's bound is not kept over DECODE's own unread input is
the model's reading (log 9). -/
def Obligations.DecodeWriteBound : Prop :=
  (∀ (c : Config) (ts : List Byte), (decodeBytes c.toParams ts).written.length ≤ decodedLenStripped c.toParams ts) ∧
  (∀ s t : State, s.decodeReadsFirst → exec .decode s = .next t →
    KeepsOutside s.dstAddr.toNat (decodedLenStripped s.config.toParams s.input) s.mem t.mem) ∧
  ∀ (i : Instr) (s t : State), exec i s = .next t → KeepsOutside s.dstAddr.toNat s.dstCap.toNat s.mem t.mem

/-- 42_decode.md R153: with PAD_EN = 1 the first pad byte ends the scan and hides whatever follows it; with PAD_EN = 0 a pad byte
after valid characters is an invalid symbol. -/
def Obligations.PadByteStopsOrFails : Prop :=
  ∀ (c : Config) (ts us : List Byte), padChar ∉ ts →
    (c.padEn = true → decodeBytes c.toParams (ts ++ padChar :: us) = decodeBytes c.toParams ts) ∧
    (c.padEn = false → (∀ ch ∈ ts, decodeByte c.toParams ch ≠ none) →
      decodeBytes c.toParams (ts ++ padChar :: us) =
        .invalidSymbol ts.length padChar (decodeBytes c.toParams ts).written)

/-- 41_encode.md R138: decoding what was encoded gives the bytes back, in every valid configuration. -/
def Obligations.RoundTrip : Prop :=
  ∀ (c : Config) (xs : List Byte), decodeBytes c.toParams (encodeBytes c.toParams xs) = .ok xs

/-- 42_decode.md R160: in a case-insensitive configuration a text and its upper-case and lower-case forms have the same outcome,
up to the case of the offending byte. -/
def Obligations.CaseFoldedTextsDecodeAlike : Prop :=
  ∀ (c : Config) (ts : List Byte), c.caseSens = false →
    SameUpToCase (decodeBytes c.toParams ts) (decodeBytes c.toParams (ts.map upper)) ∧
    SameUpToCase (decodeBytes c.toParams ts) (decodeBytes c.toParams (ts.map lower)) ∧
    trailingPads (ts.map upper) = trailingPads ts ∧ trailingPads (ts.map lower) = trailingPads ts

/-! ### The whole machine -/

/-- Every step keeps the machine's invariant: canonical memory inside the address space, PHASE and STATUS, OP, the bounds of the
accumulator and the cursors, and while a command accesses memory the regions in range, the space of ENCODE and the bits that the
cursors count (10_state.md R30, R34, R36, R41; 20_memory.md R60, R67, R68; 41_encode.md R131, R132; 42_decode.md R152;
60_exceptions.md R190). -/
def Obligations.InvariantKeptByEveryStep : Prop := ∀ s t : State, s.Inv → step s = .next t → t.Inv

/-- The invariant holds at reset, in every configuration. That memory lists nothing then is the model's choice (log 3). -/
def Obligations.InvariantAtReset : Prop := State.reset.Inv ∧ ∀ c : Config, (State.resetWith c).Inv

/-- 10_state.md R20 and R26: no command, register write or reset alters the configuration, and with it CFG and the ROMs. -/
def Obligations.ConfigurationNeverChanges : Prop := ∀ s t : State, step s = .next t → t.config = s.config

/-- 20_memory.md R61: only ENCODE and DECODE write data memory, and the commands other than these and DEC_LEN_STRIP do not read it
either: their outcome is the same over any memory. -/
def Obligations.WhichCommandsUseMemory : Prop :=
  (∀ (i : Instr) (s t : State), i ≠ .encode → i ≠ .decode → exec i s = .next t → t.mem = s.mem) ∧
  ∀ (i : Instr) (s t : State) (m : Memory), i ∉ [Instr.encode, .decode, .decLenStrip] → exec i s = .next t →
    exec i { s with mem := m } = .next { t with mem := m }

/-- The frame of an engine turn. It keeps the configuration, CMD, OP, the operand registers and what is the host's. One that leaves
BUSY = 1 also keeps RESULT_LO, RESULT_HI, ERR_INFO and STATUS, which change at completion only (10_state.md R43, 30_encoding.md
R86). It makes at most one write, of one byte at DST_ADDR + OUT_POS, and then OUT_POS advances by one: output bytes are written at
strictly increasing addresses (20_memory.md R66), inside the destination region alone (R68), and none by the completion (R71). One
access to an engine step is the model's choice (log 6), and so is that OUT_POS goes on where the region ends, which under the
invariant a DECODE alone can reach (log 9). -/
def Obligations.EngineStepWritesOneByte : Prop :=
  ∀ s t : State, engineTurn s = .next t →
    CommandFrame s t ∧ (t.status.busy = true → SameOutcome s t) ∧
    ((t.mem = s.mem ∧ (t.outPos = s.outPos ∨ t.outPos = 0)) ∨
      ∃ v, t.mem = (if s.outPos < s.dstCap.toNat then s.mem.write (s.dstAddr.toNat + s.outPos) v else s.mem) ∧
        t.outPos = s.outPos + 1 ∧ SameOutcome s t ∧
        (s.Inv → s.dstCap.toNat ≤ s.outPos → s.running = .ok .decode))

/-- 60_exceptions.md R199: ILLEGAL_CMD apart (it has its own statement), ADDRESS_RANGE, OPERAND_RANGE and NOT_ENOUGH_SPACE leave
data memory exactly as it was; INVALID_SYMBOL is raised by DECODE alone, when its cursor has passed exactly floor(p*K/8) destination
bytes, p its offset (60_exceptions.md R191), and leaves every other byte as it was, and every byte outside the destination region
(20_memory.md R68). When every read precedes every write to the same address they are at most the required size (42_decode.md R157,
log 9). -/
def Obligations.ErrorsArePrecise : Prop :=
  ∀ (i : Instr) (s t : State), exec i s = .next t → t.status.err = true →
    (t.status.errCode ≠ 1 ∧ t.mem = s.mem) ∨
      (t.status.errCode = 1 ∧ i = .decode ∧ t.resultLo.toNat < s.srcLen.toNat ∧
        t.outPos = t.resultLo.toNat * s.config.chunkBits / 8 ∧
        (s.decodeReadsFirst → t.outPos ≤ decodedLenStripped s.config.toParams s.input) ∧
        KeepsOutside s.dstAddr.toNat (min (t.resultLo.toNat * s.config.chunkBits / 8) s.dstCap.toNat) s.mem t.mem)

/-- 60_exceptions.md R200: every command completes, in every state, with DONE or with one of the errors the command can raise; and
after its acceptance it completes within as many engine turns as R200 allows it data-memory accesses, and four for its checks and
its completion. A turn that makes at most one access is the model's choice (log 6). -/
def Obligations.EveryCommandCompletes : Prop :=
  ∀ (i : Instr) (s : State),
    (∃ t, exec i s = .next t ∧ CompletedBy i t) ∧
    ∃ k ≤ accessBound i s + 4, ∃ t, turns k (accept (encode i) s) = .next t ∧ CompletedBy i t

/-- 20_memory.md R70 and 00_scope.md R12: the engine's turns, taken one by one after the acceptance of a command, reach the state
that exec gives the command as one atomic transformation, and the block is then idle. The
size of a turn is the model's choice (log 6). -/
def Obligations.TurnsReachTheCommandsEffect : Prop :=
  ∀ (i : Instr) (s t : State), exec i (accept (encode i) s) = .next t →
    ∃ k, turns k (accept (encode i) s) = .next t ∧ t.phase = .idle

/-- 70_reset_and_hazards.md R231, weak fairness: a host that writes CMD and waits sees its command complete: after finitely many steps
the wait is over and the state is that of the command line as one transformation. That a wait gives the engine its turns is the
model's choice (log 5, log 16). -/
def Obligations.WaitReachesTheCommandsEffect : Prop :=
  ∀ (i : Instr) (s t : State) (rest : List Event), s.status.busy = false →
    step { s with events := .run (encode i) :: rest } = .next t →
    ∃ k, steps k { s with events := .regWrite 4 (s.config.base + 0x04) (encode i) :: .wait :: rest } = .next t
end

