-- ==== Sys2Proof/Laws/Config.lean ====
section
/-! SUPPORT. What the validity of a configuration gives: V1 to V8 of 10_state.md R22 as propositions, for a configuration in
effect. -/

namespace Sys2Proof

/-- The checks that make up validity, one by one. -/
theorem Params.valid_parts {p : Params} (h : p.valid = true) :
    p.radixOk = true ∧ p.alphaLengthOk = true ∧ p.alphaDistinct = true ∧ p.printableOk = true ∧ p.noPadByte = true ∧
      p.aliasesCanonical = true ∧ p.noLowerCase = true ∧ p.acceptedDisjoint = true ∧ p.accWidthOk = true := by
  simpa [Params.valid, and_assoc] using h

namespace Config

/-- V1: RADIX and K. -/
theorem radix_cases (c : Config) :
    (c.radix = 16 ∧ c.chunkBits = 4) ∨ (c.radix = 32 ∧ c.chunkBits = 5) ∨ (c.radix = 64 ∧ c.chunkBits = 6) := by
  simpa [Params.radixOk, or_assoc] using (Params.valid_parts c.ok).1

/-- RADIX = 2^K. -/
theorem radix_eq (c : Config) : c.radix = 2 ^ c.chunkBits := by
  rcases c.radix_cases with ⟨h, h'⟩ | ⟨h, h'⟩ | ⟨h, h'⟩ <;> simp [h, h']

theorem chunkBits_ge (c : Config) : 4 ≤ c.chunkBits := by
  rcases c.radix_cases with ⟨_, h⟩ | ⟨_, h⟩ | ⟨_, h⟩ <;> omega

theorem chunkBits_le (c : Config) : c.chunkBits ≤ 6 := by
  rcases c.radix_cases with ⟨_, h⟩ | ⟨_, h⟩ | ⟨_, h⟩ <;> omega

/-- V2. -/
theorem alpha_length (c : Config) : c.alpha.length = c.radix := by
  simpa [Params.alphaLengthOk] using (Params.valid_parts c.ok).2.1

/-- V3. -/
theorem alpha_nodup (c : Config) : c.alpha.Nodup := by
  simpa [Params.alphaDistinct] using (Params.valid_parts c.ok).2.2.1

/-- V4, for every ALPHA entry and every alias byte. -/
theorem printable (c : Config) {b : Byte} (h : b ∈ c.symbolBytes) : 0x21 ≤ b.toNat ∧ b.toNat ≤ 0x7E := by
  have := (Params.valid_parts c.ok).2.2.2.1
  simp only [Params.printableOk, List.all_eq_true, Bool.and_eq_true, decide_eq_true_eq] at this
  exact this b h

/-- V5. -/
theorem not_pad (c : Config) {b : Byte} (h : b ∈ c.symbolBytes) : b ≠ Machine.padChar := by
  have := (Params.valid_parts c.ok).2.2.2.2.1
  simp only [Params.noPadByte, List.all_eq_true, bne_iff_ne] at this
  exact this b h

/-- V6. -/
theorem alias_canonical (c : Config) {q : Byte × Byte} (h : q ∈ c.aliases) : q.1 ∈ c.alpha := by
  have := (Params.valid_parts c.ok).2.2.2.2.2.1
  simp only [Params.aliasesCanonical, List.all_eq_true, List.contains_iff_mem] at this
  exact this q h

/-- V7. -/
theorem not_lower_case (c : Config) (hc : c.caseSens = false) {b : Byte} (h : b ∈ c.symbolBytes) :
    b.toNat < 0x61 ∨ 0x7A < b.toNat := by
  have := (Params.valid_parts c.ok).2.2.2.2.2.2.1
  simp only [Params.noLowerCase, hc, Bool.false_or, List.all_eq_true, Bool.not_eq_true', Bool.and_eq_false_iff,
    decide_eq_false_iff_not, not_le] at this
  exact this b h

/-- W >= 13. -/
theorem accWidth_ge (c : Config) : 13 ≤ c.accWidth := by
  simpa [Params.accWidthOk] using (Params.valid_parts c.ok).2.2.2.2.2.2.2.2

end Config

/-- No byte lies in two lists at different places of disjoint lists. -/
theorem disjointLists_iff (ls : List (List Byte)) :
    disjointLists ls = true ↔ ls.Pairwise fun s t => ∀ b ∈ s, b ∉ t := by
  induction ls with
  | nil => simp [disjointLists]
  | cons s rest ih =>
    simp only [disjointLists, Bool.and_eq_true, List.all_eq_true, List.pairwise_cons, ih, Bool.not_eq_true',
      List.contains_eq_mem, decide_eq_false_iff_not]
    exact and_congr_left fun _ => ⟨fun h t ht b hb => h b hb t ht, fun h b hb t ht => h t ht b hb⟩

namespace Config

/-- V8: a byte lies in at most one accepted set. -/
theorem accepted_unique (c : Config) {i j : Nat} {b : Byte} (hi : i < c.radix) (hj : j < c.radix)
    (hbi : b ∈ Machine.accepted c.toParams i) (hbj : b ∈ Machine.accepted c.toParams j) : i = j := by
  have h := (Params.valid_parts c.ok).2.2.2.2.2.2.2.1
  rw [Params.acceptedDisjoint, disjointLists_iff, List.pairwise_map] at h
  have key : ∀ {i j : Nat}, i < j → j < c.radix → b ∈ Machine.accepted c.toParams i → b ∉ Machine.accepted c.toParams j := by
    intro i j hij hj hbi
    have := (List.pairwise_iff_getElem.mp h) i j (by simpa using by omega) (by simpa using hj) hij
    simpa using this b (by simpa using hbi)
  rcases Nat.lt_trichotomy i j with hlt | heq | hgt
  · exact absurd hbj (key hlt hj hbi)
  · exact heq
  · exact absurd hbi (key hgt hi hbj)

/-- A byte that a configuration names as a symbol is one of its symbol bytes. -/
theorem mem_symbolBytes (c : Config) {b : Byte} (h : Machine.NamesSymbol c.toParams b) : b ∈ c.symbolBytes := by
  rcases h with h | ⟨a, h⟩
  · exact List.mem_append_left _ h
  · exact List.mem_append_right _ (List.mem_map.mpr ⟨_, h, rfl⟩)

/-- A configuration in effect meets every condition of 10_state.md R22, and W >= 13. -/
theorem validParams (c : Config) : Machine.ValidParams c.toParams where
  v1 := ⟨by have := c.radix_cases; omega, c.radix_eq⟩
  v2 := c.alpha_length
  v3 := c.alpha_nodup
  v4 := fun _ h => c.printable (c.mem_symbolBytes h)
  v5 := fun _ h => c.not_pad (c.mem_symbolBytes h)
  v6 := fun _ _ h => c.alias_canonical h
  v7 := fun hc _ h => by have := c.not_lower_case hc (c.mem_symbolBytes h); omega
  v8 := fun _ _ _ hi hj hne hbi hbj => hne (c.accepted_unique hi hj hbi hbj)
  accWidth := c.accWidth_ge

end Config

end Sys2Proof
end

