-- ==== Sys2Proof/Laws/Decode.lean ====
section
/-! SUPPORT. The parts of the decoder: what the opcode map and the two fields say. -/

namespace Sys2Proof

/-- The opcode map and the opcode of a command are inverse to each other. -/
theorem ofOpcode_eq_some (op : BitVec 4) (i : Instr) : ofOpcode op = some i ↔ op = i.opcode := by
  have : ∀ (i : Instr) (op : BitVec 4), ofOpcode op = some i ↔ op = i.opcode := by
    intro i
    cases i <;> decide
  exact this i op

theorem decodeFields_reserved {rsv : BitVec 28} (op : BitVec 4) (h : rsv ≠ 0) :
    decodeFields rsv op = .error (.reservedBits rsv) := if_neg h

theorem decodeFields_zero (op : BitVec 4) :
    decodeFields 0 op = match ofOpcode op with | some i => .ok i | none => .error (.reservedOpcode op) := if_pos rfl

theorem decodeWord_eq (w : Word) : decodeWord w = decodeFields (rsvField w) (opcodeField w) := rfl

/-- A command word is its two fields, one after the other (30_encoding.md R81). -/
theorem word_of_fields (w : Word) : w = rsvField w ++ opcodeField w := by
  apply BitVec.eq_of_getLsbD_eq
  intro i hi
  simp only [rsvField, opcodeField, BitVec.getLsbD_append, BitVec.getLsbD_extractLsb']
  by_cases h : i < 4
  · simp [h]
  · have h2 : i - 4 < 28 := by omega
    have h3 : 4 + (i - 4) = i := by omega
    simp [h, h2, h3]

theorem rsvField_encode (i : Instr) : rsvField (encode i) = 0 := by cases i <;> decide

theorem opcodeField_encode (i : Instr) : opcodeField (encode i) = i.opcode := by cases i <;> decide

end Sys2Proof
end

