-- ==== Sys2Proof/Laws/Memory.lean ====
section
/-! SUPPORT. Data memory: a read after a write, and the canonical form that every write keeps. -/

namespace Sys2Proof.Machine

/-- An address below every cell reads as an unlisted one. -/
theorem Memory.read_of_below {m : Memory} {a : Nat} (h : ∀ c ∈ m, a < c.1) : m.read a = unlistedByte := by
  induction m with
  | nil => rfl
  | cons c rest ih =>
    have hc : a ≠ c.1 := by have := h c (by simp); omega
    simp only [Memory.read, if_neg hc]
    exact ih fun d hd => h d (by simp [hd])

/-- A write leaves every other byte alone, whatever the memory. -/
theorem Memory.read_write_other {m : Memory} {a c : Nat} {v : Byte} (h : c ≠ a) : (m.write a v).read c = m.read c := by
  induction m with
  | nil => by_cases hv : v = unlistedByte <;> simp [Memory.write, Memory.read, hv, h]
  | cons d rest ih =>
    simp only [Memory.write]
    split
    · split <;> simp [Memory.read, h]
    · split
      · next hab =>
        subst hab
        split <;> simp [Memory.read, h]
      · simp [Memory.read, ih]

/-- A read gives back what was written there. -/
theorem Memory.read_write_same {m : Memory} (hm : m.wf) (a : Nat) (v : Byte) : (m.write a v).read a = v := by
  obtain ⟨hs, -⟩ := hm
  induction m with
  | nil => by_cases hv : v = unlistedByte <;> simp [Memory.write, Memory.read, hv]
  | cons d rest ih =>
    obtain ⟨hd, hrest⟩ := List.pairwise_cons.mp hs
    simp only [Memory.write]
    split
    · next hlt =>
      split
      · next hv =>
        rw [hv]
        refine Memory.read_of_below fun c hc => ?_
        rcases List.mem_cons.mp hc with rfl | hc
        · exact hlt
        · exact Nat.lt_trans hlt (hd c hc)
      · simp [Memory.read]
    · split
      · next heq =>
        subst heq
        split
        · next hv =>
          rw [hv]
          exact Memory.read_of_below fun c hc => hd c hc
        · simp [Memory.read]
      · next hne =>
        simp only [Memory.read, if_neg hne]
        exact ih hrest

theorem Memory.read_write {m : Memory} (hm : m.wf) (a c : Nat) (v : Byte) :
    (m.write a v).read c = if c = a then v else m.read c := by
  by_cases h : c = a
  · subst h; simp [Memory.read_write_same hm]
  · simp [h, Memory.read_write_other h]

/-- Every cell after a write is a cell of before or the written one. -/
theorem Memory.mem_write {m : Memory} {a : Nat} {v : Byte} {c : Host.Cell} (h : c ∈ m.write a v) :
    c ∈ m ∨ (c = (a, v) ∧ v ≠ unlistedByte) := by
  induction m with
  | nil =>
    by_cases hv : v = unlistedByte
    · simp [Memory.write, hv] at h
    · simp [Memory.write, hv] at h; exact .inr ⟨h, hv⟩
  | cons d rest ih =>
    simp only [Memory.write] at h
    split at h
    · split at h
      · exact .inl h
      · next hv =>
        rcases List.mem_cons.mp h with rfl | h
        · exact .inr ⟨rfl, hv⟩
        · exact .inl h
    · split at h
      · split at h
        · exact .inl (List.mem_cons_of_mem _ h)
        · next hv =>
          rcases List.mem_cons.mp h with rfl | h
          · exact .inr ⟨rfl, hv⟩
          · exact .inl (List.mem_cons_of_mem _ h)
      · rcases List.mem_cons.mp h with rfl | h
        · exact .inl (by simp)
        · rcases ih h with h | h
          · exact .inl (List.mem_cons_of_mem _ h)
          · exact .inr h

/-- A write keeps the canonical form. -/
theorem Memory.write_wf {m : Memory} (hm : m.wf) (a : Nat) (v : Byte) : (m.write a v).wf := by
  refine ⟨?_, ?_⟩
  · obtain ⟨hs, -⟩ := hm
    induction m with
    | nil => by_cases hv : v = unlistedByte <;> simp [Memory.write, hv]
    | cons d rest ih =>
      obtain ⟨hd, hrest⟩ := List.pairwise_cons.mp hs
      simp only [Memory.write]
      split
      · next hlt =>
        split
        · exact hs
        · refine List.pairwise_cons.mpr ⟨fun c hc => ?_, hs⟩
          rcases List.mem_cons.mp hc with rfl | hc
          · exact hlt
          · exact Nat.lt_trans hlt (hd c hc)
      · split
        · next heq =>
          split
          · exact hrest
          · exact List.pairwise_cons.mpr ⟨fun c hc => heq ▸ hd c hc, hrest⟩
        · next hnlt hne =>
          refine List.pairwise_cons.mpr ⟨fun c hc => ?_, ih hrest⟩
          rcases Memory.mem_write hc with hc | ⟨rfl, -⟩
          · exact hd c hc
          · show d.1 < a
            omega
  · intro c hc
    rcases Memory.mem_write hc with hc | ⟨rfl, hv⟩
    · exact hm.2 c hc
    · exact hv

/-- The memory that lists nothing is canonical. -/
theorem Memory.nil_wf : Memory.wf [] := ⟨List.Pairwise.nil, fun _ h => nomatch h⟩

/-- The memory of every reset state is canonical. -/
theorem State.resetWith_mem_wf (c : Config) : (State.resetWith c).mem.wf := Memory.nil_wf

theorem State.reset_mem_wf : State.reset.mem.wf := Memory.nil_wf

/-- A write below 2^AW adds no cell at or above it. -/
theorem Memory.write_inSpace {m : Memory} {a bound : Nat} {v : Byte} (hm : ∀ c ∈ m, c.1 < bound) (ha : a < bound) :
    ∀ c ∈ m.write a v, c.1 < bound := by
  intro c hc
  rcases Memory.mem_write hc with hc | ⟨rfl, -⟩
  · exact hm c hc
  · exact ha

/-- Equal memories are equal data: two canonical memories that read alike are the same list. -/
theorem Memory.ext_of_wf {m m' : Memory} (hm : m.wf) (hm' : m'.wf) (h : ∀ a, m.read a = m'.read a) : m = m' := by
  induction m generalizing m' with
  | nil =>
    cases m' with
    | nil => rfl
    | cons d rest =>
      have := h d.1
      simp only [Memory.read] at this
      exact absurd this.symm (hm'.2 d (by simp))
  | cons c rest ih =>
    cases m' with
    | nil =>
      have := h c.1
      simp only [Memory.read] at this
      exact absurd this (hm.2 c (by simp))
    | cons d rest' =>
      obtain ⟨hs, hv⟩ := hm
      obtain ⟨hs', hv'⟩ := hm'
      obtain ⟨hc, hrest⟩ := List.pairwise_cons.mp hs
      obtain ⟨hd, hrest'⟩ := List.pairwise_cons.mp hs'
      have key : c.1 = d.1 := by
        rcases Nat.lt_trichotomy c.1 d.1 with hlt | heq | hgt
        · have h1 := h c.1
          rw [Memory.read_of_below (m := d :: rest') fun e he => by
            rcases List.mem_cons.mp he with rfl | he
            · exact hlt
            · exact Nat.lt_trans hlt (hd e he)] at h1
          simp only [Memory.read] at h1
          exact absurd h1 (hv c (by simp))
        · exact heq
        · have h1 := h d.1
          rw [Memory.read_of_below (m := c :: rest) fun e he => by
            rcases List.mem_cons.mp he with rfl | he
            · exact hgt
            · exact Nat.lt_trans hgt (hc e he)] at h1
          simp only [Memory.read] at h1
          exact absurd h1.symm (hv' d (by simp))
      have val : c.2 = d.2 := by
        have h1 := h c.1
        simpa [Memory.read, key] using h1
      have tails : rest = rest' := by
        refine ih ⟨hrest, fun e he => hv e (by simp [he])⟩ ⟨hrest', fun e he => hv' e (by simp [he])⟩ fun a => ?_
        by_cases ha : a = c.1
        · rw [ha, Memory.read_of_below fun e he => hc e he, Memory.read_of_below fun e he => key ▸ hd e he]
        · have h1 := h a
          have ha' : a ≠ d.1 := key ▸ ha
          simpa [Memory.read, ha, ha'] using h1
      rw [Prod.ext key val, tails]

@[simp] theorem Memory.length_bytes (m : Memory) (a n : Nat) : (m.bytes a n).length = n := by simp [Memory.bytes]

/-- The j-th byte of a region. -/
theorem Memory.getElem_bytes {m : Memory} {a n j : Nat} (h : j < (m.bytes a n).length) :
    (m.bytes a n)[j] = m.read (a + j) := by simp [Memory.bytes]

theorem Memory.getD_bytes {m : Memory} {a n j : Nat} {d : Byte} (h : j < n) :
    (m.bytes a n).getD j d = m.read (a + j) := by
  simp [Memory.bytes, List.getD, h]

end Sys2Proof.Machine
end

