-- ==== Sys2Proof/Laws/State.lean ====
section
/-! SUPPORT. What each shared update of State does to each field: one lemma per field, true by definition. -/

namespace Sys2Proof.Machine

@[simp] theorem accept_config (w : Word) (s : State) : (accept w s).config = s.config := rfl
@[simp] theorem accept_cmd (w : Word) (s : State) : (accept w s).cmd = w := rfl
@[simp] theorem accept_status (w : Word) (s : State) : (accept w s).status = statusAccepted := rfl
@[simp] theorem accept_srcAddr (w : Word) (s : State) : (accept w s).srcAddr = s.srcAddr := rfl
@[simp] theorem accept_srcLen (w : Word) (s : State) : (accept w s).srcLen = s.srcLen := rfl
@[simp] theorem accept_dstAddr (w : Word) (s : State) : (accept w s).dstAddr = s.dstAddr := rfl
@[simp] theorem accept_dstCap (w : Word) (s : State) : (accept w s).dstCap = s.dstCap := rfl
@[simp] theorem accept_resultLo (w : Word) (s : State) : (accept w s).resultLo = s.resultLo := rfl
@[simp] theorem accept_resultHi (w : Word) (s : State) : (accept w s).resultHi = s.resultHi := rfl
@[simp] theorem accept_errInfo (w : Word) (s : State) : (accept w s).errInfo = s.errInfo := rfl
@[simp] theorem accept_acc (w : Word) (s : State) : (accept w s).acc = s.acc := rfl
@[simp] theorem accept_phase (w : Word) (s : State) : (accept w s).phase = .run := rfl
@[simp] theorem accept_op (w : Word) (s : State) : (accept w s).op = opcodeField w := rfl
@[simp] theorem accept_inPos (w : Word) (s : State) : (accept w s).inPos = 0 := rfl
@[simp] theorem accept_outPos (w : Word) (s : State) : (accept w s).outPos = 0 := rfl
@[simp] theorem accept_ctl (w : Word) (s : State) : (accept w s).ctl = .start := rfl
@[simp] theorem accept_mem (w : Word) (s : State) : (accept w s).mem = s.mem := rfl
@[simp] theorem accept_events (w : Word) (s : State) : (accept w s).events = s.events := rfl
@[simp] theorem accept_reply (w : Word) (s : State) : (accept w s).reply = s.reply := rfl
@[simp] theorem accept_draws (w : Word) (s : State) : (accept w s).draws = s.draws := rfl

@[simp] theorem complete_config (st : Status) (r : Nat) (info : Word) (s : State) : (complete st r info s).config = s.config := rfl
@[simp] theorem complete_cmd (st : Status) (r : Nat) (info : Word) (s : State) : (complete st r info s).cmd = s.cmd := rfl
@[simp] theorem complete_status (st : Status) (r : Nat) (info : Word) (s : State) : (complete st r info s).status = st := rfl
@[simp] theorem complete_srcAddr (st : Status) (r : Nat) (info : Word) (s : State) : (complete st r info s).srcAddr = s.srcAddr := rfl
@[simp] theorem complete_srcLen (st : Status) (r : Nat) (info : Word) (s : State) : (complete st r info s).srcLen = s.srcLen := rfl
@[simp] theorem complete_dstAddr (st : Status) (r : Nat) (info : Word) (s : State) : (complete st r info s).dstAddr = s.dstAddr := rfl
@[simp] theorem complete_dstCap (st : Status) (r : Nat) (info : Word) (s : State) : (complete st r info s).dstCap = s.dstCap := rfl
@[simp] theorem complete_resultLo (st : Status) (r : Nat) (info : Word) (s : State) : (complete st r info s).resultLo = BitVec.ofNat 32 r := rfl
@[simp] theorem complete_resultHi (st : Status) (r : Nat) (info : Word) (s : State) : (complete st r info s).resultHi = BitVec.ofNat 32 (r >>> 32) := rfl
@[simp] theorem complete_errInfo (st : Status) (r : Nat) (info : Word) (s : State) : (complete st r info s).errInfo = info := rfl
@[simp] theorem complete_acc (st : Status) (r : Nat) (info : Word) (s : State) : (complete st r info s).acc = s.acc := rfl
@[simp] theorem complete_phase (st : Status) (r : Nat) (info : Word) (s : State) : (complete st r info s).phase = .idle := rfl
@[simp] theorem complete_op (st : Status) (r : Nat) (info : Word) (s : State) : (complete st r info s).op = s.op := rfl
@[simp] theorem complete_inPos (st : Status) (r : Nat) (info : Word) (s : State) : (complete st r info s).inPos = s.inPos := rfl
@[simp] theorem complete_outPos (st : Status) (r : Nat) (info : Word) (s : State) : (complete st r info s).outPos = s.outPos := rfl
@[simp] theorem complete_ctl (st : Status) (r : Nat) (info : Word) (s : State) : (complete st r info s).ctl = .start := rfl
@[simp] theorem complete_mem (st : Status) (r : Nat) (info : Word) (s : State) : (complete st r info s).mem = s.mem := rfl
@[simp] theorem complete_events (st : Status) (r : Nat) (info : Word) (s : State) : (complete st r info s).events = s.events := rfl
@[simp] theorem complete_reply (st : Status) (r : Nat) (info : Word) (s : State) : (complete st r info s).reply = s.reply := rfl
@[simp] theorem complete_draws (st : Status) (r : Nat) (info : Word) (s : State) : (complete st r info s).draws = s.draws := rfl

@[simp] theorem raise_config (e : ErrorKind) (s : State) : (raise e s).config = s.config := rfl
@[simp] theorem raise_cmd (e : ErrorKind) (s : State) : (raise e s).cmd = s.cmd := rfl
@[simp] theorem raise_status (e : ErrorKind) (s : State) : (raise e s).status = statusError e.code := rfl
@[simp] theorem raise_srcAddr (e : ErrorKind) (s : State) : (raise e s).srcAddr = s.srcAddr := rfl
@[simp] theorem raise_srcLen (e : ErrorKind) (s : State) : (raise e s).srcLen = s.srcLen := rfl
@[simp] theorem raise_dstAddr (e : ErrorKind) (s : State) : (raise e s).dstAddr = s.dstAddr := rfl
@[simp] theorem raise_dstCap (e : ErrorKind) (s : State) : (raise e s).dstCap = s.dstCap := rfl
@[simp] theorem raise_resultLo (e : ErrorKind) (s : State) : (raise e s).resultLo = BitVec.ofNat 32 e.result := rfl
@[simp] theorem raise_resultHi (e : ErrorKind) (s : State) : (raise e s).resultHi = BitVec.ofNat 32 (e.result >>> 32) := rfl
@[simp] theorem raise_errInfo (e : ErrorKind) (s : State) : (raise e s).errInfo = e.info := rfl
@[simp] theorem raise_acc (e : ErrorKind) (s : State) : (raise e s).acc = s.acc := rfl
@[simp] theorem raise_phase (e : ErrorKind) (s : State) : (raise e s).phase = .idle := rfl
@[simp] theorem raise_op (e : ErrorKind) (s : State) : (raise e s).op = s.op := rfl
@[simp] theorem raise_inPos (e : ErrorKind) (s : State) : (raise e s).inPos = s.inPos := rfl
@[simp] theorem raise_outPos (e : ErrorKind) (s : State) : (raise e s).outPos = s.outPos := rfl
@[simp] theorem raise_ctl (e : ErrorKind) (s : State) : (raise e s).ctl = .start := rfl
@[simp] theorem raise_mem (e : ErrorKind) (s : State) : (raise e s).mem = s.mem := rfl
@[simp] theorem raise_events (e : ErrorKind) (s : State) : (raise e s).events = s.events := rfl
@[simp] theorem raise_reply (e : ErrorKind) (s : State) : (raise e s).reply = s.reply := rfl
@[simp] theorem raise_draws (e : ErrorKind) (s : State) : (raise e s).draws = s.draws := rfl

@[simp] theorem finish_config (r : Nat) (s : State) : (finish r s).config = s.config := rfl
@[simp] theorem finish_cmd (r : Nat) (s : State) : (finish r s).cmd = s.cmd := rfl
@[simp] theorem finish_status (r : Nat) (s : State) : (finish r s).status = statusDone := rfl
@[simp] theorem finish_srcAddr (r : Nat) (s : State) : (finish r s).srcAddr = s.srcAddr := rfl
@[simp] theorem finish_srcLen (r : Nat) (s : State) : (finish r s).srcLen = s.srcLen := rfl
@[simp] theorem finish_dstAddr (r : Nat) (s : State) : (finish r s).dstAddr = s.dstAddr := rfl
@[simp] theorem finish_dstCap (r : Nat) (s : State) : (finish r s).dstCap = s.dstCap := rfl
@[simp] theorem finish_resultLo (r : Nat) (s : State) : (finish r s).resultLo = BitVec.ofNat 32 r := rfl
@[simp] theorem finish_resultHi (r : Nat) (s : State) : (finish r s).resultHi = BitVec.ofNat 32 (r >>> 32) := rfl
@[simp] theorem finish_errInfo (r : Nat) (s : State) : (finish r s).errInfo = 0 := rfl
@[simp] theorem finish_acc (r : Nat) (s : State) : (finish r s).acc = s.acc := rfl
@[simp] theorem finish_phase (r : Nat) (s : State) : (finish r s).phase = .idle := rfl
@[simp] theorem finish_op (r : Nat) (s : State) : (finish r s).op = s.op := rfl
@[simp] theorem finish_inPos (r : Nat) (s : State) : (finish r s).inPos = s.inPos := rfl
@[simp] theorem finish_outPos (r : Nat) (s : State) : (finish r s).outPos = s.outPos := rfl
@[simp] theorem finish_ctl (r : Nat) (s : State) : (finish r s).ctl = .start := rfl
@[simp] theorem finish_mem (r : Nat) (s : State) : (finish r s).mem = s.mem := rfl
@[simp] theorem finish_events (r : Nat) (s : State) : (finish r s).events = s.events := rfl
@[simp] theorem finish_reply (r : Nat) (s : State) : (finish r s).reply = s.reply := rfl
@[simp] theorem finish_draws (r : Nat) (s : State) : (finish r s).draws = s.draws := rfl

@[simp] theorem startMain_config (s : State) : (startMain s).config = s.config := rfl
@[simp] theorem startMain_cmd (s : State) : (startMain s).cmd = s.cmd := rfl
@[simp] theorem startMain_status (s : State) : (startMain s).status = s.status := rfl
@[simp] theorem startMain_srcAddr (s : State) : (startMain s).srcAddr = s.srcAddr := rfl
@[simp] theorem startMain_srcLen (s : State) : (startMain s).srcLen = s.srcLen := rfl
@[simp] theorem startMain_dstAddr (s : State) : (startMain s).dstAddr = s.dstAddr := rfl
@[simp] theorem startMain_dstCap (s : State) : (startMain s).dstCap = s.dstCap := rfl
@[simp] theorem startMain_resultLo (s : State) : (startMain s).resultLo = s.resultLo := rfl
@[simp] theorem startMain_resultHi (s : State) : (startMain s).resultHi = s.resultHi := rfl
@[simp] theorem startMain_errInfo (s : State) : (startMain s).errInfo = s.errInfo := rfl
@[simp] theorem startMain_acc (s : State) : (startMain s).acc = ⟨0, 0⟩ := rfl
@[simp] theorem startMain_phase (s : State) : (startMain s).phase = s.phase := rfl
@[simp] theorem startMain_op (s : State) : (startMain s).op = s.op := rfl
@[simp] theorem startMain_inPos (s : State) : (startMain s).inPos = 0 := rfl
@[simp] theorem startMain_outPos (s : State) : (startMain s).outPos = 0 := rfl
@[simp] theorem startMain_ctl (s : State) : (startMain s).ctl = .main := rfl
@[simp] theorem startMain_mem (s : State) : (startMain s).mem = s.mem := rfl
@[simp] theorem startMain_events (s : State) : (startMain s).events = s.events := rfl
@[simp] theorem startMain_reply (s : State) : (startMain s).reply = s.reply := rfl
@[simp] theorem startMain_draws (s : State) : (startMain s).draws = s.draws := rfl

@[simp] theorem atStart_config (s : State) : (atStart s).config = s.config := rfl
@[simp] theorem atStart_cmd (s : State) : (atStart s).cmd = s.cmd := rfl
@[simp] theorem atStart_status (s : State) : (atStart s).status = s.status := rfl
@[simp] theorem atStart_srcAddr (s : State) : (atStart s).srcAddr = s.srcAddr := rfl
@[simp] theorem atStart_srcLen (s : State) : (atStart s).srcLen = s.srcLen := rfl
@[simp] theorem atStart_dstAddr (s : State) : (atStart s).dstAddr = s.dstAddr := rfl
@[simp] theorem atStart_dstCap (s : State) : (atStart s).dstCap = s.dstCap := rfl
@[simp] theorem atStart_resultLo (s : State) : (atStart s).resultLo = s.resultLo := rfl
@[simp] theorem atStart_resultHi (s : State) : (atStart s).resultHi = s.resultHi := rfl
@[simp] theorem atStart_errInfo (s : State) : (atStart s).errInfo = s.errInfo := rfl
@[simp] theorem atStart_acc (s : State) : (atStart s).acc = s.acc := rfl
@[simp] theorem atStart_phase (s : State) : (atStart s).phase = .run := rfl
@[simp] theorem atStart_op (s : State) : (atStart s).op = s.op := rfl
@[simp] theorem atStart_inPos (s : State) : (atStart s).inPos = s.inPos := rfl
@[simp] theorem atStart_outPos (s : State) : (atStart s).outPos = s.outPos := rfl
@[simp] theorem atStart_ctl (s : State) : (atStart s).ctl = .start := rfl
@[simp] theorem atStart_mem (s : State) : (atStart s).mem = s.mem := rfl
@[simp] theorem atStart_events (s : State) : (atStart s).events = s.events := rfl
@[simp] theorem atStart_reply (s : State) : (atStart s).reply = s.reply := rfl
@[simp] theorem atStart_draws (s : State) : (atStart s).draws = s.draws := rfl

@[simp] theorem answer_config (w : Word) (s : State) : (answer w s).config = s.config := rfl
@[simp] theorem answer_cmd (w : Word) (s : State) : (answer w s).cmd = s.cmd := rfl
@[simp] theorem answer_status (w : Word) (s : State) : (answer w s).status = s.status := rfl
@[simp] theorem answer_srcAddr (w : Word) (s : State) : (answer w s).srcAddr = s.srcAddr := rfl
@[simp] theorem answer_srcLen (w : Word) (s : State) : (answer w s).srcLen = s.srcLen := rfl
@[simp] theorem answer_dstAddr (w : Word) (s : State) : (answer w s).dstAddr = s.dstAddr := rfl
@[simp] theorem answer_dstCap (w : Word) (s : State) : (answer w s).dstCap = s.dstCap := rfl
@[simp] theorem answer_resultLo (w : Word) (s : State) : (answer w s).resultLo = s.resultLo := rfl
@[simp] theorem answer_resultHi (w : Word) (s : State) : (answer w s).resultHi = s.resultHi := rfl
@[simp] theorem answer_errInfo (w : Word) (s : State) : (answer w s).errInfo = s.errInfo := rfl
@[simp] theorem answer_acc (w : Word) (s : State) : (answer w s).acc = s.acc := rfl
@[simp] theorem answer_phase (w : Word) (s : State) : (answer w s).phase = s.phase := rfl
@[simp] theorem answer_op (w : Word) (s : State) : (answer w s).op = s.op := rfl
@[simp] theorem answer_inPos (w : Word) (s : State) : (answer w s).inPos = s.inPos := rfl
@[simp] theorem answer_outPos (w : Word) (s : State) : (answer w s).outPos = s.outPos := rfl
@[simp] theorem answer_ctl (w : Word) (s : State) : (answer w s).ctl = s.ctl := rfl
@[simp] theorem answer_mem (w : Word) (s : State) : (answer w s).mem = s.mem := rfl
@[simp] theorem answer_events (w : Word) (s : State) : (answer w s).events = s.events := rfl
@[simp] theorem answer_reply (w : Word) (s : State) : (answer w s).reply = .word w := rfl
@[simp] theorem answer_draws (w : Word) (s : State) : (answer w s).draws = s.draws := rfl

@[simp] theorem doReset_config (s : State) : (doReset s).config = s.config := rfl
@[simp] theorem doReset_cmd (s : State) : (doReset s).cmd = 0 := rfl
@[simp] theorem doReset_status (s : State) : (doReset s).status = ⟨false, false, false, 0⟩ := rfl
@[simp] theorem doReset_srcAddr (s : State) : (doReset s).srcAddr = 0 := rfl
@[simp] theorem doReset_srcLen (s : State) : (doReset s).srcLen = 0 := rfl
@[simp] theorem doReset_dstAddr (s : State) : (doReset s).dstAddr = 0 := rfl
@[simp] theorem doReset_dstCap (s : State) : (doReset s).dstCap = 0 := rfl
@[simp] theorem doReset_resultLo (s : State) : (doReset s).resultLo = 0 := rfl
@[simp] theorem doReset_resultHi (s : State) : (doReset s).resultHi = 0 := rfl
@[simp] theorem doReset_errInfo (s : State) : (doReset s).errInfo = 0 := rfl
@[simp] theorem doReset_acc (s : State) : (doReset s).acc = ⟨0, 0⟩ := rfl
@[simp] theorem doReset_phase (s : State) : (doReset s).phase = .idle := rfl
@[simp] theorem doReset_op (s : State) : (doReset s).op = 0 := rfl
@[simp] theorem doReset_inPos (s : State) : (doReset s).inPos = 0 := rfl
@[simp] theorem doReset_outPos (s : State) : (doReset s).outPos = 0 := rfl
@[simp] theorem doReset_ctl (s : State) : (doReset s).ctl = .start := rfl
@[simp] theorem doReset_mem (s : State) : (doReset s).mem = s.mem := rfl
@[simp] theorem doReset_events (s : State) : (doReset s).events = s.events := rfl
@[simp] theorem doReset_reply (s : State) : (doReset s).reply = s.reply := rfl
@[simp] theorem doReset_draws (s : State) : (doReset s).draws = s.draws := rfl

/-! The operands depend on the operand registers alone. -/

@[simp] theorem accept_src (w : Word) (s : State) : State.src (accept w s) = s.src := rfl
@[simp] theorem accept_len (w : Word) (s : State) : State.len (accept w s) = s.len := rfl
@[simp] theorem accept_dst (w : Word) (s : State) : State.dst (accept w s) = s.dst := rfl
@[simp] theorem accept_cap (w : Word) (s : State) : State.cap (accept w s) = s.cap := rfl
@[simp] theorem accept_badSrc (w : Word) (s : State) : State.badSrc (accept w s) = s.badSrc := rfl
@[simp] theorem accept_badDst (w : Word) (s : State) : State.badDst (accept w s) = s.badDst := rfl

@[simp] theorem complete_src (st : Status) (r : Nat) (info : Word) (s : State) : State.src (complete st r info s) = s.src := rfl
@[simp] theorem complete_len (st : Status) (r : Nat) (info : Word) (s : State) : State.len (complete st r info s) = s.len := rfl
@[simp] theorem complete_dst (st : Status) (r : Nat) (info : Word) (s : State) : State.dst (complete st r info s) = s.dst := rfl
@[simp] theorem complete_cap (st : Status) (r : Nat) (info : Word) (s : State) : State.cap (complete st r info s) = s.cap := rfl
@[simp] theorem complete_badSrc (st : Status) (r : Nat) (info : Word) (s : State) : State.badSrc (complete st r info s) = s.badSrc := rfl
@[simp] theorem complete_badDst (st : Status) (r : Nat) (info : Word) (s : State) : State.badDst (complete st r info s) = s.badDst := rfl

@[simp] theorem raise_src (e : ErrorKind) (s : State) : State.src (raise e s) = s.src := rfl
@[simp] theorem raise_len (e : ErrorKind) (s : State) : State.len (raise e s) = s.len := rfl
@[simp] theorem raise_dst (e : ErrorKind) (s : State) : State.dst (raise e s) = s.dst := rfl
@[simp] theorem raise_cap (e : ErrorKind) (s : State) : State.cap (raise e s) = s.cap := rfl
@[simp] theorem raise_badSrc (e : ErrorKind) (s : State) : State.badSrc (raise e s) = s.badSrc := rfl
@[simp] theorem raise_badDst (e : ErrorKind) (s : State) : State.badDst (raise e s) = s.badDst := rfl

@[simp] theorem finish_src (r : Nat) (s : State) : State.src (finish r s) = s.src := rfl
@[simp] theorem finish_len (r : Nat) (s : State) : State.len (finish r s) = s.len := rfl
@[simp] theorem finish_dst (r : Nat) (s : State) : State.dst (finish r s) = s.dst := rfl
@[simp] theorem finish_cap (r : Nat) (s : State) : State.cap (finish r s) = s.cap := rfl
@[simp] theorem finish_badSrc (r : Nat) (s : State) : State.badSrc (finish r s) = s.badSrc := rfl
@[simp] theorem finish_badDst (r : Nat) (s : State) : State.badDst (finish r s) = s.badDst := rfl

@[simp] theorem startMain_src (s : State) : State.src (startMain s) = s.src := rfl
@[simp] theorem startMain_len (s : State) : State.len (startMain s) = s.len := rfl
@[simp] theorem startMain_dst (s : State) : State.dst (startMain s) = s.dst := rfl
@[simp] theorem startMain_cap (s : State) : State.cap (startMain s) = s.cap := rfl
@[simp] theorem startMain_badSrc (s : State) : State.badSrc (startMain s) = s.badSrc := rfl
@[simp] theorem startMain_badDst (s : State) : State.badDst (startMain s) = s.badDst := rfl

@[simp] theorem atStart_src (s : State) : State.src (atStart s) = s.src := rfl
@[simp] theorem atStart_len (s : State) : State.len (atStart s) = s.len := rfl
@[simp] theorem atStart_dst (s : State) : State.dst (atStart s) = s.dst := rfl
@[simp] theorem atStart_cap (s : State) : State.cap (atStart s) = s.cap := rfl
@[simp] theorem atStart_badSrc (s : State) : State.badSrc (atStart s) = s.badSrc := rfl
@[simp] theorem atStart_badDst (s : State) : State.badDst (atStart s) = s.badDst := rfl

@[simp] theorem answer_src (w : Word) (s : State) : State.src (answer w s) = s.src := rfl
@[simp] theorem answer_len (w : Word) (s : State) : State.len (answer w s) = s.len := rfl
@[simp] theorem answer_dst (w : Word) (s : State) : State.dst (answer w s) = s.dst := rfl
@[simp] theorem answer_cap (w : Word) (s : State) : State.cap (answer w s) = s.cap := rfl
@[simp] theorem answer_badSrc (w : Word) (s : State) : State.badSrc (answer w s) = s.badSrc := rfl
@[simp] theorem answer_badDst (w : Word) (s : State) : State.badDst (answer w s) = s.badDst := rfl

end Sys2Proof.Machine
end

