-- ==== Sys2Proof/Laws/Ops.lean ====
section
/-! SUPPORT. What each shared operation can do, said once: the engine's accesses, the pre-scan step, and a run of engine steps to
the completion of a command. -/

namespace Sys2Proof.Machine

theorem inRegion_iff {a start m : Nat} : inRegion a start m = true ↔ start ≤ a ∧ a < start + m := by simp [inRegion]

theorem inRegion_eq_false {a start m : Nat} : inRegion a start m = false ↔ a < start ∨ start + m ≤ a := by
  rw [← Bool.not_eq_true, inRegion_iff]
  omega

theorem badSrc_eq_false {s : State} : s.badSrc = false ↔ s.src + s.len ≤ 2 ^ s.config.aw := by
  simp [State.badSrc, regionInRange]

theorem badDst_eq_false {s : State} : s.badDst = false ↔ s.dst + s.cap ≤ 2 ^ s.config.aw := by
  simp [State.badDst, regionInRange]

theorem badSrc_eq_true {s : State} : s.badSrc = true ↔ 2 ^ s.config.aw < s.src + s.len := by
  simp [State.badSrc, regionInRange]

theorem badDst_eq_true {s : State} : s.badDst = true ↔ 2 ^ s.config.aw < s.dst + s.cap := by
  simp [State.badDst, regionInRange]

/-! A write of the engine advances OUT_POS, and changes memory at its cursor inside the destination region; nothing else. -/

@[simp] theorem emit_config (v : Byte) (s : State) : (emit v s).config = s.config := rfl
@[simp] theorem emit_cmd (v : Byte) (s : State) : (emit v s).cmd = s.cmd := rfl
@[simp] theorem emit_status (v : Byte) (s : State) : (emit v s).status = s.status := rfl
@[simp] theorem emit_srcAddr (v : Byte) (s : State) : (emit v s).srcAddr = s.srcAddr := rfl
@[simp] theorem emit_srcLen (v : Byte) (s : State) : (emit v s).srcLen = s.srcLen := rfl
@[simp] theorem emit_dstAddr (v : Byte) (s : State) : (emit v s).dstAddr = s.dstAddr := rfl
@[simp] theorem emit_dstCap (v : Byte) (s : State) : (emit v s).dstCap = s.dstCap := rfl
@[simp] theorem emit_resultLo (v : Byte) (s : State) : (emit v s).resultLo = s.resultLo := rfl
@[simp] theorem emit_resultHi (v : Byte) (s : State) : (emit v s).resultHi = s.resultHi := rfl
@[simp] theorem emit_errInfo (v : Byte) (s : State) : (emit v s).errInfo = s.errInfo := rfl
@[simp] theorem emit_acc (v : Byte) (s : State) : (emit v s).acc = s.acc := rfl
@[simp] theorem emit_phase (v : Byte) (s : State) : (emit v s).phase = s.phase := rfl
@[simp] theorem emit_op (v : Byte) (s : State) : (emit v s).op = s.op := rfl
@[simp] theorem emit_inPos (v : Byte) (s : State) : (emit v s).inPos = s.inPos := rfl
@[simp] theorem emit_ctl (v : Byte) (s : State) : (emit v s).ctl = s.ctl := rfl
@[simp] theorem emit_events (v : Byte) (s : State) : (emit v s).events = s.events := rfl
@[simp] theorem emit_reply (v : Byte) (s : State) : (emit v s).reply = s.reply := rfl
@[simp] theorem emit_draws (v : Byte) (s : State) : (emit v s).draws = s.draws := rfl
@[simp] theorem emit_outPos (v : Byte) (s : State) : (emit v s).outPos = s.outPos + 1 := rfl
theorem emit_mem (v : Byte) (s : State) :
    (emit v s).mem = if s.outPos < s.cap then s.mem.write (s.dst + s.outPos) v else s.mem := rfl

/-- A pre-scan step changes the control point alone: it counts one more pad byte or ends the count. -/
theorem prescanStep_cases (k : Nat) (s : State) :
    (k < s.len ∧ s.mem.read (s.src + s.len - 1 - k) = padChar ∧ prescanStep k s = { s with ctl := .prescan (k + 1) }) ∨
    (k < s.len ∧ s.mem.read (s.src + s.len - 1 - k) ≠ padChar ∧ prescanStep k s = { s with ctl := .sized k }) ∨
    (s.len ≤ k ∧ prescanStep k s = { s with ctl := .sized k }) := by
  unfold prescanStep engineRead
  split
  · next hlt =>
    split
    · next hp => exact .inl ⟨hlt, hp, rfl⟩
    · next hp => exact .inr (.inl ⟨hlt, hp, rfl⟩)
  · next hge => exact .inr (.inr ⟨Nat.le_of_not_lt hge, rfl⟩)

/-- What holds along a run of engine steps holds at the command's completion. -/
theorem runEngine_keeps {f : State → Outcome} {P : State → Prop} (hf : ∀ s t, P s → f s = .next t → P t) :
    ∀ fuel s t, P s → runEngine f fuel s = .next t → P t ∧ t.phase = .idle := by
  intro fuel
  induction fuel with
  | zero => intro s t _ h; cases h
  | succ fuel ih =>
    intro s t hs h
    unfold runEngine at h
    split at h
    · next u hu =>
      split at h
      · next hidle =>
        cases h
        exact ⟨hf s t hs hu, hidle⟩
      · exact ih u t (hf s u hs hu) h
    · cases h
    · cases h

/-- A command completes with Q when each engine step from a state of its loop invariant I either completes it with Q or makes
progress within I. -/
theorem runEngine_completes {f : State → Outcome} {I Q : State → Prop} {μ : State → Nat}
    (hf : ∀ s, I s → ∃ t, f s = .next t ∧ ((t.phase = .idle ∧ Q t) ∨ (t.phase = .run ∧ I t ∧ μ t < μ s))) :
    ∀ fuel s, I s → μ s < fuel → ∃ t, runEngine f fuel s = .next t ∧ t.phase = .idle ∧ Q t := by
  intro fuel
  induction fuel with
  | zero => intro s _ h; omega
  | succ fuel ih =>
    intro s hs hlt
    obtain ⟨t, ht, ⟨hidle, hq⟩ | ⟨hrun, hi, hdec⟩⟩ := hf s hs
    · exact ⟨t, by simp [runEngine, ht, hidle], hidle, hq⟩
    · obtain ⟨u, hu, hq⟩ := ih t hi (by omega)
      exact ⟨u, by simp [runEngine, ht, hrun, hu], hq⟩

/-- A command that completes in its first step. -/
theorem runEngine_now {f : State → Outcome} {fuel : Nat} {s t : State} (h : f s = .next t) (hidle : t.phase = .idle)
    (hfuel : 0 < fuel) : runEngine f fuel s = .next t := by
  cases fuel with
  | zero => omega
  | succ fuel => simp [runEngine, h, hidle]

/-- One step of a command that goes on. -/
theorem runEngine_step {f : State → Outcome} {fuel : Nat} {s t : State} (h : f s = .next t) (hrun : t.phase = .run) :
    runEngine f (fuel + 1) s = runEngine f fuel t := by simp [runEngine, h, hrun]

/-- A run that ends does not depend on the fuel that is left. -/
theorem runEngine_more_fuel {f : State → Outcome} {fuel more : Nat} {s t : State} (h : runEngine f fuel s = .next t)
    (hle : fuel ≤ more) : runEngine f more s = .next t := by
  induction fuel generalizing s more with
  | zero => cases h
  | succ fuel ih =>
    cases more with
    | zero => omega
    | succ more =>
      unfold runEngine at h ⊢
      split at h
      · split at h
        · next hidle => simp [hidle, h]
        · next hrun => simp only [hrun, if_false]; exact ih h (by omega)
      · cases h
      · cases h

end Sys2Proof.Machine
end

