-- ==== Sys2Proof/Laws/Engine.lean ====
section
/-! SUPPORT. What one engine step of each command can do, said once; the frame of every command. -/

namespace Sys2Proof.Machine

/-- The main pass of ENCODE, one step: a whole symbol, the next input byte, the final partial symbol, a pad byte, or the
completion. -/
theorem encodeMain_cases (s : State) :
    (s.config.chunkBits ≤ s.acc.held ∧
      encodeMain s = emit (symbolAt s.config.toParams (s.acc.takeValue s.config.chunkBits))
        { s with acc := s.acc.taken s.config.chunkBits }) ∨
    (s.acc.held < s.config.chunkBits ∧ s.inPos < s.len ∧
      encodeMain s = { s with
        inPos := s.inPos + 1
        acc := s.acc.push s.config.accWidth (s.mem.read (s.src + s.inPos)).toNat 8 }) ∨
    (s.acc.held < s.config.chunkBits ∧ s.len ≤ s.inPos ∧ 0 < s.acc.held ∧
      encodeMain s = emit (symbolAt s.config.toParams (s.acc.flushValue s.config.chunkBits))
        { s with acc := s.acc.flushed }) ∨
    (s.acc.held < s.config.chunkBits ∧ s.len ≤ s.inPos ∧ s.acc.held = 0 ∧ s.config.padEn = true ∧ s.outPos % padAlign ≠ 0 ∧
      encodeMain s = emit padChar s) ∨
    (s.acc.held < s.config.chunkBits ∧ s.len ≤ s.inPos ∧ s.acc.held = 0 ∧
      (s.config.padEn = false ∨ s.outPos % padAlign = 0) ∧ encodeMain s = finish s.outPos s) := by
  unfold encodeMain engineRead
  dsimp only
  split
  · next hk => exact .inl ⟨hk, rfl⟩
  · next hk =>
    split
    · next hin => exact .inr (.inl ⟨by omega, hin, rfl⟩)
    · next hin =>
      split
      · next hheld => exact .inr (.inr (.inl ⟨by omega, by omega, hheld, rfl⟩))
      · next hheld =>
        split
        · next hpad =>
          simp only [Bool.and_eq_true, bne_iff_ne] at hpad
          exact .inr (.inr (.inr (.inl ⟨by omega, by omega, by omega, hpad.1, hpad.2, rfl⟩)))
        · next hpad =>
          refine .inr (.inr (.inr (.inr ⟨by omega, by omega, by omega, ?_, rfl⟩)))
          simpa [or_iff_not_imp_left] using hpad

/-- What DECODE does with a character: the pad stop, the abort, or a push. -/
theorem decodeChar_cases (s : State) (ch : Byte) :
    (s.config.padEn = true ∧ ch = padChar ∧ decodeChar s ch = { s with ctl := .stopped }) ∨
    (¬(s.config.padEn = true ∧ ch = padChar) ∧ lookupByte s.config.toParams ch = none ∧
      decodeChar s ch = { s with ctl := .invalid ch }) ∨
    (¬(s.config.padEn = true ∧ ch = padChar) ∧ ∃ v, lookupByte s.config.toParams ch = some v ∧
      decodeChar s ch = { s with inPos := s.inPos + 1, acc := s.acc.push s.config.accWidth v s.config.chunkBits }) := by
  unfold decodeChar
  simp only
  split
  · next hpad =>
    simp only [Bool.and_eq_true, beq_iff_eq] at hpad
    exact .inl ⟨hpad.1, hpad.2, rfl⟩
  · next hpad =>
    simp only [Bool.and_eq_true, beq_iff_eq] at hpad
    split
    · next hnone => exact .inr (.inl ⟨hpad, hnone, rfl⟩)
    · next v hsome => exact .inr (.inr ⟨hpad, v, hsome, rfl⟩)

/-- The main pass of DECODE, one step: a whole byte, the next character, or the completion. -/
theorem decodeMain_cases (s : State) :
    (8 ≤ s.acc.held ∧
      decodeMain s = emit (BitVec.ofNat 8 (s.acc.takeValue 8)) { s with acc := s.acc.taken 8 }) ∨
    (s.acc.held < 8 ∧ s.inPos < s.len ∧ decodeMain s = decodeChar s (s.mem.read (s.src + s.inPos))) ∨
    (s.acc.held < 8 ∧ s.len ≤ s.inPos ∧ decodeMain s = finish s.outPos s) := by
  unfold decodeMain engineRead
  split
  · next hk => exact .inl ⟨hk, rfl⟩
  · next hk =>
    split
    · next hin => exact .inr (.inl ⟨by omega, hin, rfl⟩)
    · next hin => exact .inr (.inr ⟨by omega, by omega, rfl⟩)

/-- The start of ENCODE: one of its two errors, or the main pass. -/
theorem encodeStart_cases (s : State) :
    ((s.badSrc = true ∨ s.badDst = true) ∧ encodeStart s = raise (.addressRange s.badSrc s.badDst) s) ∨
    (s.regionsInRange ∧ s.cap < encodedLenPadded s.config.toParams s.len ∧
      encodeStart s = raise (.notEnoughSpace (encodedLenPadded s.config.toParams s.len)) s) ∨
    (s.regionsInRange ∧ encodedLenPadded s.config.toParams s.len ≤ s.cap ∧
      encodeStart s = startMain s) := by
  unfold encodeStart State.regionsInRange
  cases hs : s.badSrc <;> cases hd : s.badDst <;> simp
  rcases Nat.lt_or_ge s.cap (encodedLenPadded s.config.toParams s.len) with h | h
  · simp [h, Nat.not_le.mpr h]
  · simp [h, Nat.not_lt.mpr h]

/-- The frame of a command is reflexive and composes. -/
theorem CommandFrame.rfl' (s : State) : CommandFrame s s := ⟨rfl, rfl, rfl, rfl, rfl, rfl, rfl, rfl, rfl, rfl⟩

theorem CommandFrame.trans {s t u : State} (h : CommandFrame s t) (h' : CommandFrame t u) : CommandFrame s u := by
  constructor <;> simp only [h'.1, h'.2, h'.3, h'.4, h'.5, h'.6, h'.7, h'.8, h'.9, h'.10, h.1, h.2, h.3, h.4, h.5, h.6, h.7,
    h.8, h.9, h.10]

/-- The operands depend on what a command's frame keeps. -/
theorem CommandFrame.operands {s t : State} (h : CommandFrame s t) :
    t.src = s.src ∧ t.len = s.len ∧ t.dst = s.dst ∧ t.cap = s.cap := by
  simp [State.src, State.len, State.dst, State.cap, h.srcAddr, h.srcLen, h.dstAddr, h.dstCap]

theorem CommandFrame.complete (st : Status) (r : Nat) (info : Word) (s : State) : CommandFrame s (Machine.complete st r info s) := by constructor <;> rfl

theorem decodeChar_frame (s : State) (ch : Byte) : CommandFrame s (decodeChar s ch) := by
  rcases decodeChar_cases s ch with ⟨-, -, h⟩ | ⟨-, -, h⟩ | ⟨-, v, -, h⟩ <;> rw [h] <;> (constructor <;> rfl)

theorem emit_frame (v : Byte) (s : State) : CommandFrame s (emit v s) := by constructor <;> simp

theorem prescanStep_frame (k : Nat) (s : State) : CommandFrame s (prescanStep k s) := by
  rcases prescanStep_cases k s with ⟨-, -, h⟩ | ⟨-, -, h⟩ | ⟨-, h⟩ <;> rw [h] <;> (constructor <;> rfl)

theorem encodeMain_frame (s : State) : CommandFrame s (encodeMain s) := by
  rcases encodeMain_cases s with ⟨-, h⟩ | ⟨-, -, h⟩ | ⟨-, -, -, h⟩ | ⟨-, -, -, -, -, h⟩ | ⟨-, -, -, -, h⟩ <;> rw [h] <;>
    (constructor <;> simp)

theorem decodeMain_frame (s : State) : CommandFrame s (decodeMain s) := by
  rcases decodeMain_cases s with ⟨-, h⟩ | ⟨-, -, h⟩ | ⟨-, -, h⟩ <;> rw [h]
  · constructor <;> simp
  · exact decodeChar_frame s _
  · constructor <;> rfl

theorem encodeStart_frame (s : State) : CommandFrame s (encodeStart s) := by
  rcases encodeStart_cases s with ⟨-, h⟩ | ⟨-, -, h⟩ | ⟨-, -, h⟩ <;> rw [h] <;> (constructor <;> rfl)

/-- Every engine step of a command answers a next state: no command can fault in one. -/
theorem tick_next (i : Instr) (s : State) : ∃ t, tick i s = .next t := by
  cases i
  case encode => simp only [tick, encodeTick]; split <;> exact ⟨_, rfl⟩
  case decode => simp only [tick, decodeTick]; split <;> exact ⟨_, rfl⟩
  case decLenStrip => simp only [tick, decLenStripTick]; split <;> exact ⟨_, rfl⟩
  case symbolAt => simp only [tick, execSymbolAt]; split <;> exact ⟨_, rfl⟩
  case decodeByte => simp only [tick, execDecodeByte]; split <;> exact ⟨_, rfl⟩
  all_goals exact ⟨_, rfl⟩

/-- Every engine step of every command keeps the command's frame. -/
theorem tick_frame {i : Instr} {s t : State} (h : tick i s = .next t) : CommandFrame s t := by
  cases i
  case encode =>
    simp only [tick, encodeTick] at h
    split at h <;> cases h
    · exact encodeMain_frame s
    all_goals exact encodeStart_frame s
  case decode =>
    simp only [tick, decodeTick] at h
    split at h <;> cases h
    · unfold decodeStart; split <;> (constructor <;> rfl)
    · exact prescanStep_frame _ s
    · unfold decodeSized; split <;> (constructor <;> rfl)
    · exact decodeMain_frame s
    all_goals (constructor <;> rfl)
  case decLenStrip =>
    simp only [tick, decLenStripTick] at h
    split at h <;> cases h
    · exact prescanStep_frame _ s
    · constructor <;> rfl
    all_goals split <;> (constructor <;> rfl)
  case symbolAt =>
    simp only [tick, execSymbolAt] at h
    split at h <;> cases h <;> (constructor <;> rfl)
  case decodeByte =>
    simp only [tick, execDecodeByte] at h
    split at h <;> cases h <;> (constructor <;> rfl)
  all_goals cases h; (constructor <;> rfl)

/-- What exec of a command is, over its engine steps: a run of them, or a single one. -/
theorem exec_eq_run (i : Instr) (s : State) :
    exec i s = tick i s ∨ ∃ fuel, exec i s = runEngine (tick i) fuel (atStart s) := by
  cases i
  case encode => exact .inr ⟨_, rfl⟩
  case decode => exact .inr ⟨_, rfl⟩
  case decLenStrip => exact .inr ⟨_, rfl⟩
  all_goals exact .inl rfl

/-- Every command keeps its frame. -/
theorem exec_frame {i : Instr} {s t : State} (h : exec i s = .next t) : CommandFrame s t := by
  rcases exec_eq_run i s with he | ⟨fuel, he⟩
  · exact tick_frame (he ▸ h)
  · rw [he] at h
    exact (runEngine_keeps (P := CommandFrame s) (fun u v hu hv => hu.trans (tick_frame hv)) fuel (atStart s) t
      (by constructor <;> rfl) h).1

/-- A command that makes no data-memory access completes in its one step. -/
theorem exec_phase {i : Instr} {s t : State} (h : exec i s = .next t) : t.phase = .idle := by
  cases i
  case encode => exact (runEngine_keeps (P := fun _ => True) (fun _ _ _ _ => trivial) _ _ t trivial h).2
  case decode => exact (runEngine_keeps (P := fun _ => True) (fun _ _ _ _ => trivial) _ _ t trivial h).2
  case decLenStrip => exact (runEngine_keeps (P := fun _ => True) (fun _ _ _ _ => trivial) _ _ t trivial h).2
  case symbolAt =>
    simp only [exec, execSymbolAt] at h
    split at h <;> cases h <;> rfl
  case decodeByte =>
    simp only [exec, execDecodeByte] at h
    split at h <;> cases h <;> rfl
  all_goals cases h; rfl

end Sys2Proof.Machine
end

