-- ==== Sys2Proof/Laws/Prescan.lean ====
section
/-! SUPPORT. The pre-scan of trailing pad bytes (43_length.md R173): what the engine's steps count is `trailingPads` of the input, and
where a DECODE stands after it. -/

namespace Sys2Proof.Machine

/-- What takeWhile keeps, and what stops it. -/
theorem takeWhile_spec {α : Type} (p : α → Bool) (l : List α) :
    (∀ k, k < (l.takeWhile p).length → ∃ h : k < l.length, p l[k] = true) ∧
      ∀ h : (l.takeWhile p).length < l.length, p l[(l.takeWhile p).length] = false := by
  induction l with
  | nil => simp
  | cons a l ih =>
    by_cases ha : p a = true
    · simp only [List.takeWhile_cons, ha, if_true, List.length_cons]
      refine ⟨fun k hk => ?_, fun h => by simpa using ih.2 (by omega)⟩
      cases k with
      | zero => exact ⟨by simp, by simpa using ha⟩
      | succ k =>
        obtain ⟨h1, h2⟩ := ih.1 k (by omega)
        exact ⟨by omega, by simpa using h2⟩
    · simp [ha]

theorem trailingPads_le (ts : List Byte) : trailingPads ts ≤ ts.length := by
  have := (List.takeWhile_prefix (l := ts.reverse) (fun ch => ch == padChar)).length_le
  simpa [trailingPads] using this

/-- The pad bytes at the end of a region of memory, read backwards, and the byte before them. -/
theorem trailingPads_spec (m : Memory) (a n : Nat) :
    trailingPads (m.bytes a n) ≤ n ∧ (∀ k < trailingPads (m.bytes a n), m.read (a + n - 1 - k) = padChar) ∧
      (trailingPads (m.bytes a n) < n → m.read (a + n - 1 - trailingPads (m.bytes a n)) ≠ padChar) := by
  have hle := trailingPads_le (m.bytes a n)
  rw [Memory.length_bytes] at hle
  obtain ⟨h1, h2⟩ := takeWhile_spec (fun ch => ch == padChar) (m.bytes a n).reverse
  have conv : ∀ k (h : k < (m.bytes a n).reverse.length), (m.bytes a n).reverse[k] = m.read (a + n - 1 - k) := by
    intro k h
    simp at h
    rw [List.getElem_reverse, Memory.getElem_bytes, Memory.length_bytes]
    congr 1
    omega
  refine ⟨hle, fun k hk => ?_, fun hlt => ?_⟩
  · obtain ⟨h', h3⟩ := h1 k hk
    rw [conv k h'] at h3
    simpa using h3
  · have hlt' : ((m.bytes a n).reverse.takeWhile fun ch => ch == padChar).length < (m.bytes a n).reverse.length := by
      simpa [trailingPads] using hlt
    have := h2 hlt'
    rw [conv _ hlt'] at this
    simpa [trailingPads] using this

/-- The number of trailing pad bytes of the input region is at most its length. -/
theorem trailingPads_input_le (s : State) : trailingPads s.input ≤ s.len := (trailingPads_spec s.mem s.src s.len).1

theorem decodedLenStripped_input (s : State) :
    decodedLenStripped s.config.toParams s.input = decodedLen s.config.toParams (s.len - trailingPads s.input) := by
  simp [decodedLenStripped, State.input]

/-- A decoded length of at most SRC_LEN characters fits RESULT_LO. -/
theorem decodedLen_lt (c : Config) (w : Word) {n : Nat} (h : n ≤ w.toNat) : decodedLen c.toParams n < 2 ^ 32 := by
  have h1 := c.chunkBits_le
  have h2 := w.isLt
  have h3 : n * c.chunkBits ≤ n * 6 := Nat.mul_le_mul_left n h1
  simp only [decodedLen]
  omega

/-- RESULT_HI of a result below 2^32. -/
theorem resultHi_eq_zero {n : Nat} (h : n < 2 ^ 32) : BitVec.ofNat 32 (n >>> 32) = 0 := by
  rw [Nat.shiftRight_eq_div_pow, Nat.div_eq_of_lt h]
  rfl

/-- s with the engine at a control point of a running command. -/
def State.atControl (s : State) (c : ControlPoint) : State := { s with phase := .run, ctl := c }

/-- A pre-scan step counts the trailing pad bytes of the input and no more. -/
theorem prescanStep_eq (s : State) {t : Nat} (ht : t ≤ trailingPads s.input) :
    prescanStep t (s.atControl (.prescan t)) =
      s.atControl (if t < trailingPads s.input then .prescan (t + 1) else .sized t) := by
  obtain ⟨h0, h1, h2⟩ := trailingPads_spec s.mem s.src s.len
  change trailingPads s.input ≤ _ at h0
  change ∀ k < trailingPads s.input, _ at h1
  change trailingPads s.input < _ → _ at h2
  rcases prescanStep_cases t (s.atControl (.prescan t)) with ⟨hlt, hp, h⟩ | ⟨hlt, hp, h⟩ | ⟨hle, h⟩ <;> rw [h]
  · change t < s.len at hlt
    change s.mem.read (s.src + s.len - 1 - t) = padChar at hp
    have hT : t < trailingPads s.input := by
      rcases Nat.lt_or_ge t (trailingPads s.input) with hT | hT
      · exact hT
      · have : t = trailingPads s.input := by omega
        rw [this] at hlt hp
        exact absurd hp (h2 hlt)
    rw [if_pos hT]
    rfl
  · rw [if_neg fun hT => hp (h1 t hT)]
    rfl
  · change s.len ≤ t at hle
    rw [if_neg (by omega)]
    rfl

/-- The pre-scan as a whole: a command whose steps at its pre-scan control points are `prescanStep` goes through t + 1 of them to
the control point `sized`, t the number of trailing pad bytes. -/
theorem runEngine_prescan {f : State → Outcome} (hf : ∀ u k, u.ctl = .prescan k → f u = .next (prescanStep k u)) (s : State)
    (fuel : Nat) :
    runEngine f (fuel + (trailingPads s.input + 1)) (s.atControl (.prescan 0)) =
      runEngine f fuel (s.atControl (.sized (trailingPads s.input))) := by
  have main : ∀ k, k ≤ trailingPads s.input →
      runEngine f (fuel + (k + 1)) (s.atControl (.prescan (trailingPads s.input - k))) =
        runEngine f fuel (s.atControl (.sized (trailingPads s.input))) := by
    intro k
    induction k with
    | zero =>
      intro _
      have h := prescanStep_eq s (Nat.le_refl (trailingPads s.input))
      rw [if_neg (Nat.lt_irrefl _)] at h
      rw [Nat.sub_zero]
      exact runEngine_step ((hf _ _ rfl).trans (congrArg _ h)) rfl
    | succ k ih =>
      intro hk
      have h := prescanStep_eq s (Nat.sub_le (trailingPads s.input) (k + 1))
      rw [if_pos (by omega), show trailingPads s.input - (k + 1) + 1 = trailingPads s.input - k by omega] at h
      exact (runEngine_step ((hf _ _ rfl).trans (congrArg _ h)) rfl).trans (ih (by omega))
  have := main (trailingPads s.input) (Nat.le_refl _)
  rwa [Nat.sub_self] at this

/-- A DECODE with both regions in range goes through its checks and its pre-scan to the control point `sized`. -/
theorem runEngine_decode_sized (s : State) (hr : s.regionsInRange) (fuel : Nat) :
    runEngine decodeTick (fuel + (trailingPads s.input + 2)) (atStart s) =
      runEngine decodeTick fuel (s.atControl (.sized (trailingPads s.input))) := by
  have h1 : (atStart s).badSrc = false := hr.1
  have h2 : (atStart s).badDst = false := hr.2
  have h0 : decodeTick (atStart s) = .next (s.atControl (.prescan 0)) := by
    simp only [decodeTick, atStart_ctl, decodeStart, h1, h2]
    rfl
  rw [show fuel + (trailingPads s.input + 2) = fuel + (trailingPads s.input + 1) + 1 by omega, runEngine_step h0 rfl]
  exact runEngine_prescan (fun u k hu => by simp [decodeTick, hu]) s fuel

/-- A DEC_LEN_STRIP with its region in range goes through its check and its pre-scan to the control point `sized`. -/
theorem runEngine_strip_sized (s : State) (hr : s.badSrc = false) (fuel : Nat) :
    runEngine decLenStripTick (fuel + (trailingPads s.input + 2)) (atStart s) =
      runEngine decLenStripTick fuel (s.atControl (.sized (trailingPads s.input))) := by
  have h1 : (atStart s).badSrc = false := hr
  have h0 : decLenStripTick (atStart s) = .next (s.atControl (.prescan 0)) := by
    simp only [decLenStripTick, atStart_ctl, h1]
    rfl
  rw [show fuel + (trailingPads s.input + 2) = fuel + (trailingPads s.input + 1) + 1 by omega, runEngine_step h0 rfl]
  exact runEngine_prescan (fun u k hu => by simp [decLenStripTick, hu]) s fuel

end Sys2Proof.Machine
end

