-- ==== Sys2Proof/Laws/Loops.lean ====
section
/-! SUPPORT. The main passes of ENCODE and DECODE: what holds at every step of them, and that every step goes on towards the end. -/

namespace Sys2Proof.Machine

/-- Writing a byte of a region keeps every byte outside it. -/
theorem KeepsOutside.write {start m m' : Nat} {before now : Memory} (h : KeepsOutside start m before now) (hle : m ≤ m') {a : Nat}
    (v : Byte) (ha : start ≤ a ∧ a < start + m') : KeepsOutside start m' before (now.write a v) := by
  intro b hb
  rw [inRegion_eq_false] at hb
  rw [Memory.read_write_other (by omega)]
  exact h b (inRegion_eq_false.mpr (by omega))

theorem KeepsOutside.mono {start m m' : Nat} {before now : Memory} (h : KeepsOutside start m before now) (hle : m ≤ m') :
    KeepsOutside start m' before now := fun b hb =>
  h b (inRegion_eq_false.mpr (by rw [inRegion_eq_false] at hb; omega))

/-- A write of the engine keeps every byte outside the region it counts, and every byte outside the destination region. -/
theorem KeepsOutside.emit {s u : State} (hu : CommandFrame s u) (h : KeepsOutside s.dst (min u.outPos s.cap) s.mem u.mem) (v : Byte) :
    KeepsOutside s.dst (min (Machine.emit v u).outPos s.cap) s.mem (Machine.emit v u).mem := by
  obtain ⟨-, -, hdst, hcap⟩ := hu.operands
  rw [emit_mem, emit_outPos, hdst, hcap]
  split
  · exact h.write (by omega) v (by omega)
  · exact h.mono (by omega)

theorem KeepsOutside.refl (start m : Nat) (mem : Memory) : KeepsOutside start m mem mem := fun _ _ => rfl

/-- What holds along the main pass of an ENCODE that started in s: its frame, its bounds, and the bits it has moved, until the
last symbol and the pad bytes. -/
structure EncodeLoop (s u : State) : Prop where
  frame : CommandFrame s u
  phase : u.phase = .run
  ctl : u.ctl = .main
  inPos : u.inPos ≤ s.len
  held : u.acc.held < 8 + s.config.chunkBits
  bits : u.outPos * s.config.chunkBits + u.acc.held = 8 * u.inPos ∨
    (u.inPos = s.len ∧ u.acc.held = 0 ∧ encodedLen s.config.toParams s.len ≤ u.outPos ∧
      u.outPos ≤ encodedLenPadded s.config.toParams s.len)
  mem : KeepsOutside s.dst (min u.outPos s.cap) s.mem u.mem

/-- The start of the main pass. -/
theorem EncodeLoop.start (s : State) :
    EncodeLoop s (startMain (atStart s)) where
  frame := by constructor <;> rfl
  phase := rfl
  ctl := rfl
  inPos := Nat.zero_le _
  held := by have := s.config.chunkBits_ge; show 0 < _; omega
  bits := .inl (by show 0 * _ + 0 = 8 * 0; omega)
  mem := KeepsOutside.refl _ _ _

/-- encodedLen and encodedLenPadded between multiples: what the counts of the main pass need. -/
theorem encodedLen_bounds (c : Config) (n : Nat) :
    8 * n ≤ encodedLen c.toParams n * c.chunkBits ∧ encodedLen c.toParams n * c.chunkBits < 8 * n + c.chunkBits ∧
      encodedLen c.toParams n ≤ encodedLenPadded c.toParams n ∧
      (c.padEn = false → encodedLenPadded c.toParams n = encodedLen c.toParams n) ∧
      (c.padEn = true → encodedLenPadded c.toParams n % padAlign = 0 ∧
        encodedLenPadded c.toParams n < encodedLen c.toParams n + padAlign) := by
  have hk : 8 * n ≤ encodedLen c.toParams n * c.chunkBits ∧
      encodedLen c.toParams n * c.chunkBits < 8 * n + c.chunkBits := by
    unfold encodedLen ceilDiv
    rcases c.radix_cases with ⟨-, h⟩ | ⟨-, h⟩ | ⟨-, h⟩ <;> rw [h] <;> omega
  refine ⟨hk.1, hk.2, ?_, ?_, ?_⟩
  · unfold encodedLenPadded roundUp ceilDiv padAlign
    split <;> omega
  · intro h
    simp [encodedLenPadded, h]
  · intro h
    simp only [encodedLenPadded, h, if_true, roundUp, ceilDiv, padAlign]
    omega

/-- One step of the main pass of an ENCODE: it completes with the required size, or goes on with less left to read and write. -/
theorem encodeMain_loop {s u : State} (hu : EncodeLoop s u) :
    (encodeMain u = finish (encodedLenPadded s.config.toParams s.len) u ∧
      u.outPos = encodedLenPadded s.config.toParams s.len ∧ u.inPos = s.len) ∨
    EncodeLoop s (encodeMain u) ∧
      (s.len - (encodeMain u).inPos) +
          (encodedLenPadded s.config.toParams s.len - (encodeMain u).outPos) <
        (s.len - u.inPos) + (encodedLenPadded s.config.toParams s.len - u.outPos) := by
  obtain ⟨hfr, hph, hctl, hin, hheld, hbits, hmem⟩ := hu
  obtain ⟨hsrc, hlen, hdst, -⟩ := hfr.operands
  have hcfg := hfr.config
  obtain ⟨b1, b2, b3, b4, b5⟩ := encodedLen_bounds s.config s.len
  have kge := s.config.chunkBits_ge
  generalize hreq : encodedLenPadded s.config.toParams s.len = req at *
  generalize hL : encodedLen s.config.toParams s.len = L at *
  -- a write at the cursor, below the required size
  have write : ∀ (v : Byte) (a : Acc), a.held < 8 + s.config.chunkBits → u.outPos < req →
      ((u.outPos + 1) * s.config.chunkBits + a.held = 8 * u.inPos ∨ (u.inPos = s.len ∧ a.held = 0 ∧ L ≤ u.outPos + 1)) →
      EncodeLoop s (emit v { u with acc := a }) ∧
        (s.len - (emit v { u with acc := a }).inPos) + (req - (emit v { u with acc := a }).outPos) <
          (s.len - u.inPos) + (req - u.outPos) := by
    intro v a ha hlt hb
    have ho : (emit v { u with acc := a }).outPos = u.outPos + 1 := rfl
    have hf : CommandFrame s { u with acc := a } := hfr.trans (by constructor <;> rfl)
    constructor
    · constructor
      · exact hf.trans (emit_frame v _)
      · simpa using hph
      · simpa using hctl
      · simpa using hin
      · simpa using ha
      · rw [ho]
        rcases hb with hb | ⟨h1, h2, h3⟩
        · exact .inl (by simpa using hb)
        · exact .inr ⟨by simpa using h1, by simpa using h2, by rw [hL]; exact h3, by rw [hreq]; exact hlt⟩
      · exact KeepsOutside.emit hf hmem v
    · rw [ho, emit_inPos]
      show s.len - u.inPos + _ < _
      omega
  -- how far the cursor has come when every input byte has been read
  have reached : u.acc.held < u.config.chunkBits → u.inPos = s.len → L ≤ u.outPos + 1 ∧ u.outPos ≤ req ∧ (u.acc.held = 0 → L ≤ u.outPos) ∧
      (0 < u.acc.held → u.outPos < L) := by
    intro hk hend
    rcases hbits with h | ⟨-, h0, h1, h2⟩
    · rw [hend] at h
      rw [hcfg] at hk
      have hup : u.outPos * s.config.chunkBits ≤ L * s.config.chunkBits := by omega
      have h4 := Nat.le_of_mul_le_mul_right hup (by omega)
      refine ⟨?_, by omega, fun h0 => ?_, fun h0 => ?_⟩
      · by_contra hlt
        have := Nat.mul_le_mul_right s.config.chunkBits (show u.outPos + 2 ≤ L by omega)
        rw [Nat.add_mul] at this
        omega
      · by_contra hlt
        have := Nat.mul_le_mul_right s.config.chunkBits (show u.outPos + 1 ≤ L by omega)
        rw [Nat.succ_mul] at this
        omega
      · by_contra hlt
        have := Nat.mul_le_mul_right s.config.chunkBits (show L ≤ u.outPos by omega)
        omega
    · exact ⟨by omega, h2, fun _ => h1, fun h => by omega⟩
  rcases encodeMain_cases u with ⟨hk, h⟩ | ⟨hk, hlt, h⟩ | ⟨hk, hend, hh, h⟩ | ⟨hk, hend, hh, hpad, hmod, h⟩ |
    ⟨hk, hend, hh, hdone, h⟩
  · rw [h]
    refine .inr (write _ _ ?_ ?_ (.inl ?_))
    · show u.acc.held - _ < _
      omega
    · have hb : u.outPos * s.config.chunkBits + u.acc.held = 8 * u.inPos := by
        rcases hbits with h | ⟨-, h, -⟩
        · exact h
        · rw [hcfg] at hk; omega
      have hmul : (u.outPos + 1) * s.config.chunkBits ≤ L * s.config.chunkBits := by rw [Nat.succ_mul]; rw [hcfg] at hk; omega
      have := Nat.le_of_mul_le_mul_right hmul (by omega)
      omega
    · show _ + (u.acc.held - u.config.chunkBits) = _
      rw [hcfg] at hk ⊢
      rw [Nat.succ_mul]
      rcases hbits with h | ⟨-, h, -⟩
      · omega
      · omega
  · rw [h]
    rw [hlen] at hlt
    refine .inr ⟨⟨hfr.trans (by constructor <;> rfl), hph, hctl, hlt, ?_, .inl ?_, hmem⟩, ?_⟩
    · show u.acc.held + 8 < _
      rw [hcfg] at hk
      omega
    · show u.outPos * _ + (u.acc.held + 8) = 8 * (u.inPos + 1)
      rcases hbits with h | ⟨h, -, -⟩ <;> omega
    · show s.len - (u.inPos + 1) + (req - u.outPos) < _
      omega
  · rw [h]
    rw [hlen] at hend
    obtain ⟨h1, h2, -, h4⟩ := reached hk (by omega)
    refine .inr (write _ _ ?_ ?_ (.inr ⟨by omega, rfl, h1⟩))
    · show 0 < _
      omega
    · have := h4 hh
      omega
  · rw [h]
    rw [hlen] at hend
    obtain ⟨h1, h2, h3, -⟩ := reached hk (by omega)
    refine .inr (write padChar u.acc hheld ?_ (.inr ⟨by omega, hh, h1⟩))
    rcases Nat.lt_or_ge u.outPos req with h | h
    · exact h
    · have : u.outPos = req := by omega
      rw [this] at hmod
      rw [hcfg] at hpad
      exact absurd (b5 hpad).1 hmod
  · rw [hlen] at hend
    obtain ⟨h1, h2, h3, -⟩ := reached hk (by omega)
    have h3 := h3 hh
    have hdone : u.outPos = req := by
      rw [hcfg] at hdone
      cases hpad : s.config.padEn
      · have := b4 hpad
        omega
      · have h5 := b5 hpad
        rcases hdone with hp | hp
        · rw [hpad] at hp; cases hp
        · unfold padAlign at h5 hp
          omega
    exact .inl ⟨by rw [h, hdone], hdone, by omega⟩

/-- What holds along the main pass of a DECODE that started in s, up to its last step: its frame, its bounds, and the bits it has
moved. -/
structure DecodeLoop (s u : State) : Prop where
  frame : CommandFrame s u
  phase : u.phase = .run
  ctl : u.ctl = .main ∨ u.ctl = .stopped ∨ ∃ ch, u.ctl = .invalid ch
  inPos : u.inPos ≤ s.len
  beforeEnd : u.ctl ≠ .main → u.inPos < s.len ∧ u.acc.held < 8
  held : u.acc.held < 8 + s.config.chunkBits
  bits : u.outPos * 8 + u.acc.held = u.inPos * s.config.chunkBits
  mem : KeepsOutside s.dst (min u.outPos s.cap) s.mem u.mem

/-- The start of the main pass, after a pre-scan. -/
theorem DecodeLoop.start (s : State) (c : ControlPoint) : DecodeLoop s (startMain (s.atControl c)) where
  frame := by constructor <;> rfl
  phase := rfl
  ctl := .inl rfl
  inPos := Nat.zero_le _
  beforeEnd := fun h => absurd rfl h
  held := by have := s.config.chunkBits_ge; show 0 < _; omega
  bits := by show 0 * 8 + 0 = 0 * _; omega
  mem := KeepsOutside.refl _ _ _

/-- How a DECODE in its main pass completes: at the end of its input or at the pad byte, or at a byte that is no symbol. -/
def DecodeEnds (s u : State) (o : Outcome) : Prop :=
  (o = .next (finish u.outPos u) ∧ (u.inPos = s.len ∨ u.ctl = .stopped)) ∨
    ∃ ch, o = .next (raise (.invalidSymbol u.inPos ch) u) ∧ u.ctl = .invalid ch

/-- What is left to do in the main pass of a DECODE: characters to read, bytes to take, and the step after a stop. -/
def decodeLeft (s u : State) : Nat :=
  (s.len - u.inPos) + (decodedLen s.config.toParams s.len - (u.inPos * s.config.chunkBits - u.acc.held) / 8) +
    if u.ctl = .main then 1 else 0

/-- One step of the main pass of a DECODE: it completes, or goes on with less left to do. -/
theorem decodeTick_loop {s u : State} (hu : DecodeLoop s u) :
    (DecodeEnds s u (decodeTick u) ∧ u.acc.held < 8) ∨
      ∃ t, decodeTick u = .next t ∧ DecodeLoop s t ∧ decodeLeft s t < decodeLeft s u := by
  obtain ⟨hfr, hph, hctl, hin, hbe, hheld, hk8, hmem⟩ := hu
  obtain ⟨hsrc, hlen, hdst, -⟩ := hfr.operands
  have hcfg := hfr.config
  have kge := s.config.chunkBits_ge
  rcases hctl with hctl | hctl | ⟨ch, hctl⟩
  · have htick : decodeTick u = .next (decodeMain u) := by simp only [decodeTick, hctl]
    rw [htick]
    rcases decodeMain_cases u with ⟨hk, h⟩ | ⟨hk, hlt, h⟩ | ⟨hk, hend, h⟩
    · refine .inr ⟨_, rfl, ?_, ?_⟩ <;> rw [h]
      · constructor
        · exact hfr.trans (CommandFrame.trans (t := { u with acc := u.acc.taken 8 }) (by constructor <;> rfl) (emit_frame _ _))
        · simpa using hph
        · exact .inl (by simpa using hctl)
        · simpa using hin
        · exact fun hne => absurd (by simpa using hctl) hne
        · rw [emit_acc]
          show u.acc.held - 8 < _
          omega
        · rw [emit_acc, emit_inPos, emit_outPos]
          show (u.outPos + 1) * 8 + (u.acc.held - 8) = u.inPos * _
          omega
        · exact KeepsOutside.emit (u := { u with acc := u.acc.taken 8 }) (hfr.trans (by constructor <;> rfl)) hmem _
      · have hle : u.inPos * s.config.chunkBits ≤ s.len * s.config.chunkBits := Nat.mul_le_mul_right _ hin
        unfold decodeLeft decodedLen
        rw [emit_inPos, emit_acc, emit_ctl]
        show s.len - u.inPos + (_ - (u.inPos * s.config.chunkBits - (u.acc.held - 8)) / 8) + (if u.ctl = .main then 1 else 0) < _
        rw [hctl, ← hk8]
        omega
    · rw [hlen] at hlt
      have hleft : ∀ t : State, t.inPos = u.inPos → t.acc = u.acc → t.ctl ≠ .main →
          decodeLeft s t < decodeLeft s u := by
        intro t h1 h2 h3
        unfold decodeLeft
        rw [h1, h2, if_neg h3, if_pos hctl]
        omega
      refine .inr ⟨_, rfl, ?_⟩
      rw [h]
      have hf := hfr.trans (decodeChar_frame u (u.mem.read (u.src + u.inPos)))
      rcases decodeChar_cases u (u.mem.read (u.src + u.inPos)) with ⟨-, -, hc⟩ | ⟨-, -, hc⟩ | ⟨-, v, -, hc⟩ <;> rw [hc] at hf ⊢
      · exact ⟨⟨hf, hph, .inr (.inl rfl), hin, fun _ => ⟨hlt, hk⟩, hheld, hk8, hmem⟩,
          hleft _ rfl rfl ControlPoint.noConfusion⟩
      · exact ⟨⟨hf, hph, .inr (.inr ⟨_, rfl⟩), hin, fun _ => ⟨hlt, hk⟩, hheld, hk8, hmem⟩,
          hleft _ rfl rfl ControlPoint.noConfusion⟩
      · refine ⟨⟨hf, hph, .inl hctl, hlt, fun h' => absurd hctl h', ?_, ?_, hmem⟩, ?_⟩
        · show u.acc.held + u.config.chunkBits < _
          rw [hcfg]
          omega
        · show u.outPos * 8 + (u.acc.held + u.config.chunkBits) = (u.inPos + 1) * _
          rw [hcfg, Nat.succ_mul]
          omega
        · unfold decodeLeft
          show s.len - (u.inPos + 1) + (_ - ((u.inPos + 1) * s.config.chunkBits - (u.acc.held + u.config.chunkBits)) / 8) +
            (if u.ctl = .main then 1 else 0) < _
          rw [hcfg, Nat.succ_mul, Nat.add_sub_add_right]
          omega
    · rw [hlen] at hend
      exact .inl ⟨.inl ⟨by rw [h], .inl (by omega)⟩, hk⟩
  · have h8 := (hbe (by rw [hctl]; exact ControlPoint.noConfusion)).2
    exact .inl ⟨.inl ⟨by simp only [decodeTick, hctl], .inr hctl⟩, h8⟩
  · have h8 := (hbe (by rw [hctl]; exact ControlPoint.noConfusion)).2
    exact .inl ⟨.inr ⟨ch, by simp only [decodeTick, hctl], hctl⟩, h8⟩

end Sys2Proof.Machine
end

