-- ==== Sys2Proof/Laws/PerInstr.lean ====
section
/-! SUPPORT. Statements about every command as syntax, one lemma per constructor (LAWS.json). -/

open Sys2Proof

namespace Sys2Proof.Laws.LegalWord

/-- The command is well formed, and its word is one that 30_encoding.md R82 calls legal: RSV = 0, and OPCODE, alone in the word,
between 1 and 8. -/
def Statement (i : Instr) : Prop :=
  i.wf = true ∧ legalWord (encode i) = true ∧ (encode i).toNat = i.opcode.toNat ∧ 1 ≤ (encode i).toNat ∧ (encode i).toNat ≤ 8

theorem encode : Statement .encode := by unfold Statement; decide
theorem decode : Statement .decode := by unfold Statement; decide
theorem encLen : Statement .encLen := by unfold Statement; decide
theorem encLenPad : Statement .encLenPad := by unfold Statement; decide
theorem decLen : Statement .decLen := by unfold Statement; decide
theorem decLenStrip : Statement .decLenStrip := by unfold Statement; decide
theorem decodeByte : Statement .decodeByte := by unfold Statement; decide
theorem symbolAt : Statement .symbolAt := by unfold Statement; decide

end Sys2Proof.Laws.LegalWord
end

