-- ==== Sys2Proof/Tests/Slice0.lean ====
section
/-! SUPPORT. The model's own tests. Expected values come from the spec: the encodings of 30_encoding.md R82, the vectors of
95_test_vectors.md (cited as L1, L2), and hand calculation from the rules cited. After them, one witness for each statement that has
hypotheses: concrete states that meet them, clause by clause, at boundary values. -/

namespace Sys2Proof.Tests

open Sys2Proof Sys2Proof.Machine

/-! ### Helpers -/

/-- The parameters of a preset, with AW = 32. -/
def paramsOf (id : Preset) (st : Strategy := .lut) (w : Nat := 16) (base : Nat := 0) : Params :=
  (presetParams id st alphabetHumanDefault 32 w base).getD defaultConfig.toParams

/-! Configurations in effect. -/

def base16 : Config := ⟨paramsOf .base16, by decide⟩
def base16Linear : Config := ⟨paramsOf .base16 .linear, by decide⟩
def base16Narrow : Config := ⟨paramsOf .base16 .lut 13, by decide⟩
def base16At1000 : Config := ⟨paramsOf .base16 .lut 16 0x1000, by decide⟩
def base32 : Config := ⟨paramsOf .base32, by decide⟩
def base32Pad : Config := ⟨paramsOf .base32Pad, by decide⟩
def base32Human : Config := ⟨paramsOf .base32Human, by decide⟩
def base32HumanLinear : Config := ⟨paramsOf .base32Human .linear, by decide⟩
def base64 : Config := ⟨paramsOf .base64, by decide⟩
def base64Pad : Config := ⟨paramsOf .base64Pad, by decide⟩

/-- The bytes of an ASCII text. -/
def ascii (text : String) : List Byte := text.toList.map fun ch => BitVec.ofNat 8 ch.toNat

/-- A memory with the bytes given placed from address a. -/
def placed (a : Nat) : List Byte → Memory → Memory
  | [], m => m
  | b :: bs, m => placed (a + 1) bs (m.write a b)

/-- An idle block with the operands given and the input placed at src. -/
def block (c : Config) (input : List Byte) (src n dst cap : Nat) : State :=
  { State.resetWith c with
    srcAddr := BitVec.ofNat 32 src, srcLen := BitVec.ofNat 32 n, dstAddr := BitVec.ofNat 32 dst, dstCap := BitVec.ofNat 32 cap
    mem := placed src input [] }

/-- An idle block with the input at 0x100 and the destination at 0x200, cap bytes wide. -/
def blockOf (c : Config) (input : List Byte) (cap : Nat) : State := block c input 0x100 input.length 0x200 cap

/-- A block whose command takes one operand, in SRC_LEN. -/
def operand (c : Config) (v : Nat) : State := block c [] 0 v 0 0

/-- The state after one step, for one that gives a next state. -/
def after (o : Outcome) : Option State :=
  match o with
  | .next t => some t
  | .fault _ => none
  | .refused _ => none

/-- What the next step of s with w as its command line leaves: STATUS, RESULT and ERR_INFO. -/
def outcome (s : State) (w : Nat) : Option (Nat × Nat × Nat) :=
  (after (step (s.withFetchWord 32 w))).map fun t =>
    (t.status.word.toNat, t.resultHi.toNat * 2 ^ 32 + t.resultLo.toNat, t.errInfo.toNat)

/-- The n bytes at 0x200 after that step. -/
def output (s : State) (w n : Nat) : Option (List Byte) :=
  (after (step (s.withFetchWord 32 w))).map fun t => t.mem.bytes 0x200 n

/-- Whether an outcome is a next state. -/
def isNext (o : Outcome) : Bool :=
  match o with
  | .next _ => true
  | .fault _ => false
  | .refused _ => false

theorem exists_next {o : Outcome} (h : isNext o = true) : ∃ t, o = .next t := by
  cases o with
  | next t => exact ⟨t, rfl⟩
  | fault r => exact absurd h Bool.false_ne_true
  | refused r => exact absurd h Bool.false_ne_true

/-! ### Well-formedness: each check refuses an ill-formed term -/

/-- V1: RADIX 8 and K = 3; RADIX 16 with K = 5. -/
theorem test_refuses_radix :
    { paramsOf .base16 with radix := 8, chunkBits := 3 }.radixOk = false ∧
      { paramsOf .base16 with chunkBits := 5 }.valid = false := by decide

/-- V2: an alphabet of 15 entries. -/
theorem test_refuses_alphabet_length : { paramsOf .base16 with alpha := alphabetBase16.take 15 }.alphaLengthOk = false := by decide

/-- V3: an alphabet with '0' twice. -/
theorem test_refuses_repeated_entry : { paramsOf .base16 with alpha := 0x30 :: alphabetBase16.take 15 }.alphaDistinct = false := by
  decide

/-- V4: an entry 0x20, and an alias byte 0x7F. -/
theorem test_refuses_unprintable :
    { paramsOf .base16 with alpha := 0x20 :: alphabetBase16.drop 1 }.printableOk = false ∧
      { paramsOf .base16 with aliases := [(0x30, 0x7F)] }.printableOk = false := by decide

/-- V5: the pad byte as an entry, though PAD_EN = 0, and as an alias. -/
theorem test_refuses_pad_byte :
    { paramsOf .base16 with alpha := 0x3D :: alphabetBase16.drop 1 }.noPadByte = false ∧
      { paramsOf .base16 with aliases := [(0x30, 0x3D)] }.noPadByte = false := by decide

/-- V6: an alias of a byte that is no entry. -/
theorem test_refuses_foreign_alias : { paramsOf .base16 with aliases := [(0x5A, 0x5B)] }.aliasesCanonical = false := by decide

/-- V7: a lower-case entry in a case-insensitive configuration; it is fine in a case-sensitive one. -/
theorem test_refuses_lower_case :
    { paramsOf .base64 with caseSens := false }.noLowerCase = false ∧ (paramsOf .base64).noLowerCase = true := by decide

/-- V8: an alias byte that is another symbol's entry, and one alias byte for two symbols. -/
theorem test_refuses_shared_byte :
    { paramsOf .base16 with aliases := [(0x30, 0x31)] }.acceptedDisjoint = false ∧
      { paramsOf .base16 with aliases := [(0x30, 0x5A), (0x31, 0x5A)] }.acceptedDisjoint = false := by decide

/-- W = 12 is too narrow. -/
theorem test_refuses_narrow_accumulator : { paramsOf .base16 with accWidth := 12 }.accWidthOk = false := by decide

/-- A command word with RSV != 0, or with OPCODE 0, 9 or 15, is ill formed. -/
theorem test_refuses_words :
    rsvZero 0x00000011 = false ∧ opcodeDefined 0x00000000 = false ∧ opcodeDefined 0x00000009 = false ∧
      legalWord 0x0000000F = false ∧ legalWord 0x80000001 = false := by decide

/-! ### Decoding, by words written out from 30_encoding.md R82 -/

theorem test_decode_encode : decodeTableWord 32 0b00000000000000000000000000000001 = some .encode := by decide
theorem test_decode_decode : decodeTableWord 32 0b00000000000000000000000000000010 = some .decode := by decide
theorem test_decode_enc_len : decodeTableWord 32 0b00000000000000000000000000000011 = some .encLen := by decide
theorem test_decode_enc_len_pad : decodeTableWord 32 0b00000000000000000000000000000100 = some .encLenPad := by decide
theorem test_decode_dec_len : decodeTableWord 32 0b00000000000000000000000000000101 = some .decLen := by decide
theorem test_decode_dec_len_strip : decodeTableWord 32 0b00000000000000000000000000000110 = some .decLenStrip := by decide
theorem test_decode_decode_byte : decodeTableWord 32 0b00000000000000000000000000000111 = some .decodeByte := by decide
theorem test_decode_symbol_at : decodeTableWord 32 0b00000000000000000000000000001000 = some .symbolAt := by decide

/-- 30_encoding.md R83, R84. -/
theorem test_decode_rejects :
    [0x0, 0x9, 0xF, 0x11, 0x80000001].map (decodeTableWord 32) = [none, none, none, none, none] := by decide

/-! ### Commands, by the vectors of 95_test_vectors.md -/

/-- L2.6: every illegal word gives STATUS 0x34. -/
theorem test_illegal_words :
    [0x0, 0x9, 0xF, 0x11, 0x80000001].map (outcome (operand base64 11)) = List.replicate 5 (some (0x34, 0, 0)) := by decide

/-- L1 row 3, BASE32_PAD. -/
theorem test_encode_padded :
    output (blockOf base32Pad (ascii "hello world") 24) 0x1 25 = some (ascii "NBSWY3DPEB3W64TMMQ======" ++ [0]) := by
  decide

/-- L2.2: BASE64_PAD pads `f` to 8, not to 4. -/
theorem test_encode_pads_to_eight :
    outcome (blockOf base64Pad (ascii "f") 8) 0x1 = some (0x02, 8, 0) ∧
      output (blockOf base64Pad (ascii "f") 8) 0x1 8 = some (ascii "Zg======") := by decide

/-- L1 row 5: lower case in BASE16, LINEAR. -/
theorem test_decode_folds_case :
    output (blockOf base16Linear (ascii "68656c6c6f") 5) 0x2 6 = some (ascii "hello" ++ [0]) := by decide

/-- L2.4: BASE32_PAD `NB=!!` stops at the pad byte; BASE64 `aA==` fails on it. -/
theorem test_decode_pad_byte :
    outcome (blockOf base32Pad (ascii "NB=!!") 3) 0x2 = some (0x02, 1, 0) ∧
      outcome (blockOf base64 (ascii "aA==") 1) 0x2 = some (0x14, 2, 0x3D) := by decide

/-- L2.5, 0xFFFFFFFF and K = 4. -/
theorem test_enc_len : outcome (operand base16 0xFFFFFFFF) 0x3 = some (0x02, 0x1FFFFFFFE, 0) := by decide

/-- L2.5, n = 12 and K = 6, PAD_EN = 1 and 0. -/
theorem test_enc_len_pad :
    outcome (operand base64Pad 12) 0x4 = some (0x02, 16, 0) ∧
      outcome (operand base32 11) 0x4 = some (0x02, 18, 0) := by decide

/-- L2.5, n = 9 and K = 5. -/
theorem test_dec_len : outcome (operand base32 9) 0x5 = some (0x02, 5, 0) := by decide

/-- L2.5: DEC_LEN_STRIP of `AB=C` counts no pad byte, of `MZXW6===` three. -/
theorem test_dec_len_strip :
    outcome (blockOf base32Pad (ascii "AB=C") 0) 0x6 = some (0x02, 2, 0) ∧
      outcome (blockOf base32Pad (ascii "MZXW6===") 0) 0x6 = some (0x02, 3, 0) := by decide

/-- L2.1: an alias and its lower-case form; only bits [7:0] of SRC_LEN are used. -/
theorem test_decode_byte :
    [0x4F, 0x6F, 0x69, 0x55].map (fun v => outcome (operand base32Human v) 0x7) =
        [some (0x02, 0x100, 0), some (0x02, 0x100, 0), some (0x02, 0x101, 0), some (0x02, 0, 0)] ∧
      outcome (operand base64 0x141) 0x7 = some (0x02, 0x100, 0) := by decide

/-- L2.1: the last index, and the first that is out of range. -/
theorem test_symbol_at :
    outcome (operand base64 63) 0x8 = some (0x02, 0x2F, 0) ∧
      outcome (operand base64 64) 0x8 = some (0x44, 0, 0) := by decide

/-- L2.2: ADDRESS_RANGE for each region and both. -/
theorem test_address_range :
    outcome (block base16 [] 0xFFFFFFF8 16 0 64) 0x1 = some (0x54, 0, 1) ∧
      outcome (block base16 [] 0 1 0xFFFFFFFF 2) 0x1 = some (0x54, 0, 2) ∧
      outcome (block base16 [] 0xFFFFFFFF 2 0xFFFFFFFF 2) 0x2 = some (0x54, 0, 3) := by decide

/-- L2.2: NOT_ENOUGH_SPACE, a RESULT of 33 bits, without any access; L2.4: the space is checked before the symbols. -/
theorem test_not_enough_space :
    outcome (block base16 [] 0 0xFFFFFFFF 0 0) 0x1 = some (0x24, 0x1FFFFFFFE, 0) ∧
      outcome (blockOf base64 (ascii "!!!") 1) 0x2 = some (0x24, 2, 0) := by decide

/-- L2.3: ACC of a BASE64 DECODE of `Zm8` before the second byte is taken: a push that drops a bit at W = 16. -/
theorem test_accumulator_trace :
    Acc.push 16 60 6 (Acc.taken 8 (Acc.push 16 38 6 (Acc.push 16 25 6 ⟨0, 0⟩))) = ⟨0x99BC, 10⟩ ∧
      Acc.takeValue 8 ⟨0x99BC, 10⟩ = 0x6F := by decide

/-- L2.6, the CFG values. -/
theorem test_cfg_words :
    [cfgWord (paramsOf .base16), cfgWord (paramsOf .base16 .linear), cfgWord (paramsOf .base32), cfgWord (paramsOf .base32Pad),
      cfgWord (paramsOf .base32Hex), cfgWord (paramsOf .base32Human), cfgWord (paramsOf .base64), cfgWord (paramsOf .base64Pad)] =
    [0x004, 0x024, 0x115, 0x21D, 0x315, 0x445, 0x516, 0x61E] := by decide

/-- 40_lookup.md R105, by hand: the entries that its construction order sets for '0', its alias 'o', 'z', and leaves for '=' and 'U'. -/
theorem test_lut_built :
    [0x30, 0x6F, 0x7A, 0x3D, 0x55].map (fun b => (lutBuilt (paramsOf .base32Human)).getD b 1) = [64, 64, 95, 0, 0] := by decide

/-- 42_decode.md R152, 20_memory.md R69, by hand: a DECODE of `QUFB====` (that is, of `AAA`) with its output over its own trailing
pad bytes and a capacity of 5. The scan reads the three bytes `AAA` it has written there as symbols, writes two zero bytes for them,
the first over the last pad byte, and meets that zero at offset 7, with floor(7 * 6 / 8) = 5 bytes written. -/
theorem test_overlapping_decode :
    ∀ c ∈ [base64, base64Pad],
      let s := block c (ascii "QUFB====") 0x100 8 0x104 5
      outcome s 0x2 = some (0x14, 7, 0) ∧
        (after (step (s.withFetchWord 32 0x2))).map (fun t => (t.outPos, t.mem.bytes 0x100 9)) =
          some (5, ascii "QUFBAAA" ++ [0, 0]) := by
  decide

/-- 20_memory.md R68, R69 and log 9, by hand: the same DECODE in the last 8 bytes of memory with a capacity of 3. The fourth and the
fifth byte have no place in the destination region, so the last pad byte stands: it stops the scan when PAD_EN = 1 and is an invalid
symbol when PAD_EN = 0. -/
theorem test_overlapping_decode_bounded :
    ∀ f ∈ [(base64, (0x14, 7, 0x3D)), (base64Pad, (0x02, 5, 0))],
      let s := block f.1 (ascii "QUFB====") 0xFFFFFFF8 8 0xFFFFFFFC 3
      outcome s 0x2 = some f.2 ∧
        (after (step (s.withFetchWord 32 0x2))).map (fun t => (t.outPos, t.mem.bytes 0xFFFFFFF8 9)) =
          some (5, ascii "QUFBAAA=" ++ [0]) := by
  decide

/-! ### Witnesses -/

/-- A block in which the command i has been accepted. -/
def running (i : Instr) (s : State) : State := accept (encode i) s

/-- The state s with the events given pending. -/
def pending (es : List Event) (s : State) : State := { s with events := es }

/-- A small ENCODE: one byte of BASE16 from 0x100 to 0x200. -/
def small : State := blockOf base16 (ascii "f") 2

/-- The same as a running command. -/
def smallRunning : State := running .encode small

/-- The invariant of a concrete state, part by part: idle, at the start of a command, or in the main pass of ENCODE or
DECODE. -/
theorem inv_of {s : State} (h : s.mem.wf ∧ (∀ c ∈ s.mem, c.1 < 2 ^ s.config.aw) ∧
    (s.phase = .run ↔ s.status.busy = true) ∧
    ((¬(s.status.busy = true ∧ s.status.done = true) ∧ ¬(s.status.busy = true ∧ s.status.err = true) ∧
      ¬(s.status.done = true ∧ s.status.err = true)) ∧ (s.status.err = true ↔ s.status.errCode ≠ 0)) ∧
    s.status.errCode.toNat ≤ 5 ∧ (s.phase = .run → s.op = opcodeField s.cmd) ∧ s.acc.held < 8 + s.config.chunkBits ∧
    s.acc.buf < 2 ^ s.config.accWidth ∧ s.inPos ≤ 2 ^ s.config.aw ∧ s.outPos ≤ 2 ^ s.config.aw)
    (hctl : s.ctl = .start ∨ (s.ctl = .main ∧ (s.badSrc = false ∧ s.badDst = false) ∧ s.inPos ≤ s.len) ∧
      ((encodedLenPadded s.config.toParams s.len ≤ s.cap ∧ s.outPos * s.config.chunkBits + s.acc.held = 8 * s.inPos) ∧
          s.running = .ok .encode ∨
        s.outPos * 8 + s.acc.held = s.inPos * s.config.chunkBits ∧ s.running = .ok .decode)) : s.Inv := by
  obtain ⟨h1, h2, h3, ⟨h4, h5⟩, h6, h7, h8, h9, h10, h11⟩ := h
  refine ⟨h1, h2, h3, h4, h5, h6, h7, h8, h9, h10, h11, fun _ t ht => ?_, fun _ ht => ?_, fun _ hi ht => ?_,
    fun _ hi ht => ?_⟩ <;>
    rcases hctl with hctl | ⟨⟨hctl, hreg, hin⟩, hrun⟩ <;> rw [hctl] at ht
  · rcases ht with ht | ht <;> cases ht
  · rcases ht with ht | ht <;> cases ht
  · cases ht
  · exact ⟨hreg, hin⟩
  · cases ht
  · rcases hrun with ⟨⟨hq, hb⟩, -⟩ | ⟨-, hrun⟩
    · exact ⟨hq, .inl hb⟩
    · rw [hrun] at hi
      cases hi
  · cases ht
  · rcases hrun with ⟨-, hrun⟩ | ⟨hb, -⟩
    · rw [hrun] at hi
      cases hi
    · exact hb

/-- Two regions with an address between them have no byte in common. -/
theorem disjoint_of {s : State} (h : s.src + s.len ≤ s.dst ∨ s.dst + s.cap ≤ s.src) : s.regionsDisjoint := by
  intro a ha
  rw [inRegion_iff, inRegion_iff] at ha
  omega

theorem witness_RejectionNamesItsCause :
    (0x00000011 : Word).extractLsb' 4 28 ≠ 0 ∧ (0x80000000 : Word).extractLsb' 4 28 ≠ 0 ∧
      ∀ w ∈ [(0x0 : Word), 0x9, 0xF], w.extractLsb' 4 28 = 0 ∧
        ((w.extractLsb' 0 4).toNat = 0 ∨ 9 ≤ (w.extractLsb' 0 4).toNat) :=
  ⟨by simp, by simp, by simp⟩

theorem witness_StepRunsTheDecodedCommand :
    (pending [.run 1, .wait] small).events = .run 1 :: [.wait] ∧ (pending [.run 1, .wait] small).status.busy = false ∧
      decodeWord 1 = .ok .encode := by decide

theorem witness_IllegalWordCompletesWithIllegalCmd :
    (pending [.run 9] small).events = .run 9 :: [] ∧ (pending [.run 9] small).status.busy = false ∧
      (∀ i, (9 : Word) ≠ encode i) ∧ (∀ i, (0 : Word) ≠ encode i) ∧ ∀ i, (0x11 : Word) ≠ encode i := by
  refine ⟨rfl, rfl, ?_, ?_, ?_⟩ <;> (intro i; cases i <;> decide)

theorem witness_AcceptanceEffect :
    (pending [.regWrite 4 0x04 9] small).events = .regWrite 4 (small.config.base + 0x04) 9 :: [] ∧
      (pending [.regWrite 4 0x04 9] small).status.busy = false := by decide

theorem witness_CmdWriteWhileBusyIgnored :
    (pending [.regWrite 4 0x04 2] smallRunning).events = .regWrite 4 (smallRunning.config.base + 0x04) 2 :: [] ∧
      (pending [.run 2] smallRunning).events = .run 2 :: [] ∧ (pending [.run 2] smallRunning).status.busy = true := by decide

theorem witness_OperandRegisterWrites :
    (∀ offset ∈ [0x0C, 0x10, 0x14, 0x18],
      (pending [.regWrite 4 offset 0xFFFFFFFF] small).events =
          .regWrite 4 (small.config.base + offset) 0xFFFFFFFF :: [] ∧
        (pending [.regWrite 4 offset 0xFFFFFFFF] smallRunning).status.busy = true) ∧
      small.status.busy = false ∧ isNext (step (pending [.engine] smallRunning)) = true := by decide

theorem witness_UnmappedAndReadOnlyOffsets :
    (∀ k ∈ [10, 63], 0x28 ≤ 4 * k ∧ 4 * k < 0x100 ∧
      (pending [.regRead 4 (4 * k)] small).events = .regRead 4 (small.config.base + 4 * k) :: [] ∧
      (pending [.regWrite 4 (4 * k) 7] small).events = .regWrite 4 (small.config.base + 4 * k) 7 :: []) ∧
    ∀ offset ∈ [0x00, 0x08, 0x1C, 0x20, 0x24],
      (pending [.regWrite 4 offset 7] small).events = .regWrite 4 (small.config.base + offset) 7 :: [] := by decide

theorem witness_RegisterReadsWhileIdle :
    small.status.busy = false ∧ ∀ offset ∈ [0x00, 0x04, 0x08, 0x0C, 0x10, 0x14, 0x18, 0x1C, 0x20, 0x24],
      (pending [.regRead 4 offset] small).events = .regRead 4 (small.config.base + offset) :: [] := by decide

theorem witness_RegisterReadsWhileBusy :
    smallRunning.status.busy = true ∧ (pending [.regRead 4 0x08] smallRunning).Inv ∧
      ∀ offset ∈ [0x00, 0x04, 0x08, 0x0C, 0x10, 0x14, 0x18, 0x1C, 0x20, 0x24],
        (pending [.regRead 4 offset] smallRunning).events = .regRead 4 (smallRunning.config.base + offset) :: [] :=
  ⟨by decide, inv_of (by decide) (.inl rfl), by decide⟩

/-- A block whose window starts at 0x1000. -/
def based : State := State.resetWith base16At1000

theorem witness_CfgFields :
    isNext (step (pending [.reset] smallRunning)) = true ∧
      (presetParams .base64Pad .lut alphabetHumanDefault 32 16 0).isSome = true ∧
      (presetParams .base16 .linear alphabetHumanDefault 32 16 0).isSome = true := by decide

theorem witness_OnlyAlignedWordAccesses :
    (∀ f ∈ [(2, 0x1000), (8, 0x1000), (4, 0x1002), (1, 0x10FF)], (pending [.regRead f.1 f.2] based).events = .regRead f.1 f.2 :: [] ∧
      based.config.base ≤ f.2 ∧ f.2 < based.config.base + 0x100 ∧ (f.1 ≠ 4 ∨ (f.2 - based.config.base) % 4 ≠ 0)) ∧
    ∀ addr ∈ [0xFFC, 0x1100], (pending [.regWrite 4 addr 1] based).events = .regWrite 4 addr 1 :: [] ∧
      (addr < based.config.base ∨ based.config.base + 0x100 ≤ addr) := by decide

theorem witness_RegionHazardFaults :
    smallRunning.status.busy = true ∧
      (∀ a ∈ [0x100, 0x200, 0x201], a < 2 ^ smallRunning.config.aw ∧
        (pending [.memRead a] smallRunning).events = .memRead a :: [] ∧
        (pending [.memWrite a 1] smallRunning).events = .memWrite a 1 :: [] ∧
        ((smallRunning.srcAddr.toNat ≤ a ∧ a < smallRunning.srcAddr.toNat + smallRunning.srcLen.toNat) ∨
          (smallRunning.dstAddr.toNat ≤ a ∧ a < smallRunning.dstAddr.toNat + smallRunning.dstCap.toNat))) ∧
      (∀ a ∈ [0xFF, 0x101, 0x1FF, 0x202], a < 2 ^ smallRunning.config.aw ∧
        ¬(smallRunning.srcAddr.toNat ≤ a ∧ a < smallRunning.srcAddr.toNat + smallRunning.srcLen.toNat) ∧
        ¬(smallRunning.dstAddr.toNat ≤ a ∧ a < smallRunning.dstAddr.toNat + smallRunning.dstCap.toNat)) ∧
      small.status.busy = false ∧ 0xFFFFFFFF < 2 ^ small.config.aw := by decide

theorem witness_HostAddressBeyondMemoryFaults :
    2 ^ small.config.aw ≤ 0x100000000 ∧
      (pending [.memRead 0x100000000] small).events = .memRead 0x100000000 :: [] ∧
      (pending [.memWrite 0x100000000 1] small).events = .memWrite 0x100000000 1 :: [] := by decide

theorem witness_ResetValues : (pending [.reset, .wait] smallRunning).events = .reset :: [.wait] := by decide

theorem witness_ResetAbandonsTheCommand : (pending [.reset] smallRunning).events = .reset :: [] := by decide

/-- Parameters that fail one condition each, in the order V1 to V8 and W, and parameters that meet all of them. -/
theorem witness_ConstructionRefusesInvalid :
    (∀ p ∈ [{ paramsOf .base16 with chunkBits := 5 }, { paramsOf .base16 with alpha := alphabetBase16.take 15 },
        { paramsOf .base16 with alpha := 0x30 :: alphabetBase16.take 15 },
        { paramsOf .base16 with alpha := 0x20 :: alphabetBase16.drop 1 }, { paramsOf .base16 with aliases := [(0x30, 0x3D)] },
        { paramsOf .base16 with aliases := [(0x5A, 0x5B)] }, { paramsOf .base16 with aliases := [(0x30, 0x7A)] },
        { paramsOf .base16 with aliases := [(0x30, 0x31)] }, { paramsOf .base16 with accWidth := 12 }], ¬ValidParams p) ∧
      ValidParams (paramsOf .base16) := by
  refine ⟨?_, base16.validParams⟩
  simp only [List.forall_mem_cons]
  refine ⟨fun h => absurd h.v1 (by decide), fun h => absurd h.v2 (by decide), fun h => absurd h.v3 (by decide),
    fun h => absurd (h.v4 0x20 (.inl (by decide))) (by decide), fun h => h.v5 0x3D (.inr ⟨0x30, by decide⟩) rfl,
    fun h => absurd (h.v6 0x5A 0x5B (by decide)) (by decide),
    fun h => h.v7 rfl 0x7A (.inr ⟨0x30, by decide⟩) (by decide),
    fun h => h.v8 0 1 0x31 (by decide) (by decide) (by decide) (by decide) (by decide),
    fun h => absurd h.accWidth (by decide), by simp⟩

theorem witness_IdleBlockStays : small.phase = .idle ∧ small.events = [] := by decide

theorem witness_OutcomeStays :
    (pending [.regRead 4 0x1C] small).phase = .idle ∧ (pending [.regRead 4 0x1C] small).status.busy = false ∧
      isNext (step (pending [.regRead 4 0x1C] small)) = true ∧ isNext (step (pending [.reset] small)) = true ∧
      isNext (step (pending [.regWrite 4 0x04 1] small)) = true ∧ isNext (step (pending [.run 1] small)) = true := by decide

theorem witness_EncLenResult :
    (paramsOf .base16).chunkBits = 4 ∧ (paramsOf .base32).chunkBits = 5 ∧ (paramsOf .base64).chunkBits = 6 := by decide

theorem witness_EncLenPadResult :
    (paramsOf .base64).padEn = false ∧ (paramsOf .base32Pad).padEn = true ∧ (paramsOf .base32Pad).chunkBits = 5 ∧
      (paramsOf .base64Pad).padEn = true ∧ (paramsOf .base64Pad).chunkBits = 6 ∧
      { paramsOf .base16 with padEn := true }.padEn = true ∧ { paramsOf .base16 with padEn := true }.chunkBits = 4 := by decide

theorem witness_DecLenResult :
    (paramsOf .base16).chunkBits = 4 ∧ (paramsOf .base32).chunkBits = 5 ∧ (paramsOf .base64).chunkBits = 6 := by decide

/-- A region that ends at 2^AW, and one that ends a byte beyond. -/
theorem witness_DecLenStripResult :
    (block base64 [] 0xFFFFFFF8 8 0 0).srcAddr.toNat + (block base64 [] 0xFFFFFFF8 8 0 0).srcLen.toNat ≤
        2 ^ (block base64 [] 0xFFFFFFF8 8 0 0).config.aw ∧
      2 ^ (block base64 [] 0xFFFFFFF8 9 0 0).config.aw <
        (block base64 [] 0xFFFFFFF8 9 0 0).srcAddr.toNat +
          (block base64 [] 0xFFFFFFF8 9 0 0).srcLen.toNat := by decide

theorem witness_PaddedLengthAligned : (paramsOf .base64Pad).padEn = true ∧ (paramsOf .base64).padEn = false := by decide

theorem witness_SymbolAtResult :
    (operand base64 63).srcLen.toNat < (operand base64 63).config.radix ∧
      (operand base64 64).config.radix ≤ (operand base64 64).srcLen.toNat ∧
      (operand base64 0xFFFFFFFF).config.radix ≤ (operand base64 0xFFFFFFFF).srcLen.toNat := by decide

theorem witness_DecodeByteResult :
    decodeByte (operand base64 0x2F).config.toParams ((operand base64 0x2F).srcLen.extractLsb' 0 8) = some 63 ∧
      decodeByte (operand base64 0x13D).config.toParams ((operand base64 0x13D).srcLen.extractLsb' 0 8) =
        none := by decide

theorem witness_LookupRomContents :
    base32Human.strategy = .lut ∧ base32HumanLinear.strategy = .linear ∧
      decodeByte base32Human.toParams 0x7A = some 31 ∧ decodeByte base32Human.toParams 0xFF = none := by decide

theorem witness_StrategyIsInvisible :
    base16Linear.toParams = { small.config.toParams with strategy := .linear } := by decide

theorem witness_NeverAcceptedBytes :
    ∀ b ∈ [(0x80 : Byte), 0xFF, 0x00, 0x20, 0x7F, 0x3D], 0x80 ≤ b.toNat ∨ b.toNat ≤ 0x20 ∨ b = 0x7F ∨ b = 0x3D := by decide

theorem witness_AliasAndCaseEquivalence :
    (presetParams .base32Human .lut alphabetHumanDefault 32 16 0).isSome = true ∧ base32Human.caseSens = false ∧
      base64.caseSens = true := by decide

theorem witness_PresetLookupTables :
    ∀ id ∈ [Preset.base16, .base32, .base32Pad, .base32Hex, .base32Human, .base64, .base64Pad],
      (presetParams id .linear alphabetHumanDefault 0 0 0).isSome = true := by decide

theorem witness_PresetRowsAreValid :
    13 ≤ 13 ∧ (presetParams .base32Human .lut alphabetHumanDefault 0 13 0).isSome = true := by decide

theorem witness_AccumulatorOperations :
    255 < 2 ^ 8 ∧ (⟨0x1F, 5⟩ : Acc).held + 8 ≤ 13 ∧ 5 ≤ (⟨0x1FFF, 13⟩ : Acc).held ∧ (5 : Nat) ≤ (⟨0x1FFF, 5⟩ : Acc).held ∧
      (⟨0x1FFF, 0⟩ : Acc).held < 5 ∧ (⟨0x1FFF, 4⟩ : Acc).held < 5 := by decide

theorem witness_AccumulatorWidthIsInvisible :
    base16Narrow.toParams = { small.config.toParams with accWidth := 13 } := by decide

theorem witness_AddressRangeErrors :
    (∀ s ∈ [block base16 [] 0xFFFFFFFF 2 0 0, block base16 [] 0 0 0xFFFFFFFF 2],
      2 ^ s.config.aw < s.srcAddr.toNat + s.srcLen.toNat ∨ 2 ^ s.config.aw < s.dstAddr.toNat + s.dstCap.toNat) ∧
    2 ^ (block base16 [] 0xFFFFFFFF 2 0 0).config.aw <
      (block base16 [] 0xFFFFFFFF 2 0 0).srcAddr.toNat + (block base16 [] 0xFFFFFFFF 2 0 0).srcLen.toNat := by
  decide

/-- One byte short, and just enough. -/
theorem witness_EncodeSpaceCheck :
    (blockOf base16 (ascii "f") 1).regionsInRange ∧
      (blockOf base16 (ascii "f") 1).dstCap.toNat <
        encodedLenPadded base16.toParams (blockOf base16 (ascii "f") 1).srcLen.toNat ∧
      small.regionsInRange ∧ encodedLenPadded small.config.toParams small.srcLen.toNat ≤ small.dstCap.toNat := by
  unfold State.regionsInRange
  decide

/-- Regions that overlap: the output over the input, from its first byte. -/
def overlapping : State := block base32Pad (ascii "foo") 0x100 3 0x101 8

theorem witness_EncodeCountAndFrame :
    overlapping.regionsInRange ∧
      encodedLenPadded overlapping.config.toParams overlapping.srcLen.toNat ≤ overlapping.dstCap.toNat := by
  unfold State.regionsInRange
  decide

theorem witness_EncodeWritesItsPureForm :
    small.mem.wf ∧ small.regionsInRange ∧ encodedLenPadded small.config.toParams small.srcLen.toNat ≤ small.dstCap.toNat ∧
      small.regionsDisjoint :=
  ⟨by decide, by unfold State.regionsInRange; decide, by decide, disjoint_of (by decide)⟩

theorem witness_DecodeSpaceCheck :
    (blockOf base64 (ascii "!!!") 1).regionsInRange ∧
      (blockOf base64 (ascii "!!!") 1).dstCap.toNat <
        decodedLenStripped base64.toParams (blockOf base64 (ascii "!!!") 1).input := by
  unfold State.regionsInRange
  decide

/-- Disjoint regions, with an invalid byte; and the output over the input, from the same address. -/
theorem witness_DecodeWritesItsPureForm :
    ∀ s ∈ [blockOf base64 (ascii "aA==") 1, block base64Pad (ascii "Zm9v====") 0x100 8 0x100 3],
      s.mem.wf ∧ s.regionsInRange ∧ decodedLenStripped s.config.toParams s.input ≤ s.dstCap.toNat ∧ s.decodeReadsFirst := by
  intro s hs
  rcases List.mem_pair.mp hs with rfl | rfl
  · exact ⟨by decide, by unfold State.regionsInRange; decide, by decide, .inl (disjoint_of (by decide))⟩
  · exact ⟨by decide, by unfold State.regionsInRange; decide, by decide, .inr (by decide)⟩

/-- A success, an invalid symbol, a lack of space, and an overlap that the output reaches before the scan does. -/
theorem witness_DecodeFrame :
    ∀ s ∈ [blockOf base64 (ascii "Zm9v") 3, blockOf base64 (ascii "aA==") 1,
        blockOf base64 (ascii "!!!") 1, block base64 (ascii "QUFB====") 0x100 8 0x104 3],
      isNext (exec .decode s) = true := by decide

/-- A DECODE that meets its bound over its own input, one that keeps the premise of the second clause, and an ENCODE over its own
input. -/
theorem witness_DecodeWriteBound :
    isNext (exec .decode (block base64 (ascii "QUFB====") 0x100 8 0x104 3)) = true ∧
      isNext (exec .decode (block base64 (ascii "QUFB====") 0x100 8 0x100 3)) = true ∧
      (block base64 (ascii "QUFB====") 0x100 8 0x100 3).decodeReadsFirst ∧ isNext (exec .encode overlapping) = true :=
  ⟨by decide, by decide, .inr (by decide), by decide⟩

theorem witness_PadByteStopsOrFails :
    padChar ∉ ascii "Zm9v" ∧ base64Pad.padEn = true ∧ base64.padEn = false ∧
      ∀ ch ∈ ascii "Zm9v", decodeByte base64.toParams ch ≠ none := by decide

theorem witness_CaseFoldedTextsDecodeAlike : base16.caseSens = false ∧ base32Human.caseSens = false := by decide

theorem witness_InvariantKeptByEveryStep :
    (pending [.run 1] small).Inv ∧ (∃ t, step (pending [.run 1] small) = .next t) ∧
      smallRunning.Inv ∧ ∃ t, step smallRunning = .next t :=
  ⟨inv_of (by decide) (.inl rfl), exists_next (by decide), inv_of (by decide) (.inl rfl), exists_next (by decide)⟩

theorem witness_ConfigurationNeverChanges :
    isNext (step (pending [.reset] smallRunning)) = true ∧ isNext (step (pending [.regWrite 4 0 7] small)) = true := by decide

theorem witness_WhichCommandsUseMemory :
    isNext (exec .decLenStrip small) = true ∧ isNext (exec .encLen small) = true ∧
      Instr.encLen ∉ [Instr.encode, .decode, .decLenStrip] := by decide

/-- The small ENCODE before its first write: its byte read, its two symbols to come. -/
def smallWriting : State := { startMain smallRunning with inPos := 1, acc := ⟨0x66, 8⟩ }

/-- A DECODE over its own unread input, 16 turns after its acceptance: its destination region is full, and a fourth byte is ready. -/
def decodePastEnd : State :=
  { startMain (running .decode (block base64 (ascii "QUFBAAA=") 0x100 8 0x104 3)) with inPos := 6, outPos := 3, acc := ⟨0x1000, 12⟩ }

/-- Two turns of the small ENCODE lead to its first write, and the third writes a byte; the invariant holds before it, and BUSY = 1
after it. The invariant holds where a DECODE is past its destination region, and the next turn advances OUT_POS alone. -/
theorem witness_EngineStepWritesOneByte :
    after (turns 2 smallRunning) = some smallWriting ∧ smallWriting.Inv ∧
      (after (engineTurn smallWriting)).map (fun t => (t.status.busy, t.outPos)) = some (true, 1) ∧
      (after (turns 16 (running .decode (block base64 (ascii "QUFB====") 0x100 8 0x104 3)))) = some decodePastEnd ∧
      decodePastEnd.Inv ∧ decodePastEnd.dstCap.toNat ≤ decodePastEnd.outPos ∧
      (after (engineTurn decodePastEnd)).map (fun t => (t.mem == decodePastEnd.mem, t.outPos)) = some (true, 4) :=
  ⟨by decide, inv_of (by decide) (.inr ⟨by decide, .inl ⟨by decide, rfl⟩⟩), by decide, by decide,
    inv_of (by decide) (.inr ⟨by decide, .inr ⟨by decide, rfl⟩⟩), by decide, by decide⟩

/-- Each command's errors but ILLEGAL_CMD. -/
theorem witness_ErrorsArePrecise :
    ∀ f ∈ [(Instr.decode, blockOf base64 (ascii "aA==") 1), (.encode, blockOf base16 (ascii "f") 1),
        (.symbolAt, operand base64 64), (.decLenStrip, block base16 [] 0xFFFFFFFF 2 0 0)],
      ((after (exec f.1 f.2)).map fun t => t.status.err) = some true := by decide

theorem witness_TurnsReachTheCommandsEffect :
    ∀ i ∈ [Instr.encode, .decode, .encLen, .encLenPad, .decLen, .decLenStrip, .decodeByte, .symbolAt],
      isNext (exec i (accept (encode i) small)) = true := by decide

theorem witness_WaitReachesTheCommandsEffect :
    small.status.busy = false ∧
      ∀ i ∈ [Instr.encode, .decode, .encLen, .encLenPad, .decLen, .decLenStrip, .decodeByte, .symbolAt],
        isNext (step { small with events := .run (encode i) :: [.reset] }) = true := by decide

end Sys2Proof.Tests
end

section
/-! The bit accumulator: what a push, a take and a flush do to the pending bits, the HELD low bits of ACC.BUF (10_state.md R30 to
R35). -/

open Sys2Proof Sys2Proof.Machine

namespace Sys2Proof.Machine

/-- The pending bits of an accumulator: the HELD low bits of BUF, as a number (10_state.md R30). -/
def Acc.pending (acc : Acc) : Nat := acc.buf % 2 ^ acc.held

theorem Acc.push_buf_lt (accWidth v k : Nat) (acc : Acc) : (acc.push accWidth v k).buf < 2 ^ accWidth :=
  Nat.mod_lt _ (Nat.two_pow_pos accWidth)

/-- A push that fits W loses no pending bit: W does not enter the pending bits it leaves. -/
theorem Acc.pending_push {accWidth k : Nat} {acc : Acc} (v : Nat) (hfit : acc.held + k ≤ accWidth) :
    (acc.push accWidth v k).pending = (acc.pending <<< k) ||| v % 2 ^ (acc.held + k) := by
  have hshift : (acc.buf <<< k) % 2 ^ (acc.held + k) = acc.pending <<< k := by
    simp only [Acc.pending, Nat.shiftLeft_eq, Nat.pow_add, Nat.mul_mod_mul_right]
  calc (acc.push accWidth v k).pending
      = ((acc.buf <<< k) ||| v) % 2 ^ (acc.held + k) := Nat.mod_mod_of_dvd _ (Nat.pow_dvd_pow 2 hfit)
    _ = (acc.pending <<< k) ||| v % 2 ^ (acc.held + k) := by rw [Nat.or_mod_two_pow, hshift]

/-- A value of k bits goes below the pending bits. -/
theorem Acc.pending_push_of_lt {accWidth v k : Nat} {acc : Acc} (hv : v < 2 ^ k) (hfit : acc.held + k ≤ accWidth) :
    (acc.push accWidth v k).pending = acc.pending * 2 ^ k + v := by
  have hv' : v < 2 ^ (acc.held + k) := Nat.lt_of_lt_of_le hv (Nat.pow_le_pow_right (by decide) (Nat.le_add_left k _))
  rw [Acc.pending_push v hfit, Nat.mod_eq_of_lt hv', ← Nat.shiftLeft_add_eq_or_of_lt hv, Nat.shiftLeft_eq]

/-- A take reads the top k pending bits. -/
theorem Acc.takeValue_eq {k : Nat} {acc : Acc} (hk : k ≤ acc.held) :
    acc.takeValue k = acc.pending / 2 ^ (acc.held - k) := by
  have hsplit : 2 ^ acc.held = 2 ^ (acc.held - k) * 2 ^ k := by rw [← Nat.pow_add, Nat.sub_add_cancel hk]
  rw [Acc.takeValue, Acc.pending, hsplit, Nat.mod_mul_right_div_self, Nat.and_two_pow_sub_one_eq_mod,
    Nat.shiftRight_eq_div_pow]

theorem Acc.takeValue_lt (k : Nat) (acc : Acc) : acc.takeValue k < 2 ^ k := by
  rw [Acc.takeValue, Nat.and_two_pow_sub_one_eq_mod]
  exact Nat.mod_lt _ (Nat.two_pow_pos k)

/-- A take leaves the pending bits below those it has read. -/
theorem Acc.pending_taken (k : Nat) (acc : Acc) : (acc.taken k).pending = acc.pending % 2 ^ (acc.held - k) :=
  (Nat.mod_mod_of_dvd _ (Nat.pow_dvd_pow 2 (Nat.sub_le acc.held k))).symm

/-- A flush reads all pending bits, left-aligned in k bits. -/
theorem Acc.flushValue_eq {k : Nat} {acc : Acc} (hk : acc.held ≤ k) :
    acc.flushValue k = acc.pending * 2 ^ (k - acc.held) := by
  have hsplit : 2 ^ k = 2 ^ acc.held * 2 ^ (k - acc.held) := by rw [← Nat.pow_add, Nat.add_sub_cancel' hk]
  rw [Acc.flushValue, Acc.pending, Nat.and_two_pow_sub_one_eq_mod, hsplit, Nat.shiftLeft_eq, Nat.mul_mod_mul_right]

theorem Acc.pending_flushed (acc : Acc) : acc.flushed.pending = 0 := Nat.mod_one _

/-- Settles O38: each operation in terms of the pending bits. -/
theorem accumulatorOperations : Obligations.AccumulatorOperations :=
  ⟨fun _ _ _ _ hv hfit => ⟨rfl, Acc.pending_push_of_lt hv hfit, Acc.push_buf_lt _ _ _ _⟩,
    fun k acc hk => ⟨Acc.takeValue_eq hk, Acc.takeValue_lt k acc, rfl, rfl⟩,
    fun _ _ hk => ⟨Acc.flushValue_eq (Nat.le_of_lt hk), rfl⟩⟩

end Sys2Proof.Machine
end

section
/-! A block at another accumulator width (10_state.md R34): a simulation between two blocks that differ in W alone. Their states
agree in every field but ACC.BUF, and there in the pending bits. -/

open Sys2Proof Sys2Proof.Machine

namespace Sys2Proof.Machine

/-- Two runs of engine steps in lockstep: steps that answer related states, with equal phases, end in related states, or both run
out of fuel. -/
theorem runEngine_related {R : State → State → Prop} {f g : State → Outcome} (hphase : ∀ {s t}, R s t → t.phase = s.phase)
    (hstep : ∀ {s t}, R s t → ∃ s' t', f s = .next s' ∧ g t = .next t' ∧ R s' t') (fuel : Nat) {s t : State} (h : R s t) :
    (∃ s' t', runEngine f fuel s = .next s' ∧ runEngine g fuel t = .next t' ∧ R s' t') ∨
      (runEngine f fuel s = .fault .engineHang ∧ runEngine g fuel t = .fault .engineHang) := by
  induction fuel generalizing s t with
  | zero => exact .inr ⟨rfl, rfl⟩
  | succ fuel ih =>
    obtain ⟨s', t', hs, ht, h'⟩ := hstep h
    simp only [runEngine, hs, ht, hphase h']
    split
    · exact .inl ⟨s', t', rfl, rfl, h'⟩
    · exact ih h'

/-- The linear scan does not look at W. -/
theorem linearScan_accWidth (p : Params) (w : Nat) (b : Byte) (i left : Nat) :
    linearScan { p with accWidth := w } b i left = linearScan p b i left := by
  induction left generalizing i with
  | zero => rfl
  | succ left ih => exact if_congr Iff.rfl rfl (ih (i + 1))

/-- The lookup does not look at W, in either strategy. -/
theorem lookupByte_accWidth (p : Params) (w : Nat) : lookupByte { p with accWidth := w } = lookupByte p := by
  funext b
  have hscan : linearLookup { p with accWidth := w } b = linearLookup p b := linearScan_accWidth p w b 0 p.radix
  have hrom : decodeLookupRom { p with accWidth := w } = decodeLookupRom p := rfl
  rw [lookupByte, lookupByte, hrom, hscan]

/-- t is the state s of a block of configuration c, which differs from that of s in W alone: it has the same value in every field
but ACC.BUF, and there the same pending bits. -/
structure OtherWidth (c : Config) (s t : State) : Prop where
  params : ∃ w, c.toParams = { s.config.toParams with accWidth := w }
  fields : t = { s with config := c, acc := t.acc }
  held : t.acc.held = s.acc.held
  pending : t.acc.pending = s.acc.pending

namespace OtherWidth

variable {c : Config} {s t : State} (h : OtherWidth c s t)
include h

/-! What the two states agree in. -/

theorem config : t.config = c := by rw [h.fields]
theorem phase : t.phase = s.phase := by rw [h.fields]
theorem ctl : t.ctl = s.ctl := by rw [h.fields]
theorem mem : t.mem = s.mem := by rw [h.fields]
theorem inPos : t.inPos = s.inPos := by rw [h.fields]
theorem outPos : t.outPos = s.outPos := by rw [h.fields]
theorem srcLen : t.srcLen = s.srcLen := by rw [h.fields]
theorem src : t.src = s.src := by rw [h.fields]; rfl
theorem len : t.len = s.len := by rw [h.fields]; rfl
theorem dst : t.dst = s.dst := by rw [h.fields]; rfl
theorem cap : t.cap = s.cap := by rw [h.fields]; rfl

/-! The functions of the configuration that the commands use do not look at W. -/

theorem ofParams {α : Sort _} (f : Params → α) (hf : ∀ p w, f { p with accWidth := w } = f p) :
    f t.config.toParams = f s.config.toParams := by
  obtain ⟨w, hw⟩ := h.params
  rw [h.config, hw, hf]

theorem radix : t.config.radix = s.config.radix := h.ofParams (·.radix) fun _ _ => rfl
theorem chunkBits : t.config.chunkBits = s.config.chunkBits := h.ofParams (·.chunkBits) fun _ _ => rfl
theorem padEn : t.config.padEn = s.config.padEn := h.ofParams (·.padEn) fun _ _ => rfl

theorem symbolAt : symbolAt t.config.toParams = symbolAt s.config.toParams := h.ofParams Machine.symbolAt fun _ _ => rfl

theorem lookupByte : lookupByte t.config.toParams = lookupByte s.config.toParams :=
  h.ofParams Machine.lookupByte lookupByte_accWidth

theorem encodedLen : encodedLen t.config.toParams = encodedLen s.config.toParams :=
  h.ofParams Machine.encodedLen fun _ _ => rfl

theorem encodedLenPadded : encodedLenPadded t.config.toParams = encodedLenPadded s.config.toParams :=
  h.ofParams Machine.encodedLenPadded fun _ _ => rfl

theorem decodedLen : decodedLen t.config.toParams = decodedLen s.config.toParams :=
  h.ofParams Machine.decodedLen fun _ _ => rfl

theorem regionInRange : regionInRange t.config.toParams = regionInRange s.config.toParams :=
  h.ofParams Machine.regionInRange fun _ _ => rfl

theorem badSrc : t.badSrc = s.badSrc := by rw [State.badSrc, State.badSrc, h.regionInRange, h.src, h.len]
theorem badDst : t.badDst = s.badDst := by rw [State.badDst, State.badDst, h.regionInRange, h.dst, h.cap]

/-! The shared operations keep the relation. -/

theorem complete (st : Status) (r : Nat) (info : Word) : OtherWidth c (complete st r info s) (complete st r info t) :=
  ⟨h.params, by rw [h.fields]; rfl, h.held, h.pending⟩

theorem raise (e : ErrorKind) : OtherWidth c (raise e s) (raise e t) := h.complete _ _ _

theorem finish (r : Nat) : OtherWidth c (finish r s) (finish r t) := h.complete _ _ _

theorem emit (v : Byte) : OtherWidth c (emit v s) (emit v t) :=
  ⟨h.params, by rw [h.fields]; rfl, h.held, h.pending⟩

theorem setCtl (k : ControlPoint) : OtherWidth c { s with ctl := k } { t with ctl := k } :=
  ⟨h.params, by rw [h.fields], h.held, h.pending⟩

theorem atStart : OtherWidth c (atStart s) (atStart t) :=
  ⟨h.params, by rw [h.fields]; rfl, h.held, h.pending⟩

theorem startMain : OtherWidth c (startMain s) (startMain t) :=
  ⟨h.params, by rw [h.fields]; rfl, rfl, rfl⟩

/-- An accumulator operation that gives the same HELD and the same pending bits keeps the relation. -/
theorem setAcc {a b : Acc} (hheld : b.held = a.held) (hpending : b.pending = a.pending) :
    OtherWidth c { s with acc := a } { t with acc := b } :=
  ⟨h.params, by rw [h.fields], hheld, hpending⟩

theorem takeValue {k : Nat} (hk : k ≤ s.acc.held) : t.acc.takeValue k = s.acc.takeValue k := by
  rw [Acc.takeValue_eq hk, Acc.takeValue_eq (h.held ▸ hk), h.held, h.pending]

theorem taken (k : Nat) : OtherWidth c { s with acc := s.acc.taken k } { t with acc := t.acc.taken k } :=
  h.setAcc (congrArg (· - k) h.held) (by rw [Acc.pending_taken, Acc.pending_taken, h.held, h.pending])

theorem flushValue {k : Nat} (hk : s.acc.held ≤ k) : t.acc.flushValue k = s.acc.flushValue k := by
  rw [Acc.flushValue_eq hk, Acc.flushValue_eq (h.held ▸ hk), h.held, h.pending]

theorem flushed : OtherWidth c { s with acc := s.acc.flushed } { t with acc := t.acc.flushed } :=
  h.setAcc rfl (by rw [Acc.pending_flushed, Acc.pending_flushed])

/-- The push of an input element. Every width of at least 13 holds the pending bits after it (10_state.md R34). -/
theorem push (v : Nat) {k : Nat} (hfit : s.acc.held + k ≤ 13) :
    OtherWidth c { s with inPos := s.inPos + 1, acc := s.acc.push s.config.accWidth v k }
      { t with inPos := t.inPos + 1, acc := t.acc.push t.config.accWidth v k } := by
  refine ⟨h.params, by rw [h.fields], congrArg (· + k) h.held, ?_⟩
  have hs := s.config.accWidth_ge
  have ht := t.config.accWidth_ge
  have hheld := h.held
  show (t.acc.push _ v k).pending = (s.acc.push _ v k).pending
  rw [Acc.pending_push v (by omega), Acc.pending_push v (by omega), hheld, h.pending]

theorem engineRead (a : Nat) : engineRead a t = engineRead a s := by rw [Machine.engineRead, Machine.engineRead, h.mem]

theorem nextInput : Machine.engineRead (t.src + t.inPos) t = Machine.engineRead (s.src + s.inPos) s := by
  rw [h.engineRead, h.src, h.inPos]

/-! Every engine step keeps the relation: both blocks take the same branch. -/

omit h in
/-- Two conditionals that take the same branch. -/
theorem branch {p q : Prop} [Decidable p] [Decidable q] {s₁ s₂ t₁ t₂ : State} (hpq : q ↔ p) (h₁ : p → OtherWidth c s₁ t₁)
    (h₂ : ¬p → OtherWidth c s₂ t₂) : OtherWidth c (if p then s₁ else s₂) (if q then t₁ else t₂) := by
  by_cases hp : p
  · simpa only [if_pos hp, if_pos (hpq.mpr hp)] using h₁ hp
  · simpa only [if_neg hp, if_neg (mt hpq.mp hp)] using h₂ hp

theorem prescanStep (n : Nat) : OtherWidth c (prescanStep n s) (prescanStep n t) :=
  branch (by rw [h.len])
    (fun _ => branch (by rw [h.engineRead, h.src, h.len]) (fun _ => h.setCtl _) fun _ => h.setCtl _)
    fun _ => h.setCtl _

theorem encodeStart : OtherWidth c (encodeStart s) (encodeStart t) := by
  unfold Machine.encodeStart
  rw [h.badSrc, h.badDst, h.cap, h.encodedLenPadded, h.len]
  exact branch Iff.rfl (fun _ => h.raise _) fun _ => branch Iff.rfl (fun _ => h.raise _) fun _ => h.startMain

theorem encodeMain : OtherWidth c (encodeMain s) (encodeMain t) := by
  have hK := s.config.chunkBits_le
  unfold Machine.encodeMain
  dsimp only
  rw [h.symbolAt, h.chunkBits]
  refine branch (by rw [h.held]) (fun htake => ?_) fun htake => branch (by rw [h.inPos, h.len]) (fun _ => ?_) fun _ =>
    branch (by rw [h.held]) (fun _ => ?_) fun _ => branch (by rw [h.padEn, h.outPos]) (fun _ => h.emit _) fun _ => ?_
  · rw [h.takeValue htake]
    exact (h.taken _).emit _
  · rw [h.nextInput]
    exact h.push _ (by omega)
  · rw [h.flushValue (by omega)]
    exact h.flushed.emit _
  · rw [h.outPos]
    exact h.finish _

theorem decodeStart : OtherWidth c (decodeStart s) (decodeStart t) := by
  unfold Machine.decodeStart
  rw [h.badSrc, h.badDst]
  exact branch Iff.rfl (fun _ => h.raise _) fun _ => h.setCtl _

theorem decodeSized (n : Nat) : OtherWidth c (decodeSized n s) (decodeSized n t) := by
  unfold Machine.decodeSized
  rw [h.cap, h.decodedLen, h.len]
  exact branch Iff.rfl (fun _ => h.raise _) fun _ => h.startMain

theorem decodeChar (ch : Byte) (hheld : s.acc.held < 8) : OtherWidth c (decodeChar s ch) (decodeChar t ch) := by
  have hK := s.config.chunkBits_le
  unfold Machine.decodeChar
  dsimp only
  rw [h.lookupByte, h.chunkBits]
  refine branch (by rw [h.padEn]) (fun _ => h.setCtl _) fun _ => ?_
  split
  · exact h.setCtl _
  · exact h.push _ (by omega)

theorem decodeMain : OtherWidth c (decodeMain s) (decodeMain t) := by
  unfold Machine.decodeMain
  refine branch (by rw [h.held]) (fun htake => ?_) fun htake => branch (by rw [h.inPos, h.len]) (fun _ => ?_) fun _ => ?_
  · rw [h.takeValue htake]
    exact (h.taken _).emit _
  · rw [h.nextInput]
    exact h.decodeChar _ (by omega)
  · rw [h.outPos]
    exact h.finish _

/-- One engine step of every command, in lockstep. -/
theorem tick (i : Instr) : ∃ s' t', tick i s = .next s' ∧ tick i t = .next t' ∧ OtherWidth c s' t' := by
  cases i
  case encode =>
    simp only [Machine.tick, encodeTick, h.ctl]
    split
    · exact ⟨_, _, rfl, rfl, h.encodeMain⟩
    all_goals exact ⟨_, _, rfl, rfl, h.encodeStart⟩
  case decode =>
    simp only [Machine.tick, decodeTick, h.ctl, h.outPos, h.inPos]
    split
    · exact ⟨_, _, rfl, rfl, h.decodeStart⟩
    · exact ⟨_, _, rfl, rfl, h.prescanStep _⟩
    · exact ⟨_, _, rfl, rfl, h.decodeSized _⟩
    · exact ⟨_, _, rfl, rfl, h.decodeMain⟩
    · exact ⟨_, _, rfl, rfl, h.finish _⟩
    · exact ⟨_, _, rfl, rfl, h.raise _⟩
  case decLenStrip =>
    simp only [Machine.tick, decLenStripTick, h.ctl, h.decodedLen, h.len, h.badSrc]
    split
    · exact ⟨_, _, rfl, rfl, h.prescanStep _⟩
    · exact ⟨_, _, rfl, rfl, h.finish _⟩
    all_goals exact ⟨_, _, rfl, rfl, branch Iff.rfl (fun _ => h.raise _) fun _ => h.setCtl _⟩
  case symbolAt =>
    simp only [Machine.tick, execSymbolAt, State.indexOperand, h.srcLen, h.radix, h.symbolAt]
    by_cases hindex : s.config.radix ≤ s.srcLen.toNat
    · exact ⟨_, _, if_pos hindex, if_pos hindex, h.raise _⟩
    · exact ⟨_, _, if_neg hindex, if_neg hindex, h.finish _⟩
  case decodeByte =>
    simp only [Machine.tick, execDecodeByte, State.byteOperand, h.srcLen, h.lookupByte]
    split
    · exact ⟨_, _, rfl, rfl, h.finish _⟩
    · exact ⟨_, _, rfl, rfl, h.finish _⟩
  case encLen =>
    simp only [Machine.tick, execEncLen, h.encodedLen, h.len]
    exact ⟨_, _, rfl, rfl, h.finish _⟩
  case encLenPad =>
    simp only [Machine.tick, execEncLenPad, h.encodedLenPadded, h.len]
    exact ⟨_, _, rfl, rfl, h.finish _⟩
  case decLen =>
    simp only [Machine.tick, execDecLen, h.decodedLen, h.len]
    exact ⟨_, _, rfl, rfl, h.finish _⟩

/-- Outside ACC.BUF the two states are the same. -/
theorem withoutBuf_eq : withoutBuf (.next t) = withoutBuf (inConfig c (.next s)) := by
  simp only [withoutBuf, inConfig, h.held]
  rw [h.fields]

/-- A run of the engine steps of a command, in lockstep. -/
theorem run (i : Instr) (fuel : Nat) :
    withoutBuf (runEngine (Machine.tick i) fuel t) = withoutBuf (inConfig c (runEngine (Machine.tick i) fuel s)) := by
  rcases runEngine_related (R := OtherWidth c) OtherWidth.phase (fun h => h.tick i) fuel h with
    ⟨s', t', hs, ht, h'⟩ | ⟨hs, ht⟩
  · rw [hs, ht]
    exact h'.withoutBuf_eq
  · rw [hs, ht]
    rfl

/-- Every command has the same outcome in both blocks, outside ACC.BUF. -/
theorem exec (i : Instr) : withoutBuf (exec i t) = withoutBuf (inConfig c (exec i s)) := by
  obtain ⟨s', t', hs, ht, h'⟩ := h.tick i
  have hone : withoutBuf (Machine.tick i t) = withoutBuf (inConfig c (Machine.tick i s)) := by
    rw [hs, ht]
    exact h'.withoutBuf_eq
  cases i
  case encode =>
    have hfuel : encodeFuel t = encodeFuel s := by rw [encodeFuel, encodeFuel, h.len, h.encodedLenPadded]
    rw [Machine.exec, Machine.exec, execEncode, execEncode, hfuel]
    exact h.atStart.run .encode (encodeFuel s)
  case decode =>
    have hfuel : decodeFuel t = decodeFuel s := by rw [decodeFuel, decodeFuel, h.len, h.decodedLen]
    rw [Machine.exec, Machine.exec, execDecode, execDecode, hfuel]
    exact h.atStart.run .decode (decodeFuel s)
  case decLenStrip =>
    have hfuel : decLenStripFuel t = decLenStripFuel s := by rw [decLenStripFuel, decLenStripFuel, h.len]
    rw [Machine.exec, Machine.exec, execDecLenStrip, execDecLenStrip, hfuel]
    exact h.atStart.run .decLenStrip (decLenStripFuel s)
  all_goals exact hone

end OtherWidth

/-- Settles O39: the block of configuration c starts in a related state, and every command keeps the relation in lockstep. -/
theorem accumulatorWidthIsInvisible : Obligations.AccumulatorWidthIsInvisible := fun i s c w hw =>
  OtherWidth.exec (t := { s with config := c }) ⟨⟨w, hw⟩, rfl, rfl, rfl⟩ i

end Sys2Proof.Machine
end

section
/-! What a step can do, said once: the host's accesses, the engine's turn, a command line or a reset. That no step changes the
configuration (10_state.md R20, R26, R28) is the first use. -/

open Sys2Proof Sys2Proof.Machine

namespace Sys2Proof.Machine

/-- An access of the register window that answers a next state reaches an offset of the window. -/
theorem windowAccess_next {size addr : Nat} {s t : State} {k : Nat → State} (h : windowAccess size addr s k = .next t) :
    ∃ offset, t = k offset := by
  unfold windowAccess at h
  split at h
  · split at h <;> cases h
    exact ⟨_, rfl⟩
  · cases h

/-- A read of a register changes the last reply and the count of draws alone. -/
theorem readReg_cases (r : Reg) (s : State) : ∃ reply draws, readReg r s = { s with reply := reply, draws := draws } := by
  have hresult (w : Word) : ∃ reply draws, readResult w s = { s with reply := reply, draws := draws } := by
    unfold readResult
    split <;> exact ⟨_, _, rfl⟩
  cases r
  case resultLo => exact hresult _
  case resultHi => exact hresult _
  case errInfo => exact hresult _
  all_goals exact ⟨_, _, rfl⟩

/-- A write of a register is ignored, or the block is idle and it sets an operand register or starts a command. -/
theorem writeReg_cases (r : Reg) (v : Word) (s : State) :
    writeReg r v s = s ∨ (s.status.busy = false ∧ (writeReg r v s = accept v s ∨
      ∃ src n dst cap, writeReg r v s = { s with srcAddr := src, srcLen := n, dstAddr := dst, dstCap := cap })) := by
  by_cases hbusy : s.status.busy = true
  · cases r
    case cmd | srcAddr | srcLen | dstAddr | dstCap => exact .inl (if_pos hbusy)
    all_goals exact .inl rfl
  · have hidle : s.status.busy = false := Bool.eq_false_of_not_eq_true hbusy
    cases r
    case cmd => exact .inr ⟨hidle, .inl (if_neg hbusy)⟩
    case srcAddr | srcLen | dstAddr | dstCap => exact .inr ⟨hidle, .inr ⟨_, _, _, _, if_neg hbusy⟩⟩
    all_goals exact .inl rfl

/-- A host access to data memory that answers a next state is to a byte of memory, outside the regions of a running command. -/
theorem hostMemAccess_next {a : Nat} {s t u : State} (h : hostMemAccess a s u = .next t) :
    a < 2 ^ s.config.aw ∧ regionHazardAt a s = false ∧ t = u := by
  unfold hostMemAccess at h
  split at h
  · cases h
  · split at h
    · cases h
    · next haw hhazard =>
      cases h
      exact ⟨by omega, by simpa using hhazard, rfl⟩

/-- The engine's turn: an idle block stays, a command makes one engine step, an illegal one completes. -/
theorem engineTurn_cases {s t : State} (h : engineTurn s = .next t) :
    (s.phase = .idle ∧ t = s) ∨ (s.phase = .run ∧ ∃ i, s.running = .ok i ∧ tick i s = .next t) ∨
      (s.phase = .run ∧ (∃ e, s.running = .error e) ∧ t = raise .illegalCmd s) := by
  unfold engineTurn engineStep at h
  split at h
  · next hrun =>
    split at h
    · next i hi => exact .inr (.inl ⟨hrun, i, hi, h⟩)
    · next e he =>
      cases h
      exact .inr (.inr ⟨hrun, ⟨e, he⟩, rfl⟩)
  · next hidle =>
    cases h
    exact .inl ⟨hidle, rfl⟩

/-- The engine's turn keeps a command's frame. -/
theorem engineTurn_frame {s t : State} (h : engineTurn s = .next t) : CommandFrame s t := by
  rcases engineTurn_cases h with ⟨-, rfl⟩ | ⟨-, i, -, hi⟩ | ⟨-, -, rfl⟩
  · exact CommandFrame.rfl' _
  · exact tick_frame hi
  · exact CommandFrame.complete _ _ _ _

/-- What a step from s can lead to, with the guard of each case; `rest` are the events that remain. -/
inductive StepResult (s : State) : State → Prop where
  /-- Only the host's own fields change: a read, an ignored write, the end of a wait. -/
  | hostOnly (rest : List Event) (reply : Reply) (draws : Nat) :
      StepResult s { s with events := rest, reply := reply, draws := draws }
  /-- An idle block takes a write of an operand register. -/
  | operands (rest : List Event) (src n dst cap : Word) (idle : s.status.busy = false) :
      StepResult s { s with events := rest, srcAddr := src, srcLen := n, dstAddr := dst, dstCap := cap }
  /-- An idle block accepts a command word. -/
  | accepted (rest : List Event) (w : Word) (idle : s.status.busy = false) : StepResult s (accept w (s.popped rest))
  /-- The host writes a byte of data memory. -/
  | memWrite (rest : List Event) (a : Nat) (v : Byte) (inSpace : a < 2 ^ s.config.aw)
      (noHazard : regionHazardAt a s = false) : StepResult s { s with events := rest, mem := s.mem.write a v }
  /-- Reset is asserted. -/
  | reset (rest : List Event) : StepResult s (doReset (s.popped rest))
  /-- The engine has its turn. -/
  | turn (rest : List Event) (t : State) (turned : engineTurn (s.popped rest) = .next t) : StepResult s t
  /-- An idle block runs a command line. -/
  | command (rest : List Event) (w : Word) (i : Instr) (t : State) (idle : s.status.busy = false)
      (legal : decodeWord w = .ok i) (done : exec i (accept w (s.popped rest)) = .next t) : StepResult s t
  /-- An idle block rejects the word of a command line. -/
  | illegal (rest : List Event) (w : Word) (idle : s.status.busy = false) :
      StepResult s (raise .illegalCmd (accept w (s.popped rest)))

theorem hostRegRead_result {size addr : Nat} {rest : List Event} {s t : State}
    (h : hostRegRead size addr (s.popped rest) = .next t) : StepResult s t := by
  obtain ⟨offset, rfl⟩ := windowAccess_next h
  split
  · next r _ =>
    obtain ⟨reply, draws, hr⟩ := readReg_cases r (s.popped rest)
    rw [hr]
    exact .hostOnly rest reply draws
  · exact .hostOnly rest _ _

theorem hostRegWrite_result {size addr : Nat} {v : Word} {rest : List Event} {s t : State}
    (h : hostRegWrite size addr v (s.popped rest) = .next t) : StepResult s t := by
  obtain ⟨offset, rfl⟩ := windowAccess_next h
  split
  · next r _ =>
    rcases writeReg_cases r v (s.popped rest) with hr | ⟨hidle, hr | ⟨src, n, dst, cap, hr⟩⟩ <;> rw [hr]
    · exact .hostOnly rest _ _
    · exact .accepted rest v hidle
    · exact .operands rest src n dst cap hidle
  · exact .hostOnly rest _ _

theorem waitStep_result {rest : List Event} {s t : State} (h : waitStep rest s = .next t) : StepResult s t := by
  unfold waitStep at h
  split at h
  · exact .turn s.events t h
  · cases h
    exact .hostOnly rest _ _

theorem runCommand_result {w : Word} {rest : List Event} {s t : State} (h : runCommand w (s.popped rest) = .next t) :
    StepResult s t := by
  unfold runCommand at h
  split at h
  · cases h
    exact .hostOnly _ _ _
  · next hbusy =>
    have hidle : s.status.busy = false := Bool.eq_false_of_not_eq_true hbusy
    split at h
    · next i hi => exact .command rest w i t hidle hi h
    · cases h
      exact .illegal rest w hidle

/-- Every step that answers a next state is one of the cases of `StepResult`. -/
theorem step_result {s t : State} (h : step s = .next t) : StepResult s t := by
  unfold step at h
  cases hevents : s.events with
  | nil =>
    rw [hevents] at h
    exact .turn s.events t h
  | cons e rest =>
    rw [hevents] at h
    cases e with
    | regRead size addr => exact hostRegRead_result h
    | regWrite size addr v => exact hostRegWrite_result h
    | memRead a =>
      obtain ⟨-, -, rfl⟩ := hostMemAccess_next h
      exact .hostOnly rest _ _
    | memWrite a v =>
      obtain ⟨haw, hhazard, rfl⟩ := hostMemAccess_next h
      exact .memWrite rest a v haw hhazard
    | reset =>
      cases h
      exact .reset rest
    | engine => exact .turn rest t h
    | wait => exact waitStep_result h
    | run w => exact runCommand_result h

theorem StepResult.config {s t : State} (h : StepResult s t) : t.config = s.config := by
  cases h with
  | turn rest t turned => exact (engineTurn_frame turned).config
  | command rest w i t idle legal done => exact (exec_frame done).config
  | _ => rfl

/-- Settles O54: the engine's turn and a command line keep the frame of a command, every other case is an update of other fields. -/
theorem configurationNeverChanges : Obligations.ConfigurationNeverChanges := fun _ _ h => (step_result h).config

end Sys2Proof.Machine
end

section
/-! The machine's invariant is kept by every step (10_state.md R30, R34, R36, R41; 20_memory.md R60, R67, R68). The invariant is
taken apart into what holds of the data at any time, of STATUS, and of the control point while a command runs. -/

open Sys2Proof Sys2Proof.Machine

namespace Sys2Proof.Machine

/-! ### The parts of the invariant -/

/-- STATUS holds at most one flag, and an error code exactly with ERR. -/
structure Status.WellFormed (st : Status) : Prop where
  oneFlag : ¬(st.busy = true ∧ st.done = true) ∧ ¬(st.busy = true ∧ st.err = true) ∧ ¬(st.done = true ∧ st.err = true)
  codeIffErr : st.err = true ↔ st.errCode ≠ 0
  codeDefined : st.errCode.toNat ≤ 5

/-- Memory is canonical and inside the address space, and BUF fits its register. -/
structure State.StorageInv (s : State) : Prop where
  memWf : s.mem.wf
  memInSpace : ∀ c ∈ s.mem, c.1 < 2 ^ s.config.aw
  bufBound : s.acc.buf < 2 ^ s.config.accWidth

/-- HELD and the cursors are within their bounds. -/
structure State.CounterInv (s : State) : Prop where
  heldBound : s.acc.held < 8 + s.config.chunkBits
  inPosFits : s.inPos ≤ 2 ^ s.config.aw
  outPosFits : s.outPos ≤ 2 ^ s.config.aw

/-- What the bits moved say of the cursors in the main pass of ENCODE. -/
def State.EncodeCounts (s : State) : Prop :=
  encodedLenPadded s.config.toParams s.len ≤ s.cap ∧
    (s.outPos * s.config.chunkBits + s.acc.held = 8 * s.inPos ∨
      s.inPos = s.len ∧ s.acc.held = 0 ∧ encodedLen s.config.toParams s.len ≤ s.outPos ∧
        s.outPos ≤ encodedLenPadded s.config.toParams s.len)

/-- What the main pass of a running command says of its regions and cursors. -/
def State.MainInv (s : State) : Prop :=
  s.regionsInRange ∧ s.inPos ≤ s.len ∧ (s.running = .ok .encode → s.EncodeCounts) ∧
    (s.running = .ok .decode → s.outPos * 8 + s.acc.held = s.inPos * s.config.chunkBits)

/-- What the control point of a running command says of its regions and cursors. -/
def State.ControlInv (s : State) : Prop :=
  match s.ctl with
  | .start | .stopped | .invalid _ => True
  | .prescan _ | .sized _ => s.badSrc = false ∧ (s.running = .ok .decode → s.badDst = false)
  | .main => s.MainInv

theorem State.ControlInv.prescan {s : State} (h : s.ControlInv) {t : Nat} (hctl : s.ctl = .prescan t ∨ s.ctl = .sized t) :
    s.badSrc = false ∧ (s.running = .ok .decode → s.badDst = false) := by
  unfold State.ControlInv at h
  rcases hctl with hctl | hctl
  · rwa [hctl] at h
  · rwa [hctl] at h

theorem State.ControlInv.of_main {s : State} (hctl : s.ctl = .main) (h : s.MainInv) : s.ControlInv := by
  unfold State.ControlInv
  rwa [hctl]

theorem State.ControlInv.main {s : State} (h : s.ControlInv) (hctl : s.ctl = .main) : s.MainInv := by
  unfold State.ControlInv at h
  rwa [hctl] at h

theorem State.Inv.storage {s : State} (h : s.Inv) : s.StorageInv := ⟨h.memWf, h.memInSpace, h.bufBound⟩

theorem State.Inv.statusWellFormed {s : State} (h : s.Inv) : s.status.WellFormed := ⟨h.oneFlag, h.codeIffErr, h.codeDefined⟩

theorem State.Inv.control {s : State} (h : s.Inv) (hrun : s.phase = .run) : s.ControlInv := by
  unfold State.ControlInv
  cases hctl : s.ctl with
  | prescan t => exact h.prescanInRange hrun t (.inl hctl)
  | sized t => exact h.prescanInRange hrun t (.inr hctl)
  | main =>
    obtain ⟨hregions, hin⟩ := h.mainInRange hrun hctl
    exact ⟨hregions, hin, fun hi => h.encodeCounts hrun hi hctl, fun hi => h.decodeCounts hrun hi hctl⟩
  | start | stopped | invalid => trivial

/-- The invariant from its parts. -/
theorem State.Inv.of_parts {s : State} (hs : s.StorageInv) (hc : s.CounterInv) (hst : s.status.WellFormed)
    (hbusy : s.phase = .run ↔ s.status.busy = true) (hop : s.phase = .run → s.op = opcodeField s.cmd)
    (hctl : s.phase = .run → s.ControlInv) : s.Inv where
  memWf := hs.memWf
  memInSpace := hs.memInSpace
  runIffBusy := hbusy
  oneFlag := hst.oneFlag
  codeIffErr := hst.codeIffErr
  codeDefined := hst.codeDefined
  opIsOpcode := hop
  heldBound := hc.heldBound
  bufBound := hs.bufBound
  inPosFits := hc.inPosFits
  outPosFits := hc.outPosFits
  prescanInRange := fun hrun _ ht => (hctl hrun).prescan ht
  mainInRange := fun hrun ht =>
    have ⟨hregions, hin, _, _⟩ := (hctl hrun).main ht
    ⟨hregions, hin⟩
  encodeCounts := fun hrun hi ht =>
    have ⟨_, _, hencode, _⟩ := (hctl hrun).main ht
    hencode hi
  decodeCounts := fun hrun hi ht =>
    have ⟨_, _, _, hdecode⟩ := (hctl hrun).main ht
    hdecode hi

/-- An idle block has nothing to say of its control point. -/
theorem State.Inv.of_idle {s : State} (hs : s.StorageInv) (hc : s.CounterInv) (hst : s.status.WellFormed)
    (hbusy : s.status.busy = false) (hidle : s.phase = .idle) : s.Inv :=
  have hno : s.phase ≠ .run := by rw [hidle]; exact Phase.noConfusion
  .of_parts hs hc hst ⟨fun h => absurd h hno, fun h => by rw [hbusy] at h; cases h⟩ (fun h => absurd h hno)
    fun h => absurd h hno

theorem State.Inv.idle_of_not_busy {s : State} (h : s.Inv) (hbusy : s.status.busy = false) : s.phase = .idle := by
  cases hphase : s.phase
  · rfl
  · rw [h.runIffBusy.mp hphase] at hbusy
    cases hbusy

/-! ### Acceptance, completion and reset -/

theorem statusAccepted_wellFormed : statusAccepted.WellFormed := ⟨by decide, by decide, by decide⟩

theorem statusDone_wellFormed : statusDone.WellFormed := ⟨by decide, by decide, by decide⟩

/-- Every error kind has one of the codes 1 to 5. -/
theorem ErrorKind.code_bounds (e : ErrorKind) : e.code ≠ 0 ∧ e.code.toNat ≤ 5 := by cases e <;> simp [ErrorKind.code]

theorem statusError_wellFormed (e : ErrorKind) : (statusError e.code).WellFormed :=
  have hcode : e.code ≠ 0 := e.code_bounds.1
  ⟨by simp [statusError], iff_of_true rfl hcode, e.code_bounds.2⟩

theorem statusReset_wellFormed : Status.WellFormed ⟨false, false, false, 0⟩ := ⟨by decide, by decide, by decide⟩

theorem State.Inv.finish {s : State} (h : s.Inv) (r : Nat) : (finish r s).Inv :=
  .of_idle ⟨h.memWf, h.memInSpace, h.bufBound⟩ ⟨h.heldBound, h.inPosFits, h.outPosFits⟩ statusDone_wellFormed rfl rfl

theorem State.Inv.raise {s : State} (h : s.Inv) (e : ErrorKind) : (raise e s).Inv :=
  .of_idle ⟨h.memWf, h.memInSpace, h.bufBound⟩ ⟨h.heldBound, h.inPosFits, h.outPosFits⟩ (statusError_wellFormed e) rfl rfl

theorem State.Inv.accept {s : State} (h : s.Inv) (w : Word) : (accept w s).Inv :=
  .of_parts ⟨h.memWf, h.memInSpace, h.bufBound⟩ ⟨h.heldBound, Nat.zero_le _, Nat.zero_le _⟩ statusAccepted_wellFormed
    ⟨fun _ => rfl, fun _ => rfl⟩ (fun _ => rfl) fun _ => trivial

theorem State.Inv.doReset {s : State} (h : s.Inv) : (doReset s).Inv :=
  .of_idle ⟨h.memWf, h.memInSpace, Nat.two_pow_pos _⟩ ⟨by show 0 < 8 + _; omega, Nat.zero_le _, Nat.zero_le _⟩
    statusReset_wellFormed rfl rfl

/-! ### What is the host's -/

/-- The invariant does not speak of the pending events, the last reply and the count of draws. -/
theorem State.Inv.setHost {s : State} (h : s.Inv) (events : List Event) (reply : Reply) (draws : Nat) :
    { s with events := events, reply := reply, draws := draws }.Inv :=
  .of_parts ⟨h.memWf, h.memInSpace, h.bufBound⟩ ⟨h.heldBound, h.inPosFits, h.outPosFits⟩ h.statusWellFormed h.runIffBusy
    h.opIsOpcode h.control

/-- A byte of data memory may take any value. -/
theorem State.Inv.memWrite {s : State} (h : s.Inv) (rest : List Event) {a : Nat} (v : Byte) (ha : a < 2 ^ s.config.aw) :
    { s with events := rest, mem := s.mem.write a v }.Inv :=
  .of_parts ⟨Memory.write_wf h.memWf a v, Memory.write_inSpace h.memInSpace ha, h.bufBound⟩
    ⟨h.heldBound, h.inPosFits, h.outPosFits⟩ h.statusWellFormed h.runIffBusy h.opIsOpcode h.control

/-- An idle block may take any operands. -/
theorem State.Inv.setOperands {s : State} (h : s.Inv) (hbusy : s.status.busy = false) (rest : List Event)
    (src n dst cap : Word) : { s with events := rest, srcAddr := src, srcLen := n, dstAddr := dst, dstCap := cap }.Inv :=
  .of_idle ⟨h.memWf, h.memInSpace, h.bufBound⟩ ⟨h.heldBound, h.inPosFits, h.outPosFits⟩ h.statusWellFormed hbusy
    (h.idle_of_not_busy hbusy)

/-! ### The engine's steps -/

/-- The running command depends on what a command's frame keeps. -/
theorem CommandFrame.running {s t : State} (h : CommandFrame s t) : t.running = s.running := by
  rw [State.running, State.running, h.cmd, h.op]

theorem CommandFrame.regionsInRange {s t : State} (h : CommandFrame s t) : t.regionsInRange ↔ s.regionsInRange := by
  obtain ⟨hsrc, hlen, hdst, hcap⟩ := h.operands
  rw [State.regionsInRange, State.regionsInRange, State.badSrc, State.badDst, State.badSrc, State.badDst, h.config, hsrc, hlen,
    hdst, hcap]

/-- A step that goes on with the running command keeps what is not its own: CMD, OP, STATUS and PHASE. -/
theorem State.Inv.goes_on {s t : State} (h : s.Inv) (hframe : CommandFrame s t) (hstatus : t.status = s.status)
    (hphase : t.phase = s.phase) (hs : t.StorageInv) (hc : t.CounterInv) (hctl : s.phase = .run → t.ControlInv) : t.Inv := by
  refine .of_parts hs hc (hstatus ▸ h.statusWellFormed) ?_ ?_ (hphase ▸ hctl)
  · rw [hphase, hstatus]
    exact h.runIffBusy
  · rw [hphase, hframe.op, hframe.cmd]
    exact h.opIsOpcode

/-- The engine may go to a control point about which the invariant holds. -/
theorem State.Inv.setCtl {s : State} (h : s.Inv) (c : ControlPoint) (hctl : s.phase = .run → { s with ctl := c }.ControlInv) :
    { s with ctl := c }.Inv :=
  h.goes_on (by constructor <;> rfl) rfl rfl ⟨h.memWf, h.memInSpace, h.bufBound⟩ ⟨h.heldBound, h.inPosFits, h.outPosFits⟩ hctl

/-- The main pass starts with both regions in range and, for ENCODE, the space checked. -/
theorem State.Inv.startMain {s : State} (h : s.Inv) (hregions : s.regionsInRange)
    (hspace : s.running = .ok .encode → encodedLenPadded s.config.toParams s.len ≤ s.cap) : (startMain s).Inv := by
  refine h.goes_on (by constructor <;> rfl) rfl rfl ⟨h.memWf, h.memInSpace, Nat.two_pow_pos _⟩
    ⟨by show 0 < 8 + _; omega, Nat.zero_le _, Nat.zero_le _⟩ fun _ => ?_
  exact ⟨hregions, Nat.zero_le _, fun hi => ⟨hspace hi, .inl (Nat.zero_mul _)⟩, fun _ => (Nat.zero_mul _).symm⟩

/-- A pre-scan step moves within the pre-scan or ends it. -/
theorem State.Inv.prescanStep {s : State} (h : s.Inv) {k : Nat} (hctl : s.ctl = .prescan k) : (prescanStep k s).Inv := by
  have hregions (hrun : s.phase = .run) := h.prescanInRange hrun k (.inl hctl)
  rcases prescanStep_cases k s with ⟨-, -, hs⟩ | ⟨-, -, hs⟩ | ⟨-, hs⟩ <;> rw [hs]
  · exact h.setCtl _ hregions
  · exact h.setCtl _ hregions
  · exact h.setCtl _ hregions

/-! The main passes: what they store. -/

/-- A write of the engine falls inside the destination region (20_memory.md R68), and so into memory. -/
theorem State.StorageInv.emit {s : State} (h : s.StorageInv) (hdst : s.badDst = false) (v : Byte) : (emit v s).StorageInv := by
  rw [badDst_eq_false] at hdst
  refine ⟨?_, ?_, h.bufBound⟩ <;> rw [emit_mem] <;> split
  · exact Memory.write_wf h.memWf _ v
  · exact h.memWf
  · exact Memory.write_inSpace h.memInSpace (show s.dst + s.outPos < 2 ^ s.config.aw by omega)
  · exact h.memInSpace

theorem State.StorageInv.setAcc {s : State} (h : s.StorageInv) (acc : Acc) (hbuf : acc.buf < 2 ^ s.config.accWidth) :
    { s with acc := acc }.StorageInv := ⟨h.memWf, h.memInSpace, hbuf⟩

theorem State.StorageInv.encodeMain {s : State} (h : s.StorageInv) (hdst : s.badDst = false) : (encodeMain s).StorageInv := by
  rcases encodeMain_cases s with ⟨-, hs⟩ | ⟨-, -, hs⟩ | ⟨-, -, -, hs⟩ | ⟨-, -, -, -, -, hs⟩ | ⟨-, -, -, -, hs⟩ <;> rw [hs]
  · exact (h.setAcc (s.acc.taken _) h.bufBound).emit hdst _
  · exact ⟨h.memWf, h.memInSpace, Acc.push_buf_lt _ _ _ _⟩
  · exact (h.setAcc s.acc.flushed h.bufBound).emit hdst _
  · exact h.emit hdst _
  · exact ⟨h.memWf, h.memInSpace, h.bufBound⟩

theorem State.StorageInv.decodeMain {s : State} (h : s.StorageInv) (hdst : s.badDst = false) : (decodeMain s).StorageInv := by
  rcases decodeMain_cases s with ⟨-, hs⟩ | ⟨-, -, hs⟩ | ⟨-, -, hs⟩ <;> rw [hs]
  · exact (h.setAcc (s.acc.taken 8) h.bufBound).emit hdst _
  · rcases decodeChar_cases s (s.mem.read (s.src + s.inPos)) with ⟨-, -, hc⟩ | ⟨-, -, hc⟩ | ⟨-, v, -, hc⟩ <;> rw [hc]
    · exact ⟨h.memWf, h.memInSpace, h.bufBound⟩
    · exact ⟨h.memWf, h.memInSpace, h.bufBound⟩
    · exact ⟨h.memWf, h.memInSpace, Acc.push_buf_lt _ _ _ _⟩
  · exact ⟨h.memWf, h.memInSpace, h.bufBound⟩

/-! STATUS changes at the completion alone (10_state.md R41). -/

theorem encodeMain_status {s : State} (hrun : (encodeMain s).phase = .run) : (encodeMain s).status = s.status := by
  rcases encodeMain_cases s with ⟨-, hs⟩ | ⟨-, -, hs⟩ | ⟨-, -, -, hs⟩ | ⟨-, -, -, -, -, hs⟩ | ⟨-, -, -, -, hs⟩ <;>
    rw [hs] at hrun ⊢
  case inr.inr.inr.inr => cases hrun
  all_goals rfl

theorem decodeMain_status {s : State} (hrun : (decodeMain s).phase = .run) : (decodeMain s).status = s.status := by
  rcases decodeMain_cases s with ⟨-, hs⟩ | ⟨-, -, hs⟩ | ⟨-, -, hs⟩ <;> rw [hs] at hrun ⊢
  · rfl
  · rcases decodeChar_cases s (s.mem.read (s.src + s.inPos)) with ⟨-, -, hc⟩ | ⟨-, -, hc⟩ | ⟨-, v, -, hc⟩ <;> rw [hc]
  · cases hrun

/-! The main passes: their cursors. -/

/-- An ENCODE never passes the required size. -/
theorem EncodeLoop.outPos_le {s u : State} (h : EncodeLoop s u) : u.outPos ≤ encodedLenPadded s.config.toParams s.len := by
  obtain ⟨hbits, -, hpadded, -, -⟩ := encodedLen_bounds s.config s.len
  have hK := s.config.chunkBits_ge
  rcases h.bits with hmoved | ⟨-, -, -, hle⟩
  · have hin := h.inPos
    have hmul : u.outPos * s.config.chunkBits ≤ encodedLen s.config.toParams s.len * s.config.chunkBits := by omega
    exact Nat.le_trans (Nat.le_of_mul_le_mul_right hmul (by omega)) hpadded
  · exact hle

/-- A DECODE writes no more bytes than the input has characters. -/
theorem DecodeLoop.outPos_le {s u : State} (h : DecodeLoop s u) : u.outPos ≤ s.len := by
  have hK := Nat.mul_le_mul h.inPos s.config.chunkBits_le
  have hbits := h.bits
  omega

/-- In its main pass an ENCODE is in the loop that starts where it stands. -/
theorem State.Inv.encodeLoop {s : State} (h : s.Inv) (hrun : s.phase = .run) (hctl : s.ctl = .main)
    (hi : s.running = .ok .encode) : EncodeLoop s s where
  frame := CommandFrame.rfl' s
  phase := hrun
  ctl := hctl
  inPos := (h.mainInRange hrun hctl).2
  held := h.heldBound
  bits := (h.encodeCounts hrun hi hctl).2
  mem := KeepsOutside.refl _ _ _

/-- In its main pass a DECODE is in the loop that starts where it stands. -/
theorem State.Inv.decodeLoop {s : State} (h : s.Inv) (hrun : s.phase = .run) (hctl : s.ctl = .main)
    (hi : s.running = .ok .decode) : DecodeLoop s s where
  frame := CommandFrame.rfl' s
  phase := hrun
  ctl := .inl hctl
  inPos := (h.mainInRange hrun hctl).2
  beforeEnd := fun hne => absurd hctl hne
  held := h.heldBound
  bits := h.decodeCounts hrun hi hctl
  mem := KeepsOutside.refl _ _ _

theorem State.Inv.encodeMain {s : State} (h : s.Inv) (hrun : s.phase = .run) (hctl : s.ctl = .main)
    (hi : s.running = .ok .encode) : (encodeMain s).Inv := by
  obtain ⟨hsrc, hdst⟩ := (h.mainInRange hrun hctl).1
  obtain ⟨hspace, -⟩ := h.encodeCounts hrun hi hctl
  rcases encodeMain_loop (h.encodeLoop hrun hctl hi) with ⟨hdone, -, -⟩ | ⟨hloop, -⟩
  · rw [hdone]
    exact h.finish _
  · have hout := hloop.outPos_le
    have hin := hloop.inPos
    have hcfg := hloop.frame.config
    obtain ⟨-, hlen, -, hcap⟩ := hloop.frame.operands
    have hsrc' := badSrc_eq_false.mp hsrc
    have hdst' := badDst_eq_false.mp hdst
    refine h.goes_on hloop.frame (encodeMain_status hloop.phase) (hloop.phase.trans hrun.symm) (h.storage.encodeMain hdst)
      ⟨?_, ?_, ?_⟩ fun _ => ?_
    · rw [hcfg]
      exact hloop.held
    · rw [hcfg]
      omega
    · rw [hcfg]
      omega
    · have hcounts : (Machine.encodeMain s).EncodeCounts := by
        rw [State.EncodeCounts, hcfg, hlen, hcap]
        exact ⟨hspace, hloop.bits⟩
      refine .of_main hloop.ctl ⟨hloop.frame.regionsInRange.mpr ⟨hsrc, hdst⟩, hlen ▸ hin, fun _ => hcounts, fun hdec => ?_⟩
      rw [hloop.frame.running, hi] at hdec
      cases hdec

theorem State.Inv.decodeMain {s : State} (h : s.Inv) (hrun : s.phase = .run) (hctl : s.ctl = .main)
    (hi : s.running = .ok .decode) : (decodeMain s).Inv := by
  obtain ⟨hsrc, hdst⟩ := (h.mainInRange hrun hctl).1
  have htick : decodeTick s = .next (Machine.decodeMain s) := by simp only [decodeTick, hctl]
  rcases decodeTick_loop (h.decodeLoop hrun hctl hi) with ⟨⟨hend, -⟩ | ⟨ch, hend, -⟩, -⟩ | ⟨t, hnext, hloop, -⟩
  · rw [Host.Outcome.next.inj (htick.symm.trans hend)]
    exact h.finish _
  · rw [Host.Outcome.next.inj (htick.symm.trans hend)]
    exact h.raise _
  · obtain rfl := Host.Outcome.next.inj (htick.symm.trans hnext)
    have hout := hloop.outPos_le
    have hin := hloop.inPos
    have hcfg := hloop.frame.config
    obtain ⟨-, hlen, -, -⟩ := hloop.frame.operands
    have hsrc' := badSrc_eq_false.mp hsrc
    refine h.goes_on hloop.frame (decodeMain_status hloop.phase) (hloop.phase.trans hrun.symm) (h.storage.decodeMain hdst)
      ⟨?_, ?_, ?_⟩ fun _ => ?_
    · rw [hcfg]
      exact hloop.held
    · rw [hcfg]
      omega
    · rw [hcfg]
      omega
    · rcases hloop.ctl with hmain | hstop | ⟨ch, hinvalid⟩
      · refine .of_main hmain ⟨hloop.frame.regionsInRange.mpr ⟨hsrc, hdst⟩, hlen ▸ hin, fun henc => ?_, fun _ => ?_⟩
        · rw [hloop.frame.running, hi] at henc
          cases henc
        · rw [hcfg]
          exact hloop.bits
      · simp only [State.ControlInv, hstop]
      · simp only [State.ControlInv, hinvalid]

/-! Every command. -/

theorem State.Inv.encodeTick {s t : State} (h : s.Inv) (hrun : s.phase = .run) (hi : s.running = .ok .encode)
    (ht : encodeTick s = .next t) : t.Inv := by
  have hstart : (encodeStart s).Inv := by
    rcases encodeStart_cases s with ⟨-, hs⟩ | ⟨-, -, hs⟩ | ⟨hregions, hspace, hs⟩ <;> rw [hs]
    · exact h.raise _
    · exact h.raise _
    · exact h.startMain hregions fun _ => hspace
  unfold Machine.encodeTick at ht
  split at ht <;> cases ht
  · next hctl => exact h.encodeMain hrun hctl hi
  all_goals exact hstart

theorem State.Inv.decodeTick {s t : State} (h : s.Inv) (hrun : s.phase = .run) (hi : s.running = .ok .decode)
    (ht : decodeTick s = .next t) : t.Inv := by
  unfold Machine.decodeTick at ht
  split at ht <;> cases ht
  · unfold decodeStart
    split
    · exact h.raise _
    · next hregions =>
      simp only [Bool.or_eq_true, not_or, Bool.not_eq_true] at hregions
      exact h.setCtl _ fun _ => ⟨hregions.1, fun _ => hregions.2⟩
  · next k hctl => exact h.prescanStep hctl
  · next k hctl =>
    unfold decodeSized
    split
    · exact h.raise _
    · obtain ⟨hsrc, hdst⟩ := h.prescanInRange hrun k (.inr hctl)
      exact h.startMain ⟨hsrc, hdst hi⟩ fun henc => by rw [hi] at henc; cases henc
  · next hctl => exact h.decodeMain hrun hctl hi
  · exact h.finish _
  · exact h.raise _

theorem State.Inv.decLenStripTick {s t : State} (h : s.Inv) (hi : s.running = .ok .decLenStrip)
    (ht : decLenStripTick s = .next t) : t.Inv := by
  have hstart : (if s.badSrc = true then Machine.raise (.addressRange true false) s else { s with ctl := .prescan 0 }).Inv := by
    split
    · exact h.raise _
    · next hsrc =>
      exact h.setCtl _ fun _ => ⟨Bool.eq_false_of_not_eq_true hsrc, fun hdec => nomatch hi.symm.trans hdec⟩
  unfold Machine.decLenStripTick at ht
  split at ht <;> cases ht
  · next k hctl => exact h.prescanStep hctl
  · exact h.finish _
  all_goals exact hstart

/-- Every engine step of the running command keeps the invariant. -/
theorem State.Inv.tick {s t : State} {i : Instr} (h : s.Inv) (hrun : s.phase = .run) (hi : s.running = .ok i)
    (ht : tick i s = .next t) : t.Inv := by
  cases i
  case encode => exact h.encodeTick hrun hi ht
  case decode => exact h.decodeTick hrun hi ht
  case decLenStrip => exact h.decLenStripTick hi ht
  case symbolAt =>
    simp only [Machine.tick, execSymbolAt] at ht
    split at ht <;> cases ht
    · exact h.raise _
    · exact h.finish _
  case decodeByte =>
    simp only [Machine.tick, execDecodeByte] at ht
    split at ht <;> cases ht
    · exact h.finish _
    · exact h.finish _
  all_goals
    cases ht
    exact h.finish _

/-- The engine's turn keeps the invariant. -/
theorem State.Inv.engineTurn {s t : State} (h : s.Inv) (ht : engineTurn s = .next t) : t.Inv := by
  rcases engineTurn_cases ht with ⟨-, rfl⟩ | ⟨hrun, i, hi, htick⟩ | ⟨-, -, rfl⟩
  · exact h
  · exact h.tick hrun hi htick
  · exact h.raise _

/-- What holds at every step of a command that goes on, and at its completion, holds at the end of its run. -/
theorem runEngine_ends {f : State → Outcome} {P Q : State → Prop} (hf : ∀ s t, P s → f s = .next t → Q t)
    (hP : ∀ s t, P s → f s = .next t → t.phase = .run → P t) :
    ∀ fuel s t, P s → runEngine f fuel s = .next t → Q t := by
  intro fuel
  induction fuel with
  | zero => intro s t _ h; cases h
  | succ fuel ih =>
    intro s t hs h
    unfold runEngine at h
    split at h
    · next u hu =>
      split at h
      · cases h
        exact hf s t hs hu
      · next hne =>
        refine ih u t (hP s u hs hu ?_) h
        cases hphase : u.phase
        · exact absurd hphase hne
        · rfl
    · cases h
    · cases h

/-- A command line of an idle block keeps the invariant, at its acceptance and at every engine step up to its completion. -/
theorem State.Inv.exec_accept {s t : State} {w : Word} {i : Instr} (h : s.Inv) (hw : decodeWord w = .ok i)
    (ht : exec i (Machine.accept w s) = .next t) : t.Inv := by
  have haccepted : (Machine.accept w s).Inv ∧ (Machine.accept w s).phase = .run ∧ (Machine.accept w s).running = .ok i :=
    ⟨h.accept w, rfl, hw⟩
  rcases exec_eq_run i (Machine.accept w s) with he | ⟨fuel, he⟩
  · obtain ⟨hinv, hrun, hi⟩ := haccepted
    exact hinv.tick hrun hi (he ▸ ht)
  · refine runEngine_ends (P := fun u => u.Inv ∧ u.phase = .run ∧ u.running = .ok i) (Q := State.Inv) ?_ ?_ fuel
      (atStart (Machine.accept w s)) t haccepted (he ▸ ht)
    · rintro u v ⟨hinv, hrun, hi⟩ huv
      exact hinv.tick hrun hi huv
    · rintro u v ⟨hinv, hrun, hi⟩ huv hrun'
      exact ⟨hinv.tick hrun hi huv, hrun', (tick_frame huv).running.trans hi⟩

/-- Settles O52: by the cases of a step. -/
theorem invariantKeptByEveryStep : Obligations.InvariantKeptByEveryStep := by
  intro s t h hstep
  have hpopped (rest : List Event) : (s.popped rest).Inv := h.setHost rest s.reply s.draws
  cases step_result hstep with
  | hostOnly rest reply draws => exact h.setHost rest reply draws
  | operands rest src n dst cap idle => exact h.setOperands idle rest src n dst cap
  | accepted rest w idle => exact (hpopped rest).accept w
  | memWrite rest a v inSpace noHazard => exact h.memWrite rest v inSpace
  | reset rest => exact (hpopped rest).doReset
  | turn rest t turned => exact (hpopped rest).engineTurn turned
  | command rest w i t idle legal done => exact (hpopped rest).exec_accept legal done
  | illegal rest w idle => exact ((hpopped rest).accept w).raise _

end Sys2Proof.Machine
end

section
/-! The register words and the register reads of an idle block (10_state.md R38 to R44), and the preset rows (10_state.md R23). -/

open Sys2Proof Sys2Proof.Machine

namespace Sys2Proof.Machine

/-! ### The fields of CFG and STATUS -/

/-- A bit of a register given as a sum of its fields. -/
theorem getLsbD_ofNat_eq {x i : Nat} {b : Bool} (hi : i < 32) (h : x / 2 ^ i % 2 = b.toNat) :
    (BitVec.ofNat 32 x).getLsbD i = b := by
  rw [BitVec.getLsbD_ofNat, Nat.testBit_eq_decide_div_mod_eq, h]
  cases b <;> simp [hi]

/-- A field of a register given as a sum of its fields, n bits from bit i. -/
theorem toNat_extractLsb'_ofNat {x : Nat} (hx : x < 2 ^ 32) (i n : Nat) :
    ((BitVec.ofNat 32 x).extractLsb' i n).toNat = x / 2 ^ i % 2 ^ n := by
  rw [BitVec.extractLsb'_toNat, BitVec.toNat_ofNat, Nat.mod_eq_of_lt hx, Nat.shiftRight_eq_div_pow]

theorem presetId_lt (id : Preset) : presetId id < 16 := by cases id <;> decide

/-- The fields of CFG, whatever the parameters: K modulo 8, the four flags, the preset's number, and 0 in every other bit. -/
theorem cfgWord_fields (p : Params) :
    ((cfgWord p).extractLsb' 0 3).toNat = p.chunkBits % 8 ∧ (cfgWord p).getLsbD 3 = p.padEn ∧
      (cfgWord p).getLsbD 4 = p.caseSens ∧ (cfgWord p).getLsbD 5 = (p.strategy == .linear) ∧
      (cfgWord p).getLsbD 6 = !p.aliases.isEmpty ∧ (cfgWord p).getLsbD 7 = false ∧
      ((cfgWord p).extractLsb' 8 4).toNat = presetId p.preset ∧ (cfgWord p).extractLsb' 12 20 = 0 := by
  have hk : p.chunkBits % 8 < 8 := Nat.mod_lt _ (by decide)
  have hpad := Bool.toNat_le p.padEn
  have hcase := Bool.toNat_le p.caseSens
  have hlinear := Bool.toNat_le (p.strategy == .linear)
  have halias := Bool.toNat_le (!p.aliases.isEmpty)
  have hid := presetId_lt p.preset
  unfold cfgWord
  generalize p.chunkBits % 8 = k at *
  refine ⟨?_, getLsbD_ofNat_eq (by decide) ?_, getLsbD_ofNat_eq (by decide) ?_, getLsbD_ofNat_eq (by decide) ?_,
    getLsbD_ofNat_eq (by decide) ?_, getLsbD_ofNat_eq (by decide) ?_, ?_, BitVec.eq_of_toNat_eq ?_⟩
  · rw [toNat_extractLsb'_ofNat (by omega)]
    omega
  · omega
  · omega
  · omega
  · omega
  · rw [Bool.toNat_false]
    omega
  · rw [toNat_extractLsb'_ofNat (by omega)]
    omega
  · rw [toNat_extractLsb'_ofNat (by omega)]
    show _ = 0
    omega

/-- Settles O13: the fields from `cfgWord_fields`, the constancy from that of the configuration, and the two examples. -/
theorem cfgFields : Obligations.CfgFields := by
  refine ⟨fun c => ?_, fun s t h => ?_, fun hf aw accWidth base => ⟨?_, ?_⟩⟩
  · obtain ⟨hk, hpad, hcase, hlinear, halias, hrest⟩ := cfgWord_fields c.toParams
    have hK : c.chunkBits % 8 = c.chunkBits := Nat.mod_eq_of_lt (by have := c.chunkBits_le; omega)
    refine ⟨hk.trans hK, hpad, hcase, hlinear, halias.trans ?_, hrest⟩
    cases c.aliases <;> rfl
  · rw [configurationNeverChanges s t h]
  · rintro p ⟨⟩
    simp [cfgWord, presetId, show (Strategy.lut == .linear) = false from rfl]
  · rintro p ⟨⟩
    simp [cfgWord, presetId]

/-- Settles O14: STATUS as the sum of its fields. -/
theorem statusFields : Obligations.StatusFields := by
  intro st
  have hbusy := Bool.toNat_le st.busy
  have hdone := Bool.toNat_le st.done
  have herr := Bool.toNat_le st.err
  have hcode := st.errCode.isLt
  unfold Status.word
  refine ⟨getLsbD_ofNat_eq (by decide) ?_, getLsbD_ofNat_eq (by decide) ?_, getLsbD_ofNat_eq (by decide) ?_,
    getLsbD_ofNat_eq (by decide) ?_, BitVec.eq_of_toNat_eq ?_, BitVec.eq_of_toNat_eq ?_⟩
  · omega
  · omega
  · omega
  · rw [Bool.toNat_false]
    omega
  · rw [toNat_extractLsb'_ofNat (by omega)]
    omega
  · rw [toNat_extractLsb'_ofNat (by omega)]
    show _ = 0
    omega

/-! ### The register reads of an idle block -/

/-- The value of a register. -/
def State.regValue (s : State) : Reg → Word
  | .cfg => cfgWord s.config.toParams
  | .cmd => s.cmd
  | .status => s.status.word
  | .srcAddr => s.srcAddr
  | .srcLen => s.srcLen
  | .dstAddr => s.dstAddr
  | .dstCap => s.dstCap
  | .resultLo => s.resultLo
  | .resultHi => s.resultHi
  | .errInfo => s.errInfo

/-- A read of an idle block's register gives its value. -/
theorem readReg_of_idle {s : State} (hidle : s.status.busy = false) (r : Reg) : readReg r s = answer (s.regValue r) s := by
  have hresult (w : Word) : readResult w s = answer w s := if_neg (by rw [hidle]; decide)
  cases r
  case resultLo => exact hresult s.resultLo
  case resultHi => exact hresult s.resultHi
  case errInfo => exact hresult s.errInfo
  all_goals rfl

theorem regAt_regOffset (r : Reg) : regAt (regOffset r) = some r := by cases r <;> decide

/-- An aligned word access at offset o of the window reaches that offset. -/
theorem windowAccess_offset (s : State) (k : Nat → State) {o : Nat} (hwindow : o < 0x100) (haligned : o % 4 = 0) :
    windowAccess 4 (s.config.base + o) s k = .next (k o) := by
  unfold windowAccess
  rw [if_pos (by omega), Nat.add_sub_cancel_left, if_pos ⟨rfl, haligned⟩]

/-- A read at a register's offset reads the register. -/
theorem hostRegRead_regOffset (r : Reg) (s : State) :
    hostRegRead 4 (s.config.base + regOffset r) s = .next (readReg r s) := by
  unfold hostRegRead
  rw [windowAccess_offset s _ (by cases r <;> decide) (by cases r <;> decide), regAt_regOffset]

/-- A step that reads a register of an idle block. -/
theorem step_regRead_of_idle {s : State} {rest : List Event} (hidle : s.status.busy = false) (r : Reg)
    (hevents : s.events = .regRead 4 (s.config.base + regOffset r) :: rest) :
    step s = .next { s with events := rest, reply := .word (s.regValue r) } := by
  have hread : readReg r (s.popped rest) = answer (s.regValue r) (s.popped rest) :=
    readReg_of_idle (s := s.popped rest) hidle r
  unfold step
  rw [hevents]
  exact (hostRegRead_regOffset r (s.popped rest)).trans (congrArg _ hread)

/-- Settles O11: the ten offsets are those of the ten registers. -/
theorem registerReadsWhileIdle : Obligations.RegisterReadsWhileIdle := by
  intro s rest hidle x hx hevents
  obtain ⟨r, rfl⟩ : ∃ r, (regOffset r, s.regValue r) = x := by
    have hmap : x ∈ [Reg.cfg, .cmd, .status, .srcAddr, .srcLen, .dstAddr, .dstCap, .resultLo, .resultHi, .errInfo].map
      fun r => (regOffset r, s.regValue r) := hx
    obtain ⟨r, -, hr⟩ := List.mem_map.mp hmap
    exact ⟨r, hr⟩
  exact step_regRead_of_idle hidle r hevents

/-! ### The preset rows -/

/-- Validity does not depend on STRATEGY, AW and BASE, and on W only by its bound. -/
theorem valid_of_valid {p : Params} (h : p.valid = true) (st : Strategy) (aw base : Nat) {accWidth : Nat} (hW : 13 ≤ accWidth) :
    Params.valid { p with strategy := st, aw := aw, accWidth := accWidth, base := base } = true := by
  obtain ⟨h1, h2, h3, h4, h5, h6, h7, h8, -⟩ := Params.valid_parts h
  have hwidth : Params.accWidthOk { p with strategy := st, aw := aw, accWidth := accWidth, base := base } = true :=
    decide_eq_true hW
  simp only [Params.valid, Bool.and_eq_true]
  exact ⟨⟨⟨⟨⟨⟨⟨⟨h1, h2⟩, h3⟩, h4⟩, h5⟩, h6⟩, h7⟩, h8⟩, hwidth⟩

/-- The row of every preset at one STRATEGY, AW, W and BASE is valid. -/
theorem presetRow_valid (id : Preset) : ∀ p ∈ presetParams id .lut alphabetHumanDefault 0 13 0, p.valid = true := by
  cases id <;> decide

/-- The row of a preset differs from one STRATEGY, AW, W and BASE to another in these fields alone. -/
theorem presetParams_eq_map (id : Preset) (st : Strategy) (hf : List Byte) (aw accWidth base : Nat) :
    presetParams id st hf aw accWidth base = (presetParams id .lut hf 0 13 0).map fun p =>
      { p with strategy := st, aw := aw, accWidth := accWidth, base := base } := by
  cases id <;> rfl

/-- Settles O37: each row is valid at one choice of STRATEGY, AW, W and BASE, and so at every choice with W >= 13. -/
theorem presetRowsAreValid : Obligations.PresetRowsAreValid := by
  intro id st aw accWidth base hW p hp
  rw [presetParams_eq_map] at hp
  obtain ⟨q, hq, rfl⟩ := Option.mem_map.mp hp
  exact valid_of_valid (presetRow_valid id q hq) st aw base hW

end Sys2Proof.Machine
end

section
/-! The two grains of a command (20_memory.md R70): the engine's turns, one by one, against exec, which runs the same engine steps
to the completion. -/

open Sys2Proof Sys2Proof.Machine

namespace Sys2Proof.Machine

theorem decodeWord_encode (i : Instr) : decodeWord (encode i) = .ok i := by
  rw [decodeWord_eq, rsvField_encode, opcodeField_encode, decodeFields_zero, (ofOpcode_eq_some i.opcode i).mpr rfl]

/-- The block that has accepted a command's word runs that command. -/
theorem running_accept_encode (i : Instr) (s : State) : (accept (encode i) s).running = .ok i := decodeWord_encode i

/-- A turn of a running command is one engine step of it. -/
theorem engineTurn_of_running {i : Instr} {s : State} (hrun : s.phase = .run) (hi : s.running = .ok i) :
    engineTurn s = tick i s := by
  simp only [engineTurn, engineStep, hrun, hi]

theorem turns_succ {s u : State} (h : engineTurn s = .next u) (k : Nat) : turns (k + 1) s = turns k u := by
  simp only [turns, h]

/-- A running command that completes within some fuel completes after at most as many turns, in the same state. -/
theorem turns_of_runEngine {i : Instr} {fuel : Nat} {s t : State} (hrun : s.phase = .run) (hi : s.running = .ok i)
    (h : runEngine (tick i) fuel s = .next t) : ∃ k ≤ fuel, turns k s = .next t := by
  induction fuel generalizing s with
  | zero => cases h
  | succ fuel ih =>
    obtain ⟨u, hu⟩ := tick_next i s
    have hturn : engineTurn s = .next u := (engineTurn_of_running hrun hi).trans hu
    cases hphase : u.phase with
    | idle =>
      rw [runEngine_now hu hphase (Nat.succ_pos fuel)] at h
      exact ⟨1, by omega, (turns_succ hturn 0).trans h⟩
    | run =>
      rw [runEngine_step hu hphase] at h
      obtain ⟨k, hk, hturns⟩ := ih hphase ((tick_frame hu).running.trans hi) h
      exact ⟨k + 1, by omega, (turns_succ hturn k).trans hturns⟩

/-- Settles O59: exec runs the engine steps that the turns make, until the command completes. -/
theorem turnsReachTheCommandsEffect : Obligations.TurnsReachTheCommandsEffect := by
  intro i s t h
  have hrunning : (accept (encode i) s).running = .ok i := running_accept_encode i s
  have hidle : t.phase = .idle := exec_phase h
  rcases exec_eq_run i (accept (encode i) s) with hone | ⟨fuel, hrun⟩
  · have hturn : engineTurn (accept (encode i) s) = .next t := (engineTurn_of_running rfl hrunning).trans (hone ▸ h)
    exact ⟨1, turns_succ hturn 0, hidle⟩
  · obtain ⟨k, -, hturns⟩ := turns_of_runEngine (s := accept (encode i) s) rfl hrunning (hrun.symm.trans h)
    exact ⟨k, hturns, hidle⟩

end Sys2Proof.Machine
end

section
/-! What an engine step can do, said once: complete the command, move, or write one byte; and which commands use data memory
(20_memory.md R61, R66, R68, R71). -/

open Sys2Proof Sys2Proof.Machine

namespace Sys2Proof.Machine

/-- What one engine step of command i can lead to from s. -/
inductive TickResult (i : Instr) (s : State) : State → Prop where
  /-- The command completes, with DONE or with an error. -/
  | completed (st : Status) (result : Nat) (info : Word) (notBusy : st.busy = false) :
      TickResult i s (complete st result info s)
  /-- The engine moves, without a write; its output cursor stays or is cleared. -/
  | moved (ctl : ControlPoint) (acc : Acc) (inPos outPos : Nat) (cursor : outPos = s.outPos ∨ outPos = 0) :
      TickResult i s { s with ctl := ctl, acc := acc, inPos := inPos, outPos := outPos }
  /-- The main pass of ENCODE or DECODE writes one byte. -/
  | wrote (v : Byte) (acc : Acc) (inMain : s.ctl = .main) (writer : i = .encode ∨ i = .decode) :
      TickResult i s (emit v { s with acc := acc })

theorem TickResult.finish (i : Instr) (r : Nat) (s : State) : TickResult i s (finish r s) := .completed _ _ _ rfl

theorem TickResult.raise (i : Instr) (e : ErrorKind) (s : State) : TickResult i s (raise e s) := .completed _ _ _ rfl

theorem TickResult.setCtl (i : Instr) (c : ControlPoint) (s : State) : TickResult i s { s with ctl := c } :=
  .moved _ _ _ _ (.inl rfl)

theorem TickResult.startMain (i : Instr) (s : State) : TickResult i s (startMain s) := .moved _ _ _ _ (.inr rfl)

theorem prescanStep_result (i : Instr) (k : Nat) (s : State) : TickResult i s (prescanStep k s) := by
  rcases prescanStep_cases k s with ⟨-, -, hs⟩ | ⟨-, -, hs⟩ | ⟨-, hs⟩ <;> rw [hs] <;> exact .setCtl i _ s

theorem encodeStart_result (s : State) : TickResult .encode s (encodeStart s) := by
  rcases encodeStart_cases s with ⟨-, hs⟩ | ⟨-, -, hs⟩ | ⟨-, -, hs⟩ <;> rw [hs]
  · exact .raise _ _ _
  · exact .raise _ _ _
  · exact .startMain _ _

theorem encodeMain_result {s : State} (hctl : s.ctl = .main) : TickResult .encode s (encodeMain s) := by
  rcases encodeMain_cases s with ⟨-, hs⟩ | ⟨-, -, hs⟩ | ⟨-, -, -, hs⟩ | ⟨-, -, -, -, -, hs⟩ | ⟨-, -, -, -, hs⟩ <;> rw [hs]
  · exact .wrote _ _ hctl (.inl rfl)
  · exact .moved _ _ _ _ (.inl rfl)
  · exact .wrote _ _ hctl (.inl rfl)
  · exact .wrote _ s.acc hctl (.inl rfl)
  · exact .finish _ _ _

theorem decodeStart_result (s : State) : TickResult .decode s (decodeStart s) := by
  unfold decodeStart
  split
  · exact .raise _ _ _
  · exact .setCtl _ _ _

theorem decodeSized_result (k : Nat) (s : State) : TickResult .decode s (decodeSized k s) := by
  unfold decodeSized
  split
  · exact .raise _ _ _
  · exact .startMain _ _

theorem decodeChar_result (s : State) (ch : Byte) : TickResult .decode s (decodeChar s ch) := by
  rcases decodeChar_cases s ch with ⟨-, -, hs⟩ | ⟨-, -, hs⟩ | ⟨-, v, -, hs⟩ <;> rw [hs] <;>
    exact .moved _ _ _ _ (.inl rfl)

theorem decodeMain_result {s : State} (hctl : s.ctl = .main) : TickResult .decode s (decodeMain s) := by
  rcases decodeMain_cases s with ⟨-, hs⟩ | ⟨-, -, hs⟩ | ⟨-, -, hs⟩ <;> rw [hs]
  · exact .wrote _ _ hctl (.inr rfl)
  · exact decodeChar_result s _
  · exact .finish _ _ _

/-! The commands that make no data-memory access: their completion, in every memory. -/

theorem execDecodeByte_of_some {s : State} {v : Nat} (h : lookupByte s.config.toParams s.byteOperand = some v) :
    execDecodeByte s = .next (finish ((1 <<< 8) ||| v) s) := by
  simp only [execDecodeByte, h]

theorem execDecodeByte_of_none {s : State} (h : lookupByte s.config.toParams s.byteOperand = none) :
    execDecodeByte s = .next (finish 0 s) := by
  simp only [execDecodeByte, h]

/-- A command other than ENCODE, DECODE and DEC_LEN_STRIP is one completion, whose STATUS, RESULT and ERR_INFO no byte of memory
enters. -/
theorem exec_completes_in_every_memory {i : Instr} (hi : i ∉ [Instr.encode, .decode, .decLenStrip]) (s : State) :
    ∃ st r info, st.busy = false ∧
      ∀ m : Memory, exec i { s with mem := m } = .next (complete st r info { s with mem := m }) := by
  cases i with
  | encode | decode | decLenStrip => exact absurd (by decide) hi
  | encLen => exact ⟨statusDone, encodedLen s.config.toParams s.len, 0, rfl, fun _ => rfl⟩
  | encLenPad => exact ⟨statusDone, encodedLenPadded s.config.toParams s.len, 0, rfl, fun _ => rfl⟩
  | decLen => exact ⟨statusDone, decodedLen s.config.toParams s.len, 0, rfl, fun _ => rfl⟩
  | symbolAt =>
    by_cases hrange : s.config.radix ≤ s.indexOperand
    · exact ⟨statusError 4, 0, 0, rfl, fun _ => if_pos hrange⟩
    · exact ⟨statusDone, (symbolAt s.config.toParams s.indexOperand).toNat, 0, rfl, fun _ => if_neg hrange⟩
  | decodeByte =>
    cases hbyte : lookupByte s.config.toParams s.byteOperand with
    | some v => exact ⟨statusDone, (1 <<< 8) ||| v, 0, rfl, fun m => execDecodeByte_of_some (s := { s with mem := m }) hbyte⟩
    | none => exact ⟨statusDone, 0, 0, rfl, fun m => execDecodeByte_of_none (s := { s with mem := m }) hbyte⟩

theorem exec_eq_tick {i : Instr} (hi : i ∉ [Instr.encode, .decode, .decLenStrip]) (s : State) : exec i s = tick i s := by
  cases i with
  | encode | decode | decLenStrip => exact absurd (by decide) hi
  | encLen | encLenPad | decLen | symbolAt | decodeByte => rfl

theorem tick_result_without_access {i : Instr} (hi : i ∉ [Instr.encode, .decode, .decLenStrip]) {s t : State}
    (h : tick i s = .next t) : TickResult i s t := by
  obtain ⟨st, r, info, hbusy, hexec⟩ := exec_completes_in_every_memory hi s
  rw [← exec_eq_tick hi] at h
  cases (hexec s.mem).symm.trans h
  exact .completed st r info hbusy

/-- Every engine step of every command is one of the cases of `TickResult`. -/
theorem tick_result {i : Instr} {s t : State} (h : tick i s = .next t) : TickResult i s t := by
  cases i with
  | encode =>
    simp only [tick, encodeTick] at h
    split at h <;> cases h
    · next hctl => exact encodeMain_result hctl
    all_goals exact encodeStart_result s
  | decode =>
    simp only [tick, decodeTick] at h
    split at h <;> cases h
    · exact decodeStart_result s
    · exact prescanStep_result _ _ s
    · exact decodeSized_result _ s
    · next hctl => exact decodeMain_result hctl
    · exact .finish _ _ _
    · exact .raise _ _ _
  | decLenStrip =>
    simp only [tick, decLenStripTick] at h
    split at h <;> cases h
    · exact prescanStep_result _ _ s
    · exact .finish _ _ _
    all_goals
      split
      · exact .raise _ _ _
      · exact .setCtl _ _ _
  | encLen | encLenPad | decLen | symbolAt | decodeByte => exact tick_result_without_access (by decide) h

/-- Only ENCODE and DECODE write in an engine step. -/
theorem TickResult.mem {i : Instr} {s t : State} (h : TickResult i s t) (henc : i ≠ .encode) (hdec : i ≠ .decode) :
    t.mem = s.mem := by
  cases h with
  | completed | moved => rfl
  | wrote v acc inMain writer =>
    rcases writer with hi | hi
    · exact absurd hi henc
    · exact absurd hi hdec

/-- A command other than ENCODE and DECODE leaves memory as it was. -/
theorem exec_mem {i : Instr} {s t : State} (henc : i ≠ .encode) (hdec : i ≠ .decode) (h : exec i s = .next t) :
    t.mem = s.mem := by
  rcases exec_eq_run i s with he | ⟨fuel, he⟩
  · exact (tick_result (he ▸ h)).mem henc hdec
  · exact (runEngine_keeps (P := fun u => u.mem = s.mem) (fun u v hu hv => ((tick_result hv).mem henc hdec).trans hu) fuel
      (atStart s) t rfl (he ▸ h)).1

/-- Settles O55: no engine step of another command writes, and a command that makes no access is one completion. -/
theorem whichCommandsUseMemory : Obligations.WhichCommandsUseMemory := by
  refine ⟨fun i s t henc hdec h => exec_mem henc hdec h, fun i s t m hi h => ?_⟩
  obtain ⟨st, r, info, -, hexec⟩ := exec_completes_in_every_memory hi s
  cases (hexec s.mem).symm.trans h
  exact hexec m

/-- In a state of the invariant an ENCODE that advances OUT_POS has had it below DST_CAP. -/
theorem State.Inv.encode_outPos_lt {s : State} (h : s.Inv) (hrun : s.phase = .run) (hctl : s.ctl = .main)
    (hi : s.running = .ok .encode) (hwrote : (Machine.encodeMain s).outPos = s.outPos + 1) : s.outPos < s.cap := by
  have hspace := (h.encodeCounts hrun hi hctl).1
  rcases encodeMain_loop (h.encodeLoop hrun hctl hi) with ⟨hdone, -, -⟩ | ⟨hloop, -⟩
  · rw [hdone, finish_outPos] at hwrote
    omega
  · have hle := hloop.outPos_le
    omega

/-- In a state of the invariant a turn that advances OUT_POS past the destination region is a DECODE's. -/
theorem State.Inv.running_decode_of_full {i : Instr} {s t : State} (h : s.Inv) (hrun : s.phase = .run) (hi : s.running = .ok i)
    (htick : Machine.tick i s = .next t) (hctl : s.ctl = .main) (hwriter : i = .encode ∨ i = .decode)
    (hwrote : t.outPos = s.outPos + 1) (hfull : s.cap ≤ s.outPos) : s.running = .ok .decode := by
  rcases hwriter with rfl | rfl
  · have hstep : Machine.encodeMain s = t := by
      simpa only [Machine.tick, Machine.encodeTick, hctl, Host.Outcome.next.injEq] using htick
    have hlt := h.encode_outPos_lt hrun hctl hi (hstep ▸ hwrote)
    omega
  · exact hi

/-- Settles O56: by the cases of the engine's turn and of its step. -/
theorem engineStepWritesOneByte : Obligations.EngineStepWritesOneByte := by
  intro s t h
  refine ⟨engineTurn_frame h, ?_⟩
  rcases engineTurn_cases h with ⟨-, rfl⟩ | ⟨hrun, i, hi, htick⟩ | ⟨-, -, rfl⟩
  · exact ⟨fun _ => ⟨rfl, rfl, rfl, rfl⟩, .inl ⟨rfl, .inl rfl⟩⟩
  · cases tick_result htick with
    | completed st r info notBusy => exact ⟨fun hbusy => absurd (notBusy.symm.trans hbusy) Bool.false_ne_true, .inl ⟨rfl, .inl rfl⟩⟩
    | moved ctl acc inPos outPos cursor => exact ⟨fun _ => ⟨rfl, rfl, rfl, rfl⟩, .inl ⟨rfl, cursor⟩⟩
    | wrote v acc inMain writer =>
      have hsame : SameOutcome s (emit v { s with acc := acc }) := ⟨rfl, rfl, rfl, rfl⟩
      exact ⟨fun _ => hsame, .inr ⟨v, rfl, rfl, hsame, fun hinv hfull =>
        hinv.running_decode_of_full hrun hi htick inMain writer rfl hfull⟩⟩
  · exact ⟨nofun, .inl ⟨rfl, .inl rfl⟩⟩

end Sys2Proof.Machine
end

section
/-! The host accesses that the block does not serve: those of the register window that are not aligned 32-bit ones, those outside it
(20_memory.md R64, 30_encoding.md R80), and those beyond data memory (20_memory.md R60). -/

open Sys2Proof Sys2Proof.Machine

namespace Sys2Proof.Machine

/-- A step that takes a register access is one access of the window. -/
theorem step_windowAccess {s : State} {size addr : Nat} {v : Word} {rest : List Event}
    (hevents : s.events = .regRead size addr :: rest ∨ s.events = .regWrite size addr v :: rest) :
    ∃ k, step s = windowAccess size addr (s.popped rest) k := by
  unfold step
  rcases hevents with hevents | hevents <;> rw [hevents] <;> exact ⟨_, rfl⟩

theorem windowAccess_of_form {size addr : Nat} {s : State} (k : Nat → State)
    (hwindow : s.config.base ≤ addr ∧ addr < s.config.base + 0x100) (hform : size ≠ 4 ∨ (addr - s.config.base) % 4 ≠ 0) :
    windowAccess size addr s k = .refused (.registerAccessForm size addr) := by
  rw [windowAccess, if_pos hwindow, if_neg (by omega)]

theorem windowAccess_of_outside {size addr : Nat} {s : State} (k : Nat → State)
    (houtside : addr < s.config.base ∨ s.config.base + 0x100 ≤ addr) :
    windowAccess size addr s k = .refused (.outsideWindow addr) := by
  rw [windowAccess, if_neg (by omega)]

/-- Settles O15: a register access is one of the window, which refuses both. -/
theorem onlyAlignedWordAccesses : Obligations.OnlyAlignedWordAccesses := by
  intro s size addr v rest hevents
  obtain ⟨k, hstep⟩ := step_windowAccess hevents
  exact ⟨fun hwindow hform => hstep.trans (windowAccess_of_form k hwindow hform),
    fun houtside => hstep.trans (windowAccess_of_outside k houtside)⟩

theorem hostMemAccess_of_beyond {a : Nat} {s : State} (t : State) (ha : 2 ^ s.config.aw ≤ a) :
    hostMemAccess a s t = .fault (.noSuchAddress a) := if_pos ha

/-- Settles O17: a read and a write are the same access of data memory, which faults at 2^AW and above. -/
theorem hostAddressBeyondMemoryFaults : Obligations.HostAddressBeyondMemoryFaults := by
  intro s a v rest ha
  have hfault (t : State) : hostMemAccess a (s.popped rest) t = .fault (.noSuchAddress a) := hostMemAccess_of_beyond t ha
  constructor <;> intro hevents <;> unfold step <;> rw [hevents]
  · exact hfault _
  · exact hfault _

end Sys2Proof.Machine
end

section
/-! The decoder on every word (30_encoding.md R81 to R84): which words are commands, which command each is, and why every other
word is rejected. -/

open Sys2Proof Sys2Proof.Machine

namespace Sys2Proof

/-- The opcode map has a row exactly for the opcodes 1 to 8. -/
theorem exists_opcode_iff (op : BitVec 4) : (∃ i : Instr, op = i.opcode) ↔ 1 ≤ op.toNat ∧ op.toNat ≤ 8 := by
  constructor
  · rintro ⟨i, rfl⟩
    cases i <;> decide
  · have hrow : ∀ op : BitVec 4, 1 ≤ op.toNat ∧ op.toNat ≤ 8 → (ofOpcode op).isSome = true := by decide
    intro hop
    obtain ⟨i, hi⟩ := Option.isSome_iff_exists.mp (hrow op hop)
    exact ⟨i, (ofOpcode_eq_some op i).mp hi⟩

theorem decodeFields_eq_ok (rsv : BitVec 28) (op : BitVec 4) (i : Instr) :
    decodeFields rsv op = .ok i ↔ rsv = 0 ∧ op = i.opcode := by
  by_cases hrsv : rsv = 0
  · subst hrsv
    rw [decodeFields_zero, ← ofOpcode_eq_some]
    cases ofOpcode op <;> simp
  · rw [decodeFields_reserved op hrsv]
    exact ⟨nofun, fun h => absurd h.1 hrsv⟩

theorem decodeFields_reservedOpcode {op : BitVec 4} (hop : ¬(1 ≤ op.toNat ∧ op.toNat ≤ 8)) :
    decodeFields 0 op = .error (.reservedOpcode op) := by
  have hnone : ofOpcode op = none :=
    Option.eq_none_iff_forall_ne_some.mpr fun i hi => hop ((exists_opcode_iff op).mp ⟨i, (ofOpcode_eq_some op i).mp hi⟩)
  rw [decodeFields_zero, hnone]

/-- A word is a command's word exactly when its two fields are the command's. -/
theorem eq_encode_iff (w : Word) (i : Instr) : w = encode i ↔ rsvField w = 0 ∧ opcodeField w = i.opcode := by
  constructor
  · rintro rfl
    exact ⟨rsvField_encode i, opcodeField_encode i⟩
  · rintro ⟨hrsv, hop⟩
    rw [word_of_fields w, hrsv, hop]
    rfl

theorem decodeWord_eq_ok (w : Word) (i : Instr) : decodeWord w = .ok i ↔ w = encode i := by
  rw [decodeWord_eq, decodeFields_eq_ok, eq_encode_iff]

/-- The decoder rejects every word that is no command's word. -/
theorem decodeWord_error_of_illegal {w : Word} (hillegal : ∀ i, w ≠ encode i) : ∃ e, decodeWord w = .error e := by
  cases hw : decodeWord w with
  | ok i => exact absurd ((decodeWord_eq_ok w i).mp hw) (hillegal i)
  | error e => exact ⟨e, rfl⟩

/-- Some command decodes from a word exactly when its RSV is 0 and its OPCODE a row of the opcode map. -/
theorem exists_decodeWord_ok_iff (w : Word) :
    (∃ i, decodeWord w = .ok i) ↔ rsvField w = 0 ∧ 1 ≤ (opcodeField w).toNat ∧ (opcodeField w).toNat ≤ 8 := by
  simp only [decodeWord_eq, decodeFields_eq_ok, exists_and_left, exists_opcode_iff]

/-- Settles O2: the table row by row, then the decoder's two equivalences. -/
theorem legalWordsAreTheEightRows : Obligations.LegalWordsAreTheEightRows :=
  ⟨by decide, decodeWord_eq_ok, exists_decodeWord_ok_iff⟩

/-- Settles O3: RSV decides first; with RSV = 0 the opcode map has no row for the opcode. -/
theorem rejectionNamesItsCause : Obligations.RejectionNamesItsCause := by
  refine ⟨fun w hrsv => decodeFields_reserved (opcodeField w) hrsv, fun w hrsv hop => ?_⟩
  have hzero : rsvField w = 0 := hrsv
  rw [decodeWord_eq, hzero]
  exact decodeFields_reservedOpcode (by unfold opcodeField; omega)

/-- Settles O1: four words are commands' words, and the other four are rejected by the rule of their cause. -/
theorem writtenWordsDecode : Obligations.WrittenWordsDecode :=
  have ⟨hbits, hopcode⟩ := rejectionNamesItsCause
  ⟨decodeWord_encode .encode, decodeWord_encode .decode, decodeWord_encode .decLenStrip,
    decodeWord_encode .symbolAt, hopcode 0 (by decide) (by decide), hopcode 9 (by decide) (by decide),
    hbits 0x11 (by decide), hbits 0x80000001 (by decide)⟩

/-- A 32-bit row of the opcode table is read as the decoder reads its word. -/
theorem decodeTableWord_toNat {w : Word} {i : Instr} (hw : decodeWord w = .ok i) : decodeTableWord 32 w.toNat = some i := by
  rw [decodeTableWord, if_pos ⟨le_rfl, w.isLt⟩, BitVec.ofNat_toNat, BitVec.setWidth_eq, hw]

/-- Settles O4: the table word is the command's word. -/
theorem decodeInvertsEncode : Obligations.DecodeInvertsEncode := fun i =>
  have hdecode : decodeWord (encode i) = .ok i := decodeWord_encode i
  ⟨hdecode, decodeTableWord_toNat hdecode⟩

end Sys2Proof
end

section
/-! A command line on an idle block, and an illegal word after its acceptance (30_encoding.md R84, R86; 60_exceptions.md R193). -/

open Sys2Proof Sys2Proof.Machine

namespace Sys2Proof.Machine

theorem step_run {s : State} {w : Word} {rest : List Event} (hevents : s.events = .run w :: rest) :
    step s = runCommand w (s.popped rest) := by
  unfold step
  rw [hevents]
  rfl

theorem runCommand_of_legal {s : State} {w : Word} {i : Instr} (hidle : s.status.busy = false) (hw : decodeWord w = .ok i) :
    runCommand w s = exec i (accept w s) := by
  simp only [runCommand, hidle, Bool.false_eq_true, if_false, hw]

theorem runCommand_of_illegal {s : State} {w : Word} (hidle : s.status.busy = false) (hillegal : ∀ i, w ≠ encode i) :
    runCommand w s = .next (raise .illegalCmd (accept w s)) := by
  obtain ⟨e, he⟩ := decodeWord_error_of_illegal hillegal
  simp only [runCommand, hidle, Bool.false_eq_true, if_false, he]

/-- Settles O5: the command line of an idle block runs the command that its word decodes to. -/
theorem stepRunsTheDecodedCommand : Obligations.StepRunsTheDecodedCommand := fun s _ _ rest hevents hidle hw =>
  (step_run hevents).trans (runCommand_of_legal (s := s.popped rest) hidle hw)

/-- The engine's first turn after the acceptance of an illegal word completes with ILLEGAL_CMD. -/
theorem engineTurn_accept_of_illegal {w : Word} (hillegal : ∀ i, w ≠ encode i) (s : State) :
    engineTurn (accept w s) = .next (raise .illegalCmd (accept w s)) := by
  obtain ⟨e, he⟩ := decodeWord_error_of_illegal hillegal
  have hrunning : (accept w s).running = .error e := he
  simp only [engineTurn, accept_phase, engineStep, hrunning]

/-- Settles O6: at both grains the illegal word is accepted and raises ILLEGAL_CMD, which is the state written out. -/
theorem illegalWordCompletesWithIllegalCmd : Obligations.IllegalWordCompletesWithIllegalCmd :=
  ⟨fun s _ rest hevents hidle hillegal =>
    (step_run hevents).trans (runCommand_of_illegal (s := s.popped rest) hidle hillegal),
    fun s _ hillegal => engineTurn_accept_of_illegal hillegal s⟩

end Sys2Proof.Machine
end

section
/-! Writes of the register window, and its unmapped offsets (30_encoding.md R80, R86; 10_state.md R38, R40). -/

open Sys2Proof Sys2Proof.Machine

namespace Sys2Proof.Machine

theorem step_regRead {s : State} {size addr : Nat} {rest : List Event} (hevents : s.events = .regRead size addr :: rest) :
    step s = hostRegRead size addr (s.popped rest) := by
  unfold step
  rw [hevents]
  rfl

theorem step_regWrite {s : State} {size addr : Nat} {v : Word} {rest : List Event}
    (hevents : s.events = .regWrite size addr v :: rest) : step s = hostRegWrite size addr v (s.popped rest) := by
  unfold step
  rw [hevents]
  rfl

/-- A write at a register's offset writes the register. -/
theorem hostRegWrite_regOffset (r : Reg) (v : Word) (s : State) :
    hostRegWrite 4 (s.config.base + regOffset r) v s = .next (writeReg r v s) := by
  unfold hostRegWrite
  rw [windowAccess_offset s _ (by cases r <;> decide) (by cases r <;> decide), regAt_regOffset]

/-- A step that writes a register. -/
theorem step_regWrite_regOffset {s : State} {v : Word} {rest : List Event} (r : Reg)
    (hevents : s.events = .regWrite 4 (s.config.base + regOffset r) v :: rest) :
    step s = .next (writeReg r v (s.popped rest)) :=
  (step_regWrite hevents).trans (hostRegWrite_regOffset r v (s.popped rest))

/-- Settles O7: a write of CMD by an idle block's host is the acceptance of its word. -/
theorem acceptanceEffect : Obligations.AcceptanceEffect := by
  intro s w rest hevents hidle
  have haccept : writeReg .cmd w (s.popped rest) = accept w (s.popped rest) := if_neg (by rw [State.popped, hidle]; decide)
  rw [step_regWrite_regOffset .cmd hevents, haccept]
  rfl

theorem regOffset_le (r : Reg) : regOffset r ≤ 0x24 := by cases r <;> decide

/-- No register stands at an offset of 0x28 or more. -/
theorem regAt_of_unmapped {o : Nat} (ho : 0x28 ≤ o) : regAt o = none := by
  refine List.find?_eq_none.mpr fun r _ hr => ?_
  have hoffset : regOffset r = o := by simpa using hr
  have := regOffset_le r
  omega

theorem hostRegRead_of_unmapped (s : State) {o : Nat} (ho : 0x28 ≤ o) (hwindow : o < 0x100) (haligned : o % 4 = 0) :
    hostRegRead 4 (s.config.base + o) s = .next (answer 0 s) := by
  unfold hostRegRead
  rw [windowAccess_offset s _ hwindow haligned, regAt_of_unmapped ho]

theorem hostRegWrite_of_unmapped (v : Word) (s : State) {o : Nat} (ho : 0x28 ≤ o) (hwindow : o < 0x100)
    (haligned : o % 4 = 0) : hostRegWrite 4 (s.config.base + o) v s = .next s := by
  unfold hostRegWrite
  rw [windowAccess_offset s _ hwindow haligned, regAt_of_unmapped ho]

theorem writeReg_of_readOnly {r : Reg} (hr : r ∈ [Reg.cfg, .status, .resultLo, .resultHi, .errInfo]) (v : Word) (s : State) :
    writeReg r v s = s := by
  cases r with
  | cfg | status | resultLo | resultHi | errInfo => rfl
  | cmd | srcAddr | srcLen | dstAddr | dstCap => exact absurd hr (by decide)

/-- Settles O10: the offsets above 0x24 hold no register, and the five listed offsets are those of the read-only registers. -/
theorem unmappedAndReadOnlyOffsets : Obligations.UnmappedAndReadOnlyOffsets := by
  refine ⟨fun s k rest hlow hhigh hevents => ?_, fun s v k rest hlow hhigh hevents => ?_,
    fun s v offset rest hoffset hevents => ?_⟩
  · exact (step_regRead hevents).trans (hostRegRead_of_unmapped (s.popped rest) hlow hhigh (Nat.mul_mod_right 4 k))
  · exact (step_regWrite hevents).trans (hostRegWrite_of_unmapped v (s.popped rest) hlow hhigh (Nat.mul_mod_right 4 k))
  · have hmap : offset ∈ [Reg.cfg, .status, .resultLo, .resultHi, .errInfo].map regOffset := hoffset
    obtain ⟨r, hr, rfl⟩ := List.mem_map.mp hmap
    exact (step_regWrite_regOffset r hevents).trans (congrArg _ (writeReg_of_readOnly hr v (s.popped rest)))

end Sys2Proof.Machine
end

section
/-! The decode lookup (40_lookup.md R103 to R112): decodeByte finds the accepted set that holds a byte, and decode_lookup_rom and the
linear scan compute it. -/

open Sys2Proof Sys2Proof.Machine

namespace Sys2Proof.Machine

/-! ### The accepted sets -/

theorem mem_accepted {p : Params} {i : Nat} {b : Byte} :
    b ∈ accepted p i ↔ b ∈ symbolAt p i :: aliasesOf p (symbolAt p i) ∨
      p.caseSens = false ∧ ∃ d ∈ symbolAt p i :: aliasesOf p (symbolAt p i), lower d = b := by
  unfold accepted
  cases p.caseSens
  · simp only [Bool.false_eq_true, if_false, List.mem_append, List.mem_map, true_and]
  · simp only [if_true, Bool.true_eq_false, false_and, or_false]

theorem mem_aliasesOf {p : Params} {b c : Byte} : b ∈ aliasesOf p c ↔ (c, b) ∈ p.aliases := by
  simp [aliasesOf]

/-- The canonical byte of a symbol value and its aliases are bytes that the configuration names. -/
theorem namesSymbol_of_lt_radix {c : Config} {i : Nat} {b : Byte} (hi : i < c.radix)
    (hb : b ∈ symbolAt c.toParams i :: aliasesOf c.toParams (symbolAt c.toParams i)) : NamesSymbol c.toParams b := by
  rcases List.mem_cons.mp hb with rfl | halias
  · have hlength : i < c.alpha.length := c.alpha_length ▸ hi
    rw [symbolAt, List.getD_eq_getElem _ _ hlength]
    exact .inl (List.getElem_mem hlength)
  · exact .inr ⟨_, mem_aliasesOf.mp halias⟩

/-! ### decodeByte -/

theorem mem_accepted_of_decodeByte {p : Params} {b : Byte} {i : Nat} (h : decodeByte p b = some i) :
    i < p.radix ∧ b ∈ accepted p i :=
  ⟨List.mem_range.mp (List.mem_of_find?_eq_some h), by simpa using List.find?_some h⟩

theorem decodeByte_eq_none {p : Params} {b : Byte} : decodeByte p b = none ↔ ∀ j < p.radix, b ∉ accepted p j := by
  simp [decodeByte]

/-- In a configuration in effect the accepted set that holds a byte is the only one (V8). -/
theorem decodeByte_eq_some {c : Config} {b : Byte} {i : Nat} :
    decodeByte c.toParams b = some i ↔ i < c.radix ∧ b ∈ accepted c.toParams i := by
  refine ⟨mem_accepted_of_decodeByte, fun ⟨hi, hb⟩ => ?_⟩
  cases hfound : decodeByte c.toParams b with
  | none => exact absurd hb (decodeByte_eq_none.mp hfound i hi)
  | some j =>
    obtain ⟨hj, hbj⟩ := mem_accepted_of_decodeByte hfound
    rw [c.accepted_unique hi hj hb hbj]

/-- Settles O31: the search finds some accepted set that holds the byte, and V8 leaves no other. -/
theorem decodeByteFindsTheAcceptedSet : Obligations.DecodeByteFindsTheAcceptedSet :=
  fun _ _ _ => ⟨decodeByte_eq_some, decodeByte_eq_none⟩

/-- A symbol value fits the 6 bits of VALUE (10_state.md R27). -/
theorem decodeByte_lt {c : Config} {b : Byte} {i : Nat} (h : decodeByte c.toParams b = some i) : i < 64 := by
  have hi := (mem_accepted_of_decodeByte h).1
  rcases c.radix_cases with ⟨hradix, -⟩ | ⟨hradix, -⟩ | ⟨hradix, -⟩ <;> omega

/-! ### The LUT lookup -/

/-- The fields VALID and VALUE of a valid entry. -/
theorem lutValid_fields : ∀ i < 64,
    (lutValid i).getLsbD 6 = true ∧ ((lutValid i).extractLsb' 0 6).toNat = i ∧ (lutValid i).toNat % 64 = i := by decide

theorem length_lutContents (p : Params) : (lutContents p).length = 256 := by
  rw [lutContents, List.length_map, List.length_range]

theorem lutContents_getD (p : Params) (b : Byte) : (lutContents p).getD b.toNat 0 = lutEntry p b := by
  rw [lutContents, List.getD_eq_getElem _ _ (by simpa using b.isLt)]
  simp

theorem lutEntry_eq (p : Params) (b : Byte) : lutEntry p b = (decodeByte p b).elim 0 lutValid := by
  unfold lutEntry
  cases decodeByte p b <;> rfl

theorem lutEntry_of_some {p : Params} {b : Byte} {i : Nat} (h : decodeByte p b = some i) : lutEntry p b = lutValid i := by
  simp only [lutEntry, h]

theorem lutEntry_of_none {p : Params} {b : Byte} (h : decodeByte p b = none) : lutEntry p b = 0 := by
  simp only [lutEntry, h]

theorem romLookup_lutContents (c : Config) (b : Byte) : romLookup (lutContents c.toParams) b = decodeByte c.toParams b := by
  unfold romLookup
  rw [lutContents_getD]
  cases h : decodeByte c.toParams b with
  | none => rw [lutEntry_of_none h]; rfl
  | some i =>
    obtain ⟨hvalid, -, hvalue⟩ := lutValid_fields i (decodeByte_lt h)
    rw [lutEntry_of_some h]
    simp only [hvalid, if_true, hvalue]

/-! ### The construction order of decode_lookup_rom -/

/-- The table after the rounds of the symbol values below n. -/
def lutRounds (p : Params) (n : Nat) : List (BitVec 7) :=
  (List.range n).foldl (fun rom i => lutFill rom i (accepted p i)) (List.replicate 256 0)

theorem lutBuilt_eq_lutRounds (p : Params) : lutBuilt p = lutRounds p p.radix := rfl

theorem lutRounds_succ (p : Params) (n : Nat) : lutRounds p (n + 1) = lutFill (lutRounds p n) n (accepted p n) := by
  simp only [lutRounds, List.range_succ, List.foldl_append, List.foldl_cons, List.foldl_nil]

theorem length_lutFill (rom : List (BitVec 7)) (i : Nat) (bs : List Byte) : (lutFill rom i bs).length = rom.length := by
  induction bs generalizing rom with
  | nil => rfl
  | cons b bs ih => rw [lutFill, ih, List.length_set]

theorem length_lutRounds (p : Params) (n : Nat) : (lutRounds p n).length = 256 := by
  induction n with
  | zero => exact List.length_replicate
  | succ n ih => rw [lutRounds_succ, length_lutFill, ih]

/-- A round sets the entries of its bytes and leaves the others. -/
theorem lutFill_getD {rom : List (BitVec 7)} (hrom : rom.length = 256) (i : Nat) (bs : List Byte) (b : Byte) :
    (lutFill rom i bs).getD b.toNat 0 = if b ∈ bs then lutValid i else rom.getD b.toNat 0 := by
  induction bs generalizing rom with
  | nil => rfl
  | cons d bs ih =>
    rw [lutFill, ih (by rw [List.length_set, hrom])]
    by_cases hmem : b ∈ bs
    · rw [if_pos hmem, if_pos (List.mem_cons_of_mem d hmem)]
    · by_cases hbd : b = d
      · subst hbd
        simp [hmem, hrom, b.isLt, List.getD]
      · have hne : d.toNat ≠ b.toNat := fun h => hbd (BitVec.eq_of_toNat_eq h.symm)
        simp [hmem, hbd, hne, List.getD]

/-- After the rounds below n the entry of a byte is that of the accepted set below n that holds it; no round sets an entry that an
earlier one has set (V8). -/
theorem lutRounds_getD (c : Config) (b : Byte) {n : Nat} (hn : n ≤ c.radix) :
    (lutRounds c.toParams n).getD b.toNat 0 =
      ((List.range n).find? fun i => (accepted c.toParams i).contains b).elim 0 lutValid := by
  induction n with
  | zero => exact List.getD_replicate 0 b.isLt
  | succ n ih =>
    rw [lutRounds_succ, lutFill_getD (length_lutRounds _ n), ih (by omega), List.range_succ, List.find?_append]
    by_cases hb : b ∈ accepted c.toParams n
    · have hbelow : ((List.range n).find? fun i => (accepted c.toParams i).contains b) = none := by
        refine List.find?_eq_none.mpr fun j hj hbj => ?_
        have hjn := List.mem_range.mp hj
        have := c.accepted_unique (by omega) (by omega) (List.contains_iff_mem.mp hbj) hb
        omega
      rw [if_pos hb, hbelow, Option.none_or]
      simp [hb]
    · simp [hb]

theorem lutBuilt_getD (c : Config) (b : Byte) : (lutBuilt c.toParams).getD b.toNat 0 = lutEntry c.toParams b := by
  rw [lutBuilt_eq_lutRounds, lutRounds_getD c b le_rfl, lutEntry_eq]
  rfl

theorem lutBuilt_eq_lutContents (c : Config) : lutBuilt c.toParams = lutContents c.toParams := by
  have hbuilt : (lutBuilt c.toParams).length = 256 := by rw [lutBuilt_eq_lutRounds, length_lutRounds]
  refine List.ext_getElem (hbuilt.trans (length_lutContents c.toParams).symm) fun n hn hn' => ?_
  have hlt : n < 256 := Nat.lt_of_lt_of_eq hn hbuilt
  have hbyte : (BitVec.ofNat 8 n).toNat = n := Nat.mod_eq_of_lt hlt
  have hentry := (lutBuilt_getD c (BitVec.ofNat 8 n)).trans (lutContents_getD c.toParams (BitVec.ofNat 8 n)).symm
  rwa [hbyte, List.getD_eq_getElem _ _ hn, List.getD_eq_getElem _ _ hn'] at hentry

/-- Settles O32: an entry of the ROM is that of its byte, and the rounds give the same entries. -/
theorem lookupRomContents : Obligations.LookupRomContents := by
  intro c
  refine ⟨fun hlut => ?_, fun hlinear => ?_, length_lutContents c.toParams, fun b i hsome => ?_, fun b hnone => ?_,
    lutBuilt_eq_lutContents c⟩
  · simp only [decodeLookupRom, hlut]
  · simp only [decodeLookupRom, hlinear]
  · obtain ⟨hvalid, hvalue, -⟩ := lutValid_fields i (decodeByte_lt hsome)
    rw [lutContents_getD, lutEntry_of_some hsome]
    exact ⟨hvalid, hvalue⟩
  · rw [lutContents_getD, lutEntry_of_none hnone]

/-! ### The linear lookup -/

/-- The test of the linear scan is that of the accepted set. -/
theorem linearMatch_eq (p : Params) (b : Byte) (i : Nat) : linearMatch p b i = (accepted p i).contains b := by
  unfold linearMatch accepted
  cases p.caseSens
  · simp only [Bool.false_eq_true, if_false, List.contains_append, List.map_cons, List.contains_cons, Bool.not_false,
      Bool.true_and]
  · simp only [if_true, List.contains_cons, Bool.not_true, Bool.false_and, Bool.or_false]

theorem linearScan_eq (p : Params) (b : Byte) (i left : Nat) :
    linearScan p b i left = (List.range' i left).find? fun j => (accepted p j).contains b := by
  induction left generalizing i with
  | zero => rfl
  | succ left ih =>
    rw [linearScan, ih, List.range'_succ, List.find?_cons, linearMatch_eq]
    cases (accepted p i).contains b <;> rfl

theorem linearLookup_eq (p : Params) (b : Byte) : linearLookup p b = decodeByte p b := by
  rw [linearLookup, linearScan_eq, decodeByte, List.range_eq_range']

/-- The lookup of the engine is decodeByte, in both strategies. -/
theorem lookupByte_eq (c : Config) (b : Byte) : lookupByte c.toParams b = decodeByte c.toParams b := by
  unfold lookupByte decodeLookupRom
  cases c.strategy with
  | lut => exact romLookup_lutContents c b
  | linear => exact linearLookup_eq c.toParams b

/-! ### The bytes that no configuration accepts -/

/-- The lower-case form of a printable byte other than the pad byte is again one. -/
theorem lower_printable {b : Byte} (hrange : 0x21 ≤ b.toNat ∧ b.toNat ≤ 0x7E) (hpad : b ≠ 0x3D) :
    (0x21 ≤ (lower b).toNat ∧ (lower b).toNat ≤ 0x7E) ∧ lower b ≠ 0x3D := by
  unfold lower
  split
  · bv_omega
  · exact ⟨hrange, hpad⟩

/-- Every byte of an accepted set is printable and not the pad byte (V4, V5). -/
theorem accepted_printable {c : Config} {i : Nat} {b : Byte} (hi : i < c.radix) (hb : b ∈ accepted c.toParams i) :
    (0x21 ≤ b.toNat ∧ b.toNat ≤ 0x7E) ∧ b ≠ 0x3D := by
  have hvalid := c.validParams
  rcases mem_accepted.mp hb with hdirect | ⟨-, d, hd, rfl⟩
  · have hnames := namesSymbol_of_lt_radix hi hdirect
    exact ⟨hvalid.v4 b hnames, hvalid.v5 b hnames⟩
  · have hnames := namesSymbol_of_lt_radix hi hd
    exact lower_printable (hvalid.v4 d hnames) (hvalid.v5 d hnames)

/-- Settles O34: the bytes listed are those that are not printable, and the pad byte. -/
theorem neverAcceptedBytes : Obligations.NeverAcceptedBytes := by
  intro c b hb
  refine decodeByte_eq_none.mpr fun i hi hmem => ?_
  obtain ⟨hrange, hpad⟩ := accepted_printable hi hmem
  rcases hb with h | h | rfl | h
  · omega
  · omega
  · exact absurd hrange (by decide)
  · exact hpad h

/-! ### SYMBOL_AT and DECODE_BYTE -/

/-- Settles O29: one comparison with RADIX decides between the two completions. -/
theorem symbolAtResult : Obligations.SymbolAtResult := by
  refine ⟨decodeWord_encode .symbolAt, fun s hlt => ?_, fun s hge => if_pos hge, by decide⟩
  have hfinish : exec .symbolAt s = .next (finish (symbolAt s.config.toParams s.indexOperand).toNat s) :=
    if_neg (Nat.not_le.mpr hlt)
  have hhigh : (symbolAt s.config.toParams s.indexOperand).toNat >>> 32 = 0 :=
    Nat.shiftRight_eq_zero _ _ (Nat.lt_trans (BitVec.isLt _) (by decide))
  rw [hfinish, finish, complete, hhigh, BitVec.ofNat_toNat]
  rfl

/-- RESULT of a byte that maps to v: bit 8, and v below it. -/
theorem decodeByte_result : ∀ v < 64, (1 <<< 8) ||| v = 256 + v ∧ ((1 <<< 8) ||| v) >>> 32 = 0 := by decide

/-- Settles O30: the lookup is decodeByte in both strategies, and its answer is the completion's RESULT. -/
theorem decodeByteResult : Obligations.DecodeByteResult := by
  refine ⟨decodeWord_encode .decodeByte, fun s v hsome => ?_, fun s hnone => ?_,
    fun c => neverAcceptedBytes c 0x3D (by decide)⟩
  · have hv := decodeByte_lt hsome
    obtain ⟨hlow, hhigh⟩ := decodeByte_result v hv
    have hexec : exec .decodeByte s = .next (finish ((1 <<< 8) ||| v) s) :=
      execDecodeByte_of_some ((lookupByte_eq s.config s.byteOperand).trans hsome)
    refine ⟨hv, ?_⟩
    rw [hexec, finish, complete, hhigh, hlow]
    rfl
  · exact execDecodeByte_of_none ((lookupByte_eq s.config s.byteOperand).trans hnone)

end Sys2Proof.Machine
end

section
/-! The lookup up to letter case and aliases, and the lookup of each preset (40_lookup.md R109, R110). -/

open Sys2Proof Sys2Proof.Machine

namespace Sys2Proof.Machine

/-! ### Letter case -/

theorem lower_lower (b : Byte) : lower (lower b) = lower b := by
  unfold lower
  split_ifs <;> bv_omega

theorem lower_upper (b : Byte) : lower (upper b) = lower b := by
  unfold lower upper
  split_ifs <;> bv_omega

/-- A byte with the lower-case form of a byte d that is no lower-case letter is d or that form. -/
theorem eq_or_lower_eq {b d : Byte} (hd : ¬(0x61 ≤ d.toNat ∧ d.toNat ≤ 0x7A)) (h : lower d = lower b) :
    b = d ∨ lower d = b := by
  unfold lower at h ⊢
  split_ifs at h ⊢ <;> bv_omega

/-- A case-insensitive configuration accepts a byte by its lower-case form alone. -/
theorem mem_accepted_iff_lower {c : Config} (hcase : c.caseSens = false) {i : Nat} (hi : i < c.radix) (b : Byte) :
    b ∈ accepted c.toParams i ↔
      ∃ d ∈ symbolAt c.toParams i :: aliasesOf c.toParams (symbolAt c.toParams i), lower d = lower b := by
  rw [mem_accepted]
  constructor
  · rintro (hb | ⟨-, d, hd, rfl⟩)
    · exact ⟨b, hb, rfl⟩
    · exact ⟨d, hd, (lower_lower d).symm⟩
  · rintro ⟨d, hd, hlower⟩
    rcases eq_or_lower_eq (c.validParams.v7 hcase d (namesSymbol_of_lt_radix hi hd)) hlower with rfl | hb
    · exact .inl hd
    · exact .inr ⟨hcase, d, hd, hb⟩

/-- Bytes that lie in the same accepted sets decode alike. -/
theorem decodeByte_congr {p : Params} {b b' : Byte} (h : ∀ i < p.radix, b ∈ accepted p i ↔ b' ∈ accepted p i) :
    decodeByte p b = decodeByte p b' := by
  unfold decodeByte
  refine List.find?_congr fun i hi => ?_
  simpa using h i (List.mem_range.mp hi)

theorem decodeByte_upper_eq_lower {c : Config} (hcase : c.caseSens = false) (b : Byte) :
    decodeByte c.toParams (upper b) = decodeByte c.toParams (lower b) :=
  decodeByte_congr fun i hi => by
    rw [mem_accepted_iff_lower hcase hi, mem_accepted_iff_lower hcase hi, lower_upper, lower_lower]

theorem mem_accepted_of_caseSens {p : Params} (hcase : p.caseSens = true) (b : Byte) (i : Nat) :
    b ∈ accepted p i ↔ b = symbolAt p i ∨ (symbolAt p i, b) ∈ p.aliases := by
  simp only [mem_accepted, hcase, Bool.true_eq_false, false_and, or_false, List.mem_cons, mem_aliasesOf]

/-! ### The presets -/

/-- decodeByte does not look at STRATEGY, AW, W and BASE. -/
theorem decodeByte_of_preset {id : Preset} {st : Strategy} {hf : List Byte} {aw accWidth base : Nat} {p : Params}
    (hp : p ∈ presetParams id st hf aw accWidth base) :
    ∃ q ∈ presetParams id .lut hf 0 13 0, decodeByte p = decodeByte q := by
  rw [presetParams_eq_map] at hp
  obtain ⟨q, hq, rfl⟩ := Option.mem_map.mp hp
  exact ⟨q, hq, rfl⟩

/-- Settles O35: the aliases of the one alphabet are evaluated; the rest is what an accepted set holds. -/
theorem aliasAndCaseEquivalence : Obligations.AliasAndCaseEquivalence := by
  refine ⟨fun st aw accWidth base p hp => ?_, fun _ b hcase => decodeByte_upper_eq_lower hcase b,
    fun _ b i hcase => mem_accepted_of_caseSens hcase b i⟩
  obtain ⟨q, hq, hdecode⟩ := decodeByte_of_preset hp
  rw [hdecode]
  cases hq
  decide

/-- The rows are those of the accepted sets: every byte of an accepted set is mapped to its symbol value, and every byte of a row is
in the accepted set of its value. -/
def rowsMatch (rows : List (Nat × Nat × Nat)) (p : Params) : Bool :=
  ((List.range p.radix).all fun i => (accepted p i).all fun b => rangesLookup rows b == some i) &&
    rows.all fun r => (List.range (r.2.1 + 1 - r.1)).all fun j =>
      decide (r.2.2 + j < p.radix) && (accepted p (r.2.2 + j)).contains (BitVec.ofNat 8 (r.1 + j))

theorem rowsMatch_iff {rows : List (Nat × Nat × Nat)} {p : Params} :
    rowsMatch rows p = true ↔ (∀ i < p.radix, ∀ b ∈ accepted p i, rangesLookup rows b = some i) ∧
      ∀ r ∈ rows, ∀ j < r.2.1 + 1 - r.1, r.2.2 + j < p.radix ∧ BitVec.ofNat 8 (r.1 + j) ∈ accepted p (r.2.2 + j) := by
  simp only [rowsMatch, Bool.and_eq_true, List.all_eq_true, List.mem_range, beq_iff_eq, decide_eq_true_eq,
    List.contains_iff_mem]

/-- A byte that the rows map to a value lies in one of them. -/
theorem exists_row {rows : List (Nat × Nat × Nat)} {b : Byte} {v : Nat} (h : rangesLookup rows b = some v) :
    ∃ r ∈ rows, ∃ j < r.2.1 + 1 - r.1, b = BitVec.ofNat 8 (r.1 + j) ∧ v = r.2.2 + j := by
  obtain ⟨r, hr, hrow⟩ := List.exists_of_findSome?_eq_some h
  split at hrow
  · next hrange =>
    obtain ⟨hfirst, hlast⟩ := hrange
    refine ⟨r, hr, b.toNat - r.1, by omega, ?_, by simpa using hrow.symm⟩
    rw [Nat.add_sub_cancel' hfirst, BitVec.ofNat_toNat, BitVec.setWidth_eq]
  · cases hrow

theorem decodeByte_eq_rangesLookup {rows : List (Nat × Nat × Nat)} {p : Params} (h : rowsMatch rows p = true) (b : Byte) :
    decodeByte p b = rangesLookup rows b := by
  obtain ⟨hsets, hrows⟩ := rowsMatch_iff.mp h
  cases hfound : decodeByte p b with
  | some i =>
    obtain ⟨hi, hb⟩ := mem_accepted_of_decodeByte hfound
    exact (hsets i hi b hb).symm
  | none =>
    refine (Option.eq_none_iff_forall_ne_some.mpr fun v hv => ?_).symm
    obtain ⟨r, hr, j, hj, rfl, rfl⟩ := exists_row hv
    obtain ⟨hlt, hmem⟩ := hrows r hr j hj
    exact decodeByte_eq_none.mp hfound _ hlt hmem

/-- Rows that match the accepted sets of presets at one STRATEGY, AW, W and BASE are their lookup at every choice. -/
theorem decodeByte_preset_eq {rows : List (Nat × Nat × Nat)} {ids : List Preset}
    (hrows : ∀ id ∈ ids, ∀ q ∈ presetParams id .lut alphabetHumanDefault 0 13 0, rowsMatch rows q = true) {id : Preset}
    (hid : id ∈ ids) {st : Strategy} {aw accWidth base : Nat} {p : Params}
    (hp : p ∈ presetParams id st alphabetHumanDefault aw accWidth base) (b : Byte) :
    decodeByte p b = rangesLookup rows b := by
  obtain ⟨q, hq, hdecode⟩ := decodeByte_of_preset hp
  rw [hdecode, decodeByte_eq_rangesLookup (hrows id hid q hq)]

/-- Settles O36: the rows of each preset match its accepted sets, which is evaluated row by row and set by set. -/
theorem presetLookupTables : Obligations.PresetLookupTables := by
  intro st aw accWidth base b
  refine ⟨fun p hp => decodeByte_preset_eq (ids := [.base16]) ?_ (List.mem_singleton_self _) hp b,
    fun id hid p hp => decodeByte_preset_eq ?_ hid hp b,
    fun p hp => decodeByte_preset_eq (ids := [.base32Hex]) ?_ (List.mem_singleton_self _) hp b,
    fun p hp => decodeByte_preset_eq (ids := [.base32Human]) ?_ (List.mem_singleton_self _) hp b,
    fun id hid p hp => decodeByte_preset_eq ?_ hid hp b⟩
  · decide
  · decide
  · decide
  · decide
  · decide

end Sys2Proof.Machine
end

section
/-! A block of the other strategy (40_lookup.md R107): STRATEGY enters a command through the lookup alone, and both lookups are
decodeByte, so that the two blocks run in lockstep. -/

open Sys2Proof Sys2Proof.Machine

namespace Sys2Proof.Machine

/-- The configuration with STRATEGY st; validity does not look at STRATEGY. -/
def otherStrategy (st : Strategy) (c : Config) : Config := ⟨{ c.toParams with strategy := st }, c.ok⟩

theorem eq_otherStrategy {c d : Config} {st : Strategy} (h : c.toParams = { d.toParams with strategy := st }) :
    c = otherStrategy st d := by
  cases c
  cases h
  rfl

/-- The same state in a block of strategy st. -/
def State.withStrategy (st : Strategy) (s : State) : State := { s with config := otherStrategy st s.config }

section Lockstep

variable (st : Strategy)

/-- The lookups of the two blocks are the same function. -/
theorem lookupByte_otherStrategy (c : Config) : lookupByte (otherStrategy st c).toParams = lookupByte c.toParams := by
  funext b
  rw [lookupByte_eq, lookupByte_eq]
  rfl

/-! Every operation of the engine takes the same branch in both blocks. -/

theorem prescanStep_withStrategy (n : Nat) (s : State) :
    prescanStep n (s.withStrategy st) = (prescanStep n s).withStrategy st := by
  simp only [prescanStep, apply_ite (State.withStrategy st)]
  rfl

theorem encodeStart_withStrategy (s : State) : encodeStart (s.withStrategy st) = (encodeStart s).withStrategy st := by
  simp only [encodeStart, apply_ite (State.withStrategy st)]
  rfl

theorem encodeMain_withStrategy (s : State) : encodeMain (s.withStrategy st) = (encodeMain s).withStrategy st := by
  simp only [encodeMain, apply_ite (State.withStrategy st)]
  rfl

theorem decodeStart_withStrategy (s : State) : decodeStart (s.withStrategy st) = (decodeStart s).withStrategy st := by
  simp only [decodeStart, apply_ite (State.withStrategy st)]
  rfl

theorem decodeSized_withStrategy (n : Nat) (s : State) :
    decodeSized n (s.withStrategy st) = (decodeSized n s).withStrategy st := by
  simp only [decodeSized, apply_ite (State.withStrategy st)]
  rfl

theorem decodeChar_withStrategy (s : State) (ch : Byte) :
    decodeChar (s.withStrategy st) ch = (decodeChar s ch).withStrategy st := by
  have hlookup : lookupByte (s.withStrategy st).config.toParams = lookupByte s.config.toParams :=
    lookupByte_otherStrategy st s.config
  simp only [decodeChar, hlookup, apply_ite (State.withStrategy st)]
  cases lookupByte s.config.toParams ch <;> rfl

theorem decodeMain_withStrategy (s : State) : decodeMain (s.withStrategy st) = (decodeMain s).withStrategy st := by
  simp only [decodeMain, apply_ite (State.withStrategy st), ← decodeChar_withStrategy]
  rfl

/-- One engine step of every command, in lockstep. -/
theorem tick_withStrategy (i : Instr) (s : State) :
    ∃ t, tick i s = .next t ∧ tick i (s.withStrategy st) = .next (t.withStrategy st) := by
  have hctl : (s.withStrategy st).ctl = s.ctl := rfl
  cases i
  case encode =>
    simp only [tick, encodeTick, hctl]
    split
    · exact ⟨_, rfl, congrArg _ (encodeMain_withStrategy st s)⟩
    all_goals exact ⟨_, rfl, congrArg _ (encodeStart_withStrategy st s)⟩
  case decode =>
    simp only [tick, decodeTick, hctl]
    split
    · exact ⟨_, rfl, congrArg _ (decodeStart_withStrategy st s)⟩
    · exact ⟨_, rfl, congrArg _ (prescanStep_withStrategy st _ s)⟩
    · exact ⟨_, rfl, congrArg _ (decodeSized_withStrategy st _ s)⟩
    · exact ⟨_, rfl, congrArg _ (decodeMain_withStrategy st s)⟩
    · exact ⟨_, rfl, rfl⟩
    · exact ⟨_, rfl, rfl⟩
  case decLenStrip =>
    simp only [tick, decLenStripTick, hctl]
    split
    · exact ⟨_, rfl, congrArg _ (prescanStep_withStrategy st _ s)⟩
    · exact ⟨_, rfl, rfl⟩
    all_goals exact ⟨_, rfl, by simp only [apply_ite (State.withStrategy st)]; rfl⟩
  case symbolAt =>
    by_cases hindex : s.config.radix ≤ s.indexOperand
    · exact ⟨_, if_pos hindex, if_pos hindex⟩
    · exact ⟨_, if_neg hindex, if_neg hindex⟩
  case decodeByte =>
    have hlookup := congrFun (lookupByte_otherStrategy st s.config) s.byteOperand
    cases hbyte : lookupByte s.config.toParams s.byteOperand with
    | some v => exact ⟨_, execDecodeByte_of_some hbyte, execDecodeByte_of_some (hlookup.trans hbyte)⟩
    | none => exact ⟨_, execDecodeByte_of_none hbyte, execDecodeByte_of_none (hlookup.trans hbyte)⟩
  all_goals exact ⟨_, rfl, rfl⟩

/-- A run of the engine steps of a command, in lockstep. -/
theorem runEngine_withStrategy (i : Instr) (fuel : Nat) (s : State) :
    (∃ t, runEngine (tick i) fuel s = .next t ∧ runEngine (tick i) fuel (s.withStrategy st) = .next (t.withStrategy st)) ∨
      (runEngine (tick i) fuel s = .fault .engineHang ∧
        runEngine (tick i) fuel (s.withStrategy st) = .fault .engineHang) := by
  have hstep {s u : State} (hu : u = s.withStrategy st) :
      ∃ t t', tick i s = .next t ∧ tick i u = .next t' ∧ t' = t.withStrategy st := by
    obtain ⟨t, ht, ht'⟩ := tick_withStrategy st i s
    exact ⟨t, _, ht, hu ▸ ht', rfl⟩
  rcases runEngine_related (R := fun s t => t = s.withStrategy st) (fun hu => by rw [hu]; rfl) hstep fuel rfl with
    ⟨t, _, ht, ht', rfl⟩ | hhang
  · exact .inl ⟨t, ht, ht'⟩
  · exact .inr hhang

/-- A command, in lockstep. -/
theorem exec_lockstep (i : Instr) (s : State) :
    (∃ t, exec i s = .next t ∧ exec i (s.withStrategy st) = .next (t.withStrategy st)) ∨
      (exec i s = .fault .engineHang ∧ exec i (s.withStrategy st) = .fault .engineHang) := by
  have hone := tick_withStrategy st i s
  cases i
  case encode => exact runEngine_withStrategy st .encode (encodeFuel s) (atStart s)
  case decode => exact runEngine_withStrategy st .decode (decodeFuel s) (atStart s)
  case decLenStrip => exact runEngine_withStrategy st .decLenStrip (decLenStripFuel s) (atStart s)
  all_goals exact .inl hone

/-- Every command has the same outcome in both blocks, but for the configuration. -/
theorem exec_withStrategy (i : Instr) (s : State) :
    exec i (s.withStrategy st) = inConfig (otherStrategy st s.config) (exec i s) := by
  rcases exec_lockstep st i s with ⟨t, hs, ht⟩ | ⟨hs, ht⟩
  · rw [hs, ht, State.withStrategy, (exec_frame hs).config]
    rfl
  · rw [hs, ht]
    rfl

end Lockstep

/-- Settles O33: both lookups are decodeByte, and a block of the other strategy runs each command in lockstep. -/
theorem strategyIsInvisible : Obligations.StrategyIsInvisible := by
  refine ⟨fun c b => ⟨romLookup_lutContents c b, linearLookup_eq c.toParams b⟩, fun i s c st hc => ?_⟩
  rw [eq_otherStrategy hc]
  exact exec_withStrategy st i s

end Sys2Proof.Machine
end

section
/-! Bit strings and the numbers their bits give, most significant bit first (41_encode.md R135, 42_decode.md R156). -/

open Sys2Proof Sys2Proof.Machine

namespace Sys2Proof.Machine

@[simp] theorem msbValue_zero (bit : Nat → Bool) (start : Nat) : msbValue bit start 0 = 0 := rfl

/-- One more bit goes below the others. -/
theorem msbValue_succ (bit : Nat → Bool) (start width : Nat) :
    msbValue bit start (width + 1) = 2 * msbValue bit start width + (bit (start + width)).toNat := by
  have double : ∀ t ∈ List.range width,
      (bit (start + t)).toNat * 2 ^ (width - t) = 2 * ((bit (start + t)).toNat * 2 ^ (width - 1 - t)) := by
    intro t ht
    have hlt := List.mem_range.mp ht
    rw [show width - t = width - 1 - t + 1 by omega, Nat.pow_succ]
    ring
  simp [msbValue, List.range_succ, List.map_congr_left double, List.sum_map_mul_left]

/-- The bits of two adjacent parts of a bit string, one part after the other. -/
theorem msbValue_add (bit : Nat → Bool) (start m n : Nat) :
    msbValue bit start (m + n) = msbValue bit start m * 2 ^ n + msbValue bit (start + m) n := by
  induction n with
  | zero => simp
  | succ n ih =>
    rw [← Nat.add_assoc, msbValue_succ, ih, msbValue_succ, Nat.add_assoc start, Nat.pow_succ]
    ring

theorem msbValue_lt (bit : Nat → Bool) (start width : Nat) : msbValue bit start width < 2 ^ width := by
  induction width with
  | zero => simp
  | succ width ih =>
    have := (bit (start + width)).toNat_lt
    rw [msbValue_succ, Nat.pow_succ]
    omega

/-- The higher part of a bit string. -/
theorem msbValue_add_div (bit : Nat → Bool) (start m n : Nat) :
    msbValue bit start (m + n) / 2 ^ n = msbValue bit start m := by
  rw [msbValue_add, Nat.add_comm, Nat.add_mul_div_right _ _ (Nat.two_pow_pos n), Nat.div_eq_of_lt (msbValue_lt _ _ _),
    Nat.zero_add]

/-- The lower part of a bit string. -/
theorem msbValue_add_mod (bit : Nat → Bool) (start m n : Nat) :
    msbValue bit start (m + n) % 2 ^ n = msbValue bit (start + m) n := by
  rw [msbValue_add, Nat.mul_add_mod_of_lt (msbValue_lt _ _ _)]

theorem testBit_msbValue (bit : Nat → Bool) (start : Nat) {width t : Nat} (ht : t < width) :
    (msbValue bit start width).testBit (width - 1 - t) = bit (start + t) := by
  obtain ⟨below, rfl⟩ : ∃ below, width = t + 1 + below := ⟨width - (t + 1), by omega⟩
  rw [show t + 1 + below - 1 - t = below by omega, Nat.testBit_eq_decide_div_mod_eq, msbValue_add_div, msbValue_succ]
  cases bit (start + t) <;> simp

/-- The bits of a string are those of a number of as many bits when they agree one by one. -/
theorem msbValue_eq_of_testBit {bit : Nat → Bool} {start width x : Nat} (hx : x < 2 ^ width)
    (hbits : ∀ t < width, bit (start + t) = x.testBit (width - 1 - t)) : msbValue bit start width = x := by
  refine Nat.eq_of_testBit_eq fun i => ?_
  rcases Nat.lt_or_ge i width with hi | hi
  · have := testBit_msbValue bit start (show width - 1 - i < width by omega)
    rw [hbits _ (by omega)] at this
    rwa [show width - 1 - (width - 1 - i) = i by omega] at this
  · have hpow := Nat.pow_le_pow_right (show 0 < 2 by decide) hi
    rw [Nat.testBit_lt_two_pow (Nat.lt_of_lt_of_le hx hpow),
      Nat.testBit_lt_two_pow (Nat.lt_of_lt_of_le (msbValue_lt bit start width) hpow)]

theorem msbValue_congr {bit bit' : Nat → Bool} {start width : Nat}
    (h : ∀ t < width, bit (start + t) = bit' (start + t)) : msbValue bit start width = msbValue bit' start width :=
  msbValue_eq_of_testBit (msbValue_lt _ _ _) fun t ht => (h t ht).trans (testBit_msbValue bit' start ht).symm

/-- The eight bits of byte q of a sequence. -/
theorem msbValue_bitOfBytes (xs : List Byte) (q : Nat) : msbValue (bitOfBytes xs) (8 * q) 8 = (xs.getD q 0).toNat := by
  refine msbValue_eq_of_testBit (xs.getD q 0).isLt fun t ht => ?_
  rw [bitOfBytes, show (8 * q + t) / 8 = q by omega, show (8 * q + t) % 8 = t by omega]
  rfl

/-- Behind the last byte of a sequence its bit string continues with zeros. -/
theorem msbValue_bitOfBytes_of_end {xs : List Byte} {start : Nat} (hend : 8 * xs.length ≤ start) (width : Nat) :
    msbValue (bitOfBytes xs) start width = 0 := by
  refine msbValue_eq_of_testBit (Nat.two_pow_pos width) fun t _ => ?_
  rw [bitOfBytes, List.getD_eq_default _ _ (by omega)]
  simp

end Sys2Proof.Machine
end

section
/-! The text of an encoder (41_encode.md R135, R136): its length, its symbols and its pad bytes. -/

open Sys2Proof Sys2Proof.Machine

namespace Sys2Proof.Machine

theorem length_encodeSymbols (p : Params) (xs : List Byte) : (encodeSymbols p xs).length = encodedLen p xs.length := by
  simp [encodeSymbols]

/-- The canonical byte of a symbol value is an ALPHA entry. -/
theorem symbolAt_mem_alpha {c : Config} {v : Nat} (hv : v < c.radix) : symbolAt c.toParams v ∈ c.alpha := by
  rw [symbolAt, List.getD_eq_getElem _ _ (c.alpha_length ▸ hv)]
  exact List.getElem_mem _

/-- The K bits of a symbol are a symbol value. -/
theorem msbValue_lt_radix (c : Config) (bit : Nat → Bool) (start : Nat) : msbValue bit start c.chunkBits < c.radix :=
  c.radix_eq ▸ msbValue_lt bit start c.chunkBits

theorem mem_alpha_of_mem_encodeSymbols {c : Config} {xs : List Byte} {b : Byte} (hb : b ∈ encodeSymbols c.toParams xs) :
    b ∈ c.alpha := by
  obtain ⟨j, -, rfl⟩ := List.mem_map.mp hb
  exact symbolAt_mem_alpha (msbValue_lt_radix c _ _)

/-- The text is its symbols and as many pad bytes as the padded length asks for; without PAD_EN that is none. -/
theorem encodeBytes_eq (p : Params) (xs : List Byte) :
    encodeBytes p xs =
      encodeSymbols p xs ++ List.replicate (encodedLenPadded p xs.length - encodedLen p xs.length) padChar := by
  cases hpad : p.padEn <;> simp [encodeBytes, encodedLenPadded, hpad]

theorem length_encodeBytes (c : Config) (xs : List Byte) :
    (encodeBytes c.toParams xs).length = encodedLenPadded c.toParams xs.length := by
  obtain ⟨-, -, hle, -⟩ := encodedLen_bounds c xs.length
  rw [encodeBytes_eq, List.length_append, length_encodeSymbols, List.length_replicate, Nat.add_sub_cancel' hle]

theorem take_encodeBytes (p : Params) (xs : List Byte) :
    (encodeBytes p xs).take (encodedLen p xs.length) = encodeSymbols p xs := by
  rw [encodeBytes_eq, List.take_left' (length_encodeSymbols p xs)]

theorem drop_encodeBytes (p : Params) (xs : List Byte) :
    (encodeBytes p xs).drop (encodedLen p xs.length) =
      List.replicate (encodedLenPadded p xs.length - encodedLen p xs.length) padChar := by
  rw [encodeBytes_eq, List.drop_left' (length_encodeSymbols p xs)]

/-- Settles O44: the first encodedLen(n) bytes are the symbols, and the bytes behind them are pad bytes. -/
theorem encodeOutputShape : Obligations.EncodeOutputShape := fun c xs =>
  ⟨length_encodeBytes c xs, fun _ hb => mem_alpha_of_mem_encodeSymbols (take_encodeBytes c.toParams xs ▸ hb),
    fun _ hb => List.eq_of_mem_replicate (drop_encodeBytes c.toParams xs ▸ hb)⟩

theorem encodeBytes_getElem?_of_symbol {p : Params} {xs : List Byte} {j : Nat} (hj : j < encodedLen p xs.length) :
    (encodeBytes p xs)[j]? = some (symbolAt p (msbValue (bitOfBytes xs) (j * p.chunkBits) p.chunkBits)) := by
  rw [encodeBytes_eq, List.getElem?_append_left (by rwa [length_encodeSymbols])]
  simp [encodeSymbols, hj]

theorem encodeBytes_getElem?_of_pad {p : Params} {xs : List Byte} {j : Nat} (hj : encodedLen p xs.length ≤ j)
    (hlt : j < encodedLenPadded p xs.length) : (encodeBytes p xs)[j]? = some padChar := by
  rw [encodeBytes_eq, List.getElem?_append_right (by rwa [length_encodeSymbols]), length_encodeSymbols,
    List.getElem?_replicate_of_lt (by omega)]

end Sys2Proof.Machine
end

section
/-! ENCODE on the machine (41_encode.md R130 to R136): its space check, its completion, and the bytes it writes. -/

open Sys2Proof Sys2Proof.Machine

namespace Sys2Proof.Machine

theorem encodeTick_of_main {s : State} (hctl : s.ctl = .main) : encodeTick s = .next (encodeMain s) := by
  simp only [encodeTick, hctl]

/-- With the regions in range the space check decides the first step of ENCODE. -/
theorem encodeTick_atStart {s : State} (hregions : s.regionsInRange) :
    encodeTick (atStart s) = .next (if s.cap < encodedLenPadded s.config.toParams s.len
      then raise (.notEnoughSpace (encodedLenPadded s.config.toParams s.len)) (atStart s)
      else startMain (atStart s)) := by
  obtain ⟨hsrc, hdst⟩ := hregions
  have hrange : ((atStart s).badSrc || (atStart s).badDst) = false := by simp [hsrc, hdst]
  show Host.Outcome.next (encodeStart (atStart s)) = _
  rw [encodeStart, hrange]
  rfl

theorem exec_encode_of_lack {s : State} (hregions : s.regionsInRange)
    (hcap : s.cap < encodedLenPadded s.config.toParams s.len) :
    exec .encode s = .next (raise (.notEnoughSpace (encodedLenPadded s.config.toParams s.len)) (atStart s)) := by
  have htick := encodeTick_atStart hregions
  rw [if_pos hcap] at htick
  exact runEngine_now htick rfl (Nat.succ_pos _)

/-- The end of the main pass of an ENCODE that started in s: everything is read and written. -/
structure EncodeEnd (s u : State) : Prop where
  loop : EncodeLoop s u
  outPos : u.outPos = encodedLenPadded s.config.toParams s.len
  inPos : u.inPos = s.len

/-- What is left to do in the main pass of an ENCODE: bytes to read and bytes to write. -/
def encodeLeft (s u : State) : Nat :=
  (s.len - u.inPos) + (encodedLenPadded s.config.toParams s.len - u.outPos)

/-- With space enough ENCODE completes with the required size at the end of its main pass, and whatever the steps of its main pass
keep holds there. -/
theorem exec_encode_completes {s : State} (hregions : s.regionsInRange)
    (hcap : encodedLenPadded s.config.toParams s.len ≤ s.cap) {P : State → Prop} (hstart : P (startMain (atStart s)))
    (hkeep : ∀ u, EncodeLoop s u → P u → EncodeLoop s (encodeMain u) → P (encodeMain u)) :
    ∃ u, exec .encode s = .next (finish (encodedLenPadded s.config.toParams s.len) u) ∧ EncodeEnd s u ∧ P u := by
  have htick := encodeTick_atStart hregions
  rw [if_neg (Nat.not_lt.mpr hcap)] at htick
  have hstep : ∀ u, EncodeLoop s u ∧ P u → ∃ t, encodeTick u = .next t ∧
      ((t.phase = .idle ∧ ∃ v, t = finish (encodedLenPadded s.config.toParams s.len) v ∧ EncodeEnd s v ∧ P v) ∨
        (t.phase = .run ∧ (EncodeLoop s t ∧ P t) ∧ encodeLeft s t < encodeLeft s u)) := by
    rintro u ⟨hloop, hu⟩
    refine ⟨_, encodeTick_of_main hloop.ctl, ?_⟩
    rcases encodeMain_loop hloop with ⟨hend, hout, hin⟩ | ⟨hnext, hless⟩
    · exact .inl ⟨hend ▸ rfl, u, hend, ⟨hloop, hout, hin⟩, hu⟩
    · exact .inr ⟨hnext.phase, ⟨hnext, hkeep u hloop hu hnext⟩, hless⟩
  obtain ⟨t, hrun, -, u, rfl, hend⟩ := runEngine_completes hstep
    (s.len + encodedLenPadded s.config.toParams s.len + 1) _ ⟨EncodeLoop.start s, hstart⟩ (Nat.lt_succ_self _)
  exact ⟨u, (runEngine_step htick rfl).trans hrun, hend⟩

theorem EncodeEnd.keepsOutside {s u : State} (h : EncodeEnd s u) :
    KeepsOutside s.dst (encodedLenPadded s.config.toParams s.len) s.mem u.mem :=
  h.loop.mem.mono (h.outPos ▸ Nat.min_le_left _ _)

/-- Settles O42: the completion at the end of the main pass, whose loop keeps the frame. -/
theorem encodeCountAndFrame : Obligations.EncodeCountAndFrame := by
  intro s hregions hcap
  obtain ⟨u, hexec, hend, -⟩ :=
    exec_encode_completes (P := fun _ => True) hregions hcap trivial fun _ _ _ _ => trivial
  refine ⟨_, hexec, exec_frame hexec, ⟨rfl, rfl, ?_, rfl, rfl⟩, hend.outPos, hend.inPos, hend.keepsOutside⟩
  rw [← Nat.shiftRight_eq_div_pow]
  rfl

/-- Settles O41: too little space ends ENCODE at its check, and with enough it completes. -/
theorem encodeSpaceCheck : Obligations.EncodeSpaceCheck := by
  refine fun s hregions => ⟨fun hlack => ?_, fun hcap => ?_⟩
  · rw [exec_encode_of_lack hregions hlack, ← Nat.shiftRight_eq_div_pow]
    rfl
  · obtain ⟨t, hexec, -, hdone, -⟩ := encodeCountAndFrame s hregions hcap
    exact ⟨t, hexec, hdone.status⟩

/-! ### The bytes that ENCODE writes -/

theorem State.length_input (s : State) : s.input.length = s.len := Memory.length_bytes _ _ _

/-- While input is left or bits are pending the cursors count the bits moved. -/
theorem EncodeLoop.bits_moved {s u : State} (h : EncodeLoop s u) (hopen : u.inPos < s.len ∨ 0 < u.acc.held) :
    u.outPos * s.config.chunkBits + u.acc.held = 8 * u.inPos := by
  rcases h.bits with hmoved | ⟨hend, hnone, -⟩
  · exact hmoved
  · omega

/-- While bits are pending a symbol is due. -/
theorem EncodeLoop.outPos_lt {s u : State} (h : EncodeLoop s u) (hheld : 0 < u.acc.held) :
    u.outPos < encodedLen s.config.toParams s.len := by
  obtain ⟨hbits, -⟩ := encodedLen_bounds s.config s.len
  have hin := h.inPos
  have hmoved := h.bits_moved (.inr hheld)
  exact Nat.lt_of_mul_lt_mul_right (a := s.config.chunkBits) (by omega)

/-- With the input read and no bit pending every symbol is written. -/
theorem EncodeLoop.le_outPos {s u : State} (h : EncodeLoop s u) (hend : s.len ≤ u.inPos) (hheld : u.acc.held = 0) :
    encodedLen s.config.toParams s.len ≤ u.outPos := by
  obtain ⟨-, hbits, -⟩ := encodedLen_bounds s.config s.len
  rcases h.bits with hmoved | ⟨-, -, hle, -⟩
  · have hin := h.inPos
    refine Nat.le_of_lt_succ (Nat.lt_of_mul_lt_mul_right (a := s.config.chunkBits) ?_)
    rw [Nat.succ_mul]
    omega
  · exact hle

/-- An input byte of an ENCODE over disjoint regions still reads as at the start. -/
theorem EncodeLoop.read_input {s u : State} (h : EncodeLoop s u) (hdisjoint : s.regionsDisjoint) (hin : u.inPos < s.len) :
    u.mem.read (u.src + u.inPos) = s.input.getD u.inPos 0 := by
  obtain ⟨hsrc, -⟩ := h.frame.operands
  rw [State.input, Memory.getD_bytes hin, hsrc]
  refine h.mem _ (Bool.eq_false_iff.mpr fun hdst => hdisjoint (s.src + u.inPos) ?_)
  rw [inRegion_iff] at hdst ⊢
  rw [inRegion_iff]
  omega

/-- What an ENCODE of s has done at u: the bytes up to its cursor are those of encodeBytes, and the pending bits are the next ones of
the input's bit string. -/
structure EncodedSoFar (s u : State) : Prop where
  memWf : u.mem.wf
  written : ∀ j < u.outPos, (encodeBytes s.config.toParams s.input)[j]? = some (u.mem.read (s.dst + j))
  pending : u.acc.pending = msbValue (bitOfBytes s.input) (u.outPos * s.config.chunkBits) u.acc.held

theorem EncodedSoFar.start {s : State} (hwf : s.mem.wf) : EncodedSoFar s (startMain (atStart s)) where
  memWf := hwf
  written := fun _ hj => absurd hj (Nat.not_lt_zero _)
  pending := rfl

/-- A write of the next byte of encodeBytes, inside the destination region, which leaves the next bits pending. -/
theorem EncodedSoFar.emit {s u : State} (h : EncodedSoFar s u) (hframe : CommandFrame s u) (hcap : u.outPos < s.cap) {v : Byte}
    {acc : Acc} (hv : (encodeBytes s.config.toParams s.input)[u.outPos]? = some v)
    (hacc : acc.pending = msbValue (bitOfBytes s.input) ((u.outPos + 1) * s.config.chunkBits) acc.held) :
    EncodedSoFar s (emit v { u with acc := acc }) := by
  obtain ⟨-, -, hdst, hcapacity⟩ := hframe.operands
  have hmem : (Machine.emit v { u with acc := acc }).mem = u.mem.write (s.dst + u.outPos) v := by
    rw [emit_mem]
    show (if u.outPos < u.cap then u.mem.write (u.dst + u.outPos) v else u.mem) = _
    rw [hcapacity, hdst, if_pos hcap]
  refine ⟨hmem ▸ Memory.write_wf h.memWf _ _, fun j hj => ?_, hacc⟩
  rw [hmem, Memory.read_write h.memWf]
  rcases Nat.lt_succ_iff_lt_or_eq.mp (show j < u.outPos + 1 from hj) with hlt | rfl
  · rw [if_neg (by omega)]
    exact h.written j hlt
  · rw [if_pos rfl]
    exact hv

/-- The next input byte goes below the pending bits. -/
theorem EncodedSoFar.pending_push {s u : State} (h : EncodedSoFar s u) (hloop : EncodeLoop s u)
    (hdisjoint : s.regionsDisjoint) (hheld : u.acc.held < s.config.chunkBits) (hin : u.inPos < s.len) :
    (u.acc.push s.config.accWidth (u.mem.read (u.src + u.inPos)).toNat 8).pending =
      msbValue (bitOfBytes s.input) (u.outPos * s.config.chunkBits) (u.acc.held + 8) := by
  have hfit : u.acc.held + 8 ≤ s.config.accWidth := by
    have := s.config.chunkBits_le
    have := s.config.accWidth_ge
    omega
  rw [Acc.pending_push_of_lt (BitVec.isLt _) hfit, h.pending, hloop.read_input hdisjoint hin, ← msbValue_bitOfBytes,
    ← hloop.bits_moved (.inl hin), msbValue_add]

/-- A take reads the next symbol value of the bit string. -/
theorem EncodedSoFar.takeValue_eq {s u : State} (h : EncodedSoFar s u) (hheld : s.config.chunkBits ≤ u.acc.held) :
    u.acc.takeValue s.config.chunkBits =
      msbValue (bitOfBytes s.input) (u.outPos * s.config.chunkBits) s.config.chunkBits := by
  obtain ⟨rest, hrest⟩ := Nat.exists_eq_add_of_le hheld
  rw [Acc.takeValue_eq hheld, h.pending, hrest, Nat.add_sub_cancel_left, msbValue_add_div]

/-- A take leaves the bits behind that symbol value pending. -/
theorem EncodedSoFar.pending_taken {s u : State} (h : EncodedSoFar s u) (hheld : s.config.chunkBits ≤ u.acc.held) :
    (u.acc.taken s.config.chunkBits).pending =
      msbValue (bitOfBytes s.input) ((u.outPos + 1) * s.config.chunkBits) (u.acc.held - s.config.chunkBits) := by
  obtain ⟨rest, hrest⟩ := Nat.exists_eq_add_of_le hheld
  rw [Acc.pending_taken, h.pending, hrest, Nat.add_sub_cancel_left, msbValue_add_mod, Nat.succ_mul]

/-- At the end of the input a flush reads the last symbol value of the bit string, which the zeros behind the input fill up. -/
theorem EncodedSoFar.flushValue_eq {s u : State} (h : EncodedSoFar s u) (hloop : EncodeLoop s u) (hend : s.len ≤ u.inPos)
    (hpos : 0 < u.acc.held) (hheld : u.acc.held ≤ s.config.chunkBits) :
    u.acc.flushValue s.config.chunkBits =
      msbValue (bitOfBytes s.input) (u.outPos * s.config.chunkBits) s.config.chunkBits := by
  obtain ⟨fill, hfill⟩ := Nat.exists_eq_add_of_le hheld
  have hzeros : msbValue (bitOfBytes s.input) (u.outPos * s.config.chunkBits + u.acc.held) fill = 0 := by
    refine msbValue_bitOfBytes_of_end ?_ fill
    rw [hloop.bits_moved (.inr hpos), s.length_input]
    exact Nat.mul_le_mul_left 8 hend
  have hsplit := msbValue_add (bitOfBytes s.input) (u.outPos * s.config.chunkBits) u.acc.held fill
  rw [hzeros, ← hfill, Nat.add_zero] at hsplit
  rw [Acc.flushValue_eq hheld, h.pending, hsplit, hfill, Nat.add_sub_cancel_left]

/-- Every step of the main pass of an ENCODE over disjoint regions keeps it. -/
theorem EncodedSoFar.encodeMain {s u : State} (h : EncodedSoFar s u) (hdisjoint : s.regionsDisjoint)
    (hcap : encodedLenPadded s.config.toParams s.len ≤ s.cap) (hloop : EncodeLoop s u)
    (hnext : EncodeLoop s (encodeMain u)) : EncodedSoFar s (encodeMain u) := by
  have hcfg := hloop.frame.config
  obtain ⟨-, hlen, -, -⟩ := hloop.frame.operands
  obtain ⟨-, -, hsize, -⟩ := encodedLen_bounds s.config s.len
  have hinput := s.length_input
  have hK := s.config.chunkBits_ge
  have hnextOut := hnext.outPos_le
  rcases encodeMain_cases u with ⟨hheld, hstep⟩ | ⟨hheld, hin, hstep⟩ | ⟨hheld, hend, hpos, hstep⟩ |
    ⟨-, hend, hnone, -, -, hstep⟩ | ⟨-, -, -, -, hstep⟩ <;> rw [hstep] at hnextOut ⊢
  · -- a whole symbol
    rw [hcfg] at hheld
    have hdue := hloop.outPos_lt (by omega)
    refine h.emit hloop.frame (by omega) ?_ ?_
    · rw [hcfg, h.takeValue_eq hheld, encodeBytes_getElem?_of_symbol (hinput ▸ hdue)]
    · rw [hcfg]
      exact h.pending_taken hheld
  · -- the next input byte
    rw [hcfg] at hheld ⊢
    exact ⟨h.memWf, h.written, h.pending_push hloop hdisjoint hheld (hlen ▸ hin)⟩
  · -- the final partial symbol
    rw [hcfg] at hheld
    have hdue := hloop.outPos_lt hpos
    refine h.emit hloop.frame (by omega) ?_ (Acc.pending_flushed _)
    rw [hcfg, h.flushValue_eq hloop (hlen ▸ hend) hpos (by omega), encodeBytes_getElem?_of_symbol (hinput ▸ hdue)]
  · -- a pad byte
    have hwritten := hloop.le_outPos (hlen ▸ hend) hnone
    rw [emit_outPos] at hnextOut
    have hpad := encodeBytes_getElem?_of_pad (hinput ▸ hwritten) (hinput ▸ hnextOut)
    refine h.emit (acc := u.acc) hloop.frame (by omega) hpad ?_
    have hpending := h.pending
    rw [hnone] at hpending ⊢
    exact hpending
  · -- the completion
    exact ⟨h.memWf, h.written, h.pending⟩

/-- Settles O43: what every step of the main pass keeps, at its end. -/
theorem encodeWritesItsPureForm : Obligations.EncodeWritesItsPureForm := by
  intro s hwf hregions hcap hdisjoint
  obtain ⟨u, hexec, hend, hdone⟩ := exec_encode_completes hregions hcap (EncodedSoFar.start hwf)
    fun u hloop hu hnext => hu.encodeMain hdisjoint hcap hloop hnext
  refine ⟨_, hexec, rfl, ?_, hend.keepsOutside⟩
  refine List.ext_getElem (by rw [Memory.length_bytes, length_encodeBytes, s.length_input]; rfl) fun j hj hj' => ?_
  rw [Memory.length_bytes] at hj
  have hwritten := hdone.written j (hend.outPos ▸ hj)
  rw [List.getElem?_eq_getElem hj', Option.some_inj] at hwritten
  rw [hwritten, Memory.getElem_bytes]
  rfl

end Sys2Proof.Machine
end

section
/-! The round trip on the pure forms (41_encode.md R138): the scan of an encoded text covers its symbols, each symbol decodes to its
value, and the values' bit string is that of the bytes. -/

open Sys2Proof Sys2Proof.Machine

namespace Sys2Proof.Machine

theorem decodeByte_symbolAt {c : Config} {v : Nat} (hv : v < c.radix) :
    decodeByte c.toParams (symbolAt c.toParams v) = some v :=
  decodeByte_eq_some.mpr ⟨hv, mem_accepted.mpr (.inl List.mem_cons_self)⟩

/-- No symbol of an encoded text is the pad byte (V5). -/
theorem ne_padChar_of_mem_encodeSymbols {c : Config} {xs : List Byte} {b : Byte} (hb : b ∈ encodeSymbols c.toParams xs) :
    b ≠ padChar :=
  c.not_pad (List.mem_append_left _ (mem_alpha_of_mem_encodeSymbols hb))

theorem findIdx_pads (n : Nat) : (List.replicate n padChar).findIdx (· == padChar) = 0 := by
  cases n with
  | zero => rfl
  | succ n => simp [List.replicate_succ, List.findIdx_cons]

/-- The scan of an encoded text ends behind its symbols. -/
theorem scanLength_encodeBytes (c : Config) (xs : List Byte) :
    scanLength c.toParams (encodeBytes c.toParams xs) = encodedLen c.toParams xs.length := by
  cases hpad : c.padEn with
  | false => simp [scanLength, hpad, length_encodeBytes, encodedLenPadded]
  | true =>
    have hsymbols : (encodeSymbols c.toParams xs).findIdx (· == padChar) = (encodeSymbols c.toParams xs).length :=
      List.findIdx_eq_length_of_false fun b hb => by simpa using ne_padChar_of_mem_encodeSymbols hb
    rw [scanLength, if_pos hpad, encodeBytes_eq, List.findIdx_append, hsymbols, if_neg (Nat.lt_irrefl _), findIdx_pads,
      Nat.zero_add, length_encodeSymbols]

/-- The values of an encoded text's symbols are the K-bit parts of the bytes' bit string. -/
theorem symbolValues_encodeSymbols (c : Config) (xs : List Byte) :
    symbolValues c.toParams (encodeSymbols c.toParams xs) =
      (List.range (encodedLen c.toParams xs.length)).map fun j =>
        msbValue (bitOfBytes xs) (j * c.chunkBits) c.chunkBits := by
  rw [symbolValues, encodeSymbols, List.map_map]
  refine List.map_congr_left fun j _ => ?_
  rw [Function.comp_apply, decodeByte_symbolAt (msbValue_lt_radix c _ _), Option.getD_some]

/-- The bit string of the k-bit parts of a bit string is that bit string. -/
theorem bitOfValues_of_parts (bit : Nat → Bool) {k m r : Nat} (hr : r < m * k) :
    bitOfValues k ((List.range m).map fun j => msbValue bit (j * k) k) r = bit r := by
  have hk : 0 < k := Nat.pos_of_mul_pos_left (Nat.zero_lt_of_lt hr)
  have hpart : r / k < m := (Nat.div_lt_iff_lt_mul hk).mpr hr
  rw [bitOfValues, List.getD_eq_getElem _ _ (by simpa using hpart), List.getElem_map, List.getElem_range,
    testBit_msbValue _ _ (Nat.mod_lt r hk), Nat.div_add_mod']

/-- The symbols of n bytes hold n whole bytes. -/
theorem decodedLen_encodedLen (c : Config) (n : Nat) : decodedLen c.toParams (encodedLen c.toParams n) = n := by
  obtain ⟨hle, hlt, -⟩ := encodedLen_bounds c n
  have hK := c.chunkBits_le
  unfold decodedLen
  omega

/-- The byte stream of an encoded text's symbols gives the bytes back. -/
theorem streamBytes_encodeSymbols (c : Config) (xs : List Byte) :
    streamBytes c.chunkBits (symbolValues c.toParams (encodeSymbols c.toParams xs)) xs.length = xs := by
  obtain ⟨hbits, -⟩ := encodedLen_bounds c xs.length
  refine List.ext_getElem (by simp [streamBytes]) fun q hq hq' => ?_
  have hsame : msbValue (bitOfValues c.chunkBits (symbolValues c.toParams (encodeSymbols c.toParams xs))) (8 * q) 8 =
      msbValue (bitOfBytes xs) (8 * q) 8 := by
    refine msbValue_congr fun t ht => ?_
    rw [symbolValues_encodeSymbols, bitOfValues_of_parts _ (by omega)]
  simp only [streamBytes, List.getElem_map, List.getElem_range, hsame, msbValue_bitOfBytes, BitVec.ofNat_toNat,
    BitVec.setWidth_eq, List.getD_eq_getElem _ _ hq']

/-- Settles O50: the scan covers the symbols, all of them decode, and their byte stream gives the bytes back. -/
theorem roundTrip : Obligations.RoundTrip := by
  intro c xs
  have hvalid : (encodeSymbols c.toParams xs).findIdx? (fun ch => (decodeByte c.toParams ch).isNone) = none := by
    refine List.findIdx?_eq_none_iff.mpr fun b hb => ?_
    obtain ⟨j, -, rfl⟩ := List.mem_map.mp hb
    rw [decodeByte_symbolAt (msbValue_lt_radix c _ _), Option.isNone_some]
  have hlength : (encodeSymbols c.toParams xs).length * c.chunkBits / 8 = xs.length := by
    rw [length_encodeSymbols]
    exact decodedLen_encodedLen c xs.length
  simp only [decodeBytes, scanLength_encodeBytes, take_encodeBytes, hvalid, hlength, streamBytes_encodeSymbols]

end Sys2Proof.Machine
end

section
/-! The pure form of DECODE on a text split where its scan ends (42_decode.md R153, R154, R156, R157, R160): behind its last byte, at a
pad byte that stops it, or at a byte that is no symbol. -/

open Sys2Proof Sys2Proof.Machine

namespace Sys2Proof.Machine

/-! ### Texts of symbols -/

/-- Every byte of a text is a symbol. -/
def AllSymbols (p : Params) (ts : List Byte) : Prop := ∀ ch ∈ ts, decodeByte p ch ≠ none

/-- A byte ends the scan without an error: it is the pad byte, and PAD_EN = 1 (R153). -/
def StopsScan (p : Params) (ch : Byte) : Prop := p.padEn = true ∧ ch = padChar

/-- The whole bytes in the bit string of a text of symbols (R156). -/
def symbolStream (p : Params) (ts : List Byte) : List Byte :=
  streamBytes p.chunkBits (symbolValues p ts) (decodedLen p ts.length)

theorem length_symbolStream (p : Params) (ts : List Byte) : (symbolStream p ts).length = decodedLen p ts.length := by
  simp [symbolStream, streamBytes]

theorem allSymbols_nil (p : Params) : AllSymbols p [] := fun _ h => nomatch h

theorem allSymbols_append {p : Params} {ts us : List Byte} :
    AllSymbols p (ts ++ us) ↔ AllSymbols p ts ∧ AllSymbols p us := List.forall_mem_append

theorem allSymbols_singleton {p : Params} {ch : Byte} : AllSymbols p [ch] ↔ decodeByte p ch ≠ none := List.forall_mem_singleton

/-- The pad byte is no symbol (V5). -/
theorem decodeByte_padChar (c : Config) : decodeByte c.toParams padChar = none := neverAcceptedBytes c padChar (by decide)

theorem AllSymbols.ne_padChar {c : Config} {ts : List Byte} (h : AllSymbols c.toParams ts) : ∀ ch ∈ ts, ch ≠ padChar := by
  rintro ch hch rfl
  exact h padChar hch (decodeByte_padChar c)

/-! ### The scan -/

/-- The scanned characters are those before the first byte that stops the scan. -/
theorem take_scanLength (p : Params) (ts : List Byte) :
    ts.take (scanLength p ts) = ts.takeWhile fun ch => !(p.padEn && ch == padChar) := by
  cases hpad : p.padEn with
  | false =>
    have hall : ts.takeWhile (fun _ => true) = ts := List.takeWhile_eq_self_iff.mpr fun _ _ => rfl
    simp [scanLength, hpad, hall]
  | true => simp [scanLength, hpad, List.takeWhile_eq_take_findIdx_not]

/-- A scan passes symbols. -/
theorem take_scanLength_append {c : Config} {ts : List Byte} (h : AllSymbols c.toParams ts) (us : List Byte) :
    (ts ++ us).take (scanLength c.toParams (ts ++ us)) = ts ++ us.take (scanLength c.toParams us) := by
  rw [take_scanLength, take_scanLength]
  exact List.takeWhile_append_of_pos fun ch hch => by simp [h.ne_padChar ch hch]

theorem take_scanLength_of_stop {p : Params} {ch : Byte} (h : StopsScan p ch) (us : List Byte) :
    (ch :: us).take (scanLength p (ch :: us)) = [] := by
  rw [take_scanLength]
  exact List.takeWhile_cons_of_neg (by simp [h.1, h.2])

theorem take_scanLength_of_pass {p : Params} {ch : Byte} (h : ¬StopsScan p ch) (us : List Byte) :
    (ch :: us).take (scanLength p (ch :: us)) = ch :: us.take (scanLength p us) := by
  rw [take_scanLength, take_scanLength]
  exact List.takeWhile_cons_of_pos (by simpa [StopsScan, imp_iff_not_or] using h)

theorem findIdx?_of_allSymbols {p : Params} {ts : List Byte} (h : AllSymbols p ts) :
    (ts.findIdx? fun ch => (decodeByte p ch).isNone) = none :=
  List.findIdx?_eq_none_iff.mpr fun ch hch => by simpa [Option.isSome_iff_ne_none] using h ch hch

/-- A scan over symbols alone is a success. -/
theorem decodeBytes_of_scan {p : Params} {ts scanned : List Byte} (hscan : ts.take (scanLength p ts) = scanned)
    (h : AllSymbols p scanned) : decodeBytes p ts = .ok (symbolStream p scanned) := by
  simp only [decodeBytes, hscan, findIdx?_of_allSymbols h]
  rfl

theorem decodeBytes_of_symbols {c : Config} {ts : List Byte} (h : AllSymbols c.toParams ts) :
    decodeBytes c.toParams ts = .ok (symbolStream c.toParams ts) :=
  decodeBytes_of_scan (by simpa [scanLength] using take_scanLength_append h []) h

theorem decodeBytes_of_stop {c : Config} {ts : List Byte} (h : AllSymbols c.toParams ts) {ch : Byte}
    (hstop : StopsScan c.toParams ch) (us : List Byte) :
    decodeBytes c.toParams (ts ++ ch :: us) = .ok (symbolStream c.toParams ts) :=
  decodeBytes_of_scan (by rw [take_scanLength_append h, take_scanLength_of_stop hstop, List.append_nil]) h

theorem decodeBytes_of_invalid {c : Config} {ts : List Byte} (h : AllSymbols c.toParams ts) {ch : Byte}
    (hpass : ¬StopsScan c.toParams ch) (hch : decodeByte c.toParams ch = none) (us : List Byte) :
    decodeBytes c.toParams (ts ++ ch :: us) = .invalidSymbol ts.length ch (symbolStream c.toParams ts) := by
  have hfirst : ((ts ++ ch :: us.take (scanLength c.toParams us)).findIdx? fun b => (decodeByte c.toParams b).isNone) =
      some ts.length := by
    rw [List.findIdx?_append, findIdx?_of_allSymbols h, List.findIdx?_cons, hch]
    simp
  simp only [decodeBytes, take_scanLength_append h, take_scanLength_of_pass hpass, hfirst, List.take_left']
  simp [symbolStream, decodedLen]

/-- Where the scan of a text ends. -/
inductive ScanEnd (p : Params) : List Byte → Prop where
  /-- Every byte is a symbol. -/
  | complete {ts : List Byte} (symbols : AllSymbols p ts) : ScanEnd p ts
  /-- The first byte that is no symbol stops the scan. -/
  | stop {ts : List Byte} {ch : Byte} (us : List Byte) (symbols : AllSymbols p ts) (stops : StopsScan p ch) :
      ScanEnd p (ts ++ ch :: us)
  /-- The first byte that is no symbol aborts the scan. -/
  | invalid {ts : List Byte} {ch : Byte} (us : List Byte) (symbols : AllSymbols p ts) (passes : ¬StopsScan p ch)
      (noSymbol : decodeByte p ch = none) : ScanEnd p (ts ++ ch :: us)

theorem ScanEnd.cons {p : Params} {ch : Byte} (hch : decodeByte p ch ≠ none) {ts : List Byte} (h : ScanEnd p ts) :
    ScanEnd p (ch :: ts) := by
  have hcons {us : List Byte} (hus : AllSymbols p us) : AllSymbols p (ch :: us) := List.forall_mem_cons.mpr ⟨hch, hus⟩
  cases h with
  | complete symbols => exact .complete (hcons symbols)
  | stop us symbols stops => exact .stop us (hcons symbols) stops
  | invalid us symbols passes noSymbol => exact .invalid us (hcons symbols) passes noSymbol

theorem scanEnd (p : Params) (ts : List Byte) : ScanEnd p ts := by
  induction ts with
  | nil => exact .complete (allSymbols_nil p)
  | cons ch ts ih =>
    by_cases hch : decodeByte p ch = none
    · by_cases hstop : StopsScan p ch
      · exact .stop (ts := []) ts (allSymbols_nil p) hstop
      · exact .invalid (ts := []) ts (allSymbols_nil p) hstop hch
    · exact ih.cons hch

/-- Settles O49: the pad byte is where the scan ends, unless it has ended before. -/
theorem padByteStopsOrFails : Obligations.PadByteStopsOrFails := by
  intro c ts us hnone
  refine ⟨fun hpad => ?_, fun hpad hsymbols => ?_⟩
  · cases scanEnd c.toParams ts with
    | complete symbols => rw [decodeBytes_of_stop symbols ⟨hpad, rfl⟩, decodeBytes_of_symbols symbols]
    | stop vs symbols stops => exact absurd (stops.2 ▸ List.mem_append_right _ List.mem_cons_self) hnone
    | invalid vs symbols passes noSymbol =>
      rw [List.append_assoc, List.cons_append, decodeBytes_of_invalid symbols passes noSymbol,
        decodeBytes_of_invalid symbols passes noSymbol]
  · have hpass : ¬StopsScan c.toParams padChar := fun hstop => absurd (hpad.symm.trans hstop.1) Bool.false_ne_true
    rw [decodeBytes_of_invalid hsymbols hpass (decodeByte_padChar c), decodeBytes_of_symbols hsymbols]
    rfl

/-! ### The bound of the bytes written -/

/-- A text has its trailing pad bytes behind its last byte that is none. -/
theorem trailingPads_append_le {ts : List Byte} (h : ∀ ch ∈ ts, ch ≠ padChar) (us : List Byte) :
    trailingPads (ts ++ us) ≤ us.length := by
  have hnone : ts.reverse.takeWhile (· == padChar) = [] :=
    List.takeWhile_eq_nil_iff.mpr fun hpos => by
      rw [beq_iff_eq]
      exact h _ (List.mem_reverse.mp (List.getElem_mem hpos))
  rw [trailingPads, List.reverse_append, List.takeWhile_append, hnone, List.append_nil]
  split
  · rw [List.length_reverse]
  · exact Nat.le_trans (List.takeWhile_sublist _).length_le (Nat.le_of_eq List.length_reverse)

/-- The symbols at the start of a text give at most the required size (R157). -/
theorem decodedLen_le_stripped {c : Config} {ts : List Byte} (h : AllSymbols c.toParams ts) (us : List Byte) :
    decodedLen c.toParams ts.length ≤ decodedLenStripped c.toParams (ts ++ us) := by
  have hpads := trailingPads_append_le h.ne_padChar us
  refine Nat.div_le_div_right (Nat.mul_le_mul_right _ ?_)
  rw [List.length_append]
  omega

theorem length_written_le (c : Config) (ts : List Byte) :
    (decodeBytes c.toParams ts).written.length ≤ decodedLenStripped c.toParams ts := by
  cases scanEnd c.toParams ts with
  | complete symbols =>
    rw [decodeBytes_of_symbols symbols]
    simpa [DecodeResult.written, length_symbolStream] using decodedLen_le_stripped symbols []
  | stop us symbols stops =>
    rw [decodeBytes_of_stop symbols stops]
    exact (length_symbolStream _ _).le.trans (decodedLen_le_stripped symbols _)
  | invalid us symbols passes noSymbol =>
    rw [decodeBytes_of_invalid symbols passes noSymbol]
    exact (length_symbolStream _ _).le.trans (decodedLen_le_stripped symbols _)

end Sys2Proof.Machine
end

section
/-! Texts up to letter case (42_decode.md R160): what a change of case keeps of each byte, and so of a whole text. -/

open Sys2Proof Sys2Proof.Machine

namespace Sys2Proof.Machine

/-- A change of letter case, as a case-insensitive configuration sees it. -/
structure FoldsCase (c : Config) (f : Byte → Byte) : Prop where
  decodeByte : ∀ b, decodeByte c.toParams (f b) = decodeByte c.toParams b
  pad : ∀ b, f b = padChar ↔ b = padChar
  lower : ∀ b, lower b = lower (f b)

/-- Bytes with the same lower-case form decode alike in a case-insensitive configuration. -/
theorem decodeByte_of_lower_eq {c : Config} (hcase : c.caseSens = false) {b b' : Byte} (h : lower b = lower b') :
    decodeByte c.toParams b = decodeByte c.toParams b' :=
  decodeByte_congr fun i hi => by rw [mem_accepted_iff_lower hcase hi, mem_accepted_iff_lower hcase hi, h]

theorem upper_eq_padChar (b : Byte) : upper b = padChar ↔ b = padChar := by
  unfold upper padChar
  split_ifs <;> bv_omega

theorem lower_eq_padChar (b : Byte) : lower b = padChar ↔ b = padChar := by
  unfold lower padChar
  split_ifs <;> bv_omega

theorem foldsCase_upper {c : Config} (hcase : c.caseSens = false) : FoldsCase c upper where
  decodeByte := fun b => decodeByte_of_lower_eq hcase (lower_upper b)
  pad := upper_eq_padChar
  lower := fun b => (lower_upper b).symm

theorem foldsCase_lower {c : Config} (hcase : c.caseSens = false) : FoldsCase c lower where
  decodeByte := fun b => decodeByte_of_lower_eq hcase (lower_lower b)
  pad := lower_eq_padChar
  lower := fun b => (lower_lower b).symm

section
variable {c : Config} {f : Byte → Byte} (hf : FoldsCase c f)
include hf

theorem FoldsCase.allSymbols {ts : List Byte} (h : AllSymbols c.toParams ts) : AllSymbols c.toParams (ts.map f) :=
  List.forall_mem_map.mpr fun ch hch => hf.decodeByte ch ▸ h ch hch

theorem FoldsCase.stopsScan (ch : Byte) : StopsScan c.toParams (f ch) ↔ StopsScan c.toParams ch :=
  and_congr_right fun _ => hf.pad ch

theorem FoldsCase.symbolStream (ts : List Byte) : symbolStream c.toParams (ts.map f) = symbolStream c.toParams ts := by
  simp only [Machine.symbolStream, symbolValues, List.map_map, Function.comp_def, hf.decodeByte, List.length_map]

theorem FoldsCase.decodeBytes (ts : List Byte) :
    SameUpToCase (decodeBytes c.toParams ts) (decodeBytes c.toParams (ts.map f)) := by
  cases scanEnd c.toParams ts with
  | complete symbols =>
    rw [decodeBytes_of_symbols symbols, decodeBytes_of_symbols (hf.allSymbols symbols), hf.symbolStream]
    rfl
  | stop us symbols stops =>
    rw [List.map_append, List.map_cons, decodeBytes_of_stop symbols stops,
      decodeBytes_of_stop (hf.allSymbols symbols) ((hf.stopsScan _).mpr stops), hf.symbolStream]
    rfl
  | @invalid ts ch us symbols passes noSymbol =>
    rw [List.map_append, List.map_cons, decodeBytes_of_invalid symbols passes noSymbol,
      decodeBytes_of_invalid (hf.allSymbols symbols) (mt (hf.stopsScan _).mp passes) ((hf.decodeByte _).trans noSymbol),
      hf.symbolStream, List.length_map]
    exact ⟨rfl, hf.lower ch, rfl⟩

theorem FoldsCase.trailingPads (ts : List Byte) : trailingPads (ts.map f) = trailingPads ts := by
  have hsame : (fun ch => ch == padChar) ∘ f = fun ch => ch == padChar :=
    funext fun ch => Bool.eq_iff_iff.mpr (by simpa using hf.pad ch)
  rw [Machine.trailingPads, Machine.trailingPads, ← List.map_reverse, List.takeWhile_map, List.length_map, hsame]

end

/-- Settles O51: upper and lower are changes of letter case. -/
theorem caseFoldedTextsDecodeAlike : Obligations.CaseFoldedTextsDecodeAlike := fun _ ts hcase =>
  have hupper := foldsCase_upper hcase
  have hlower := foldsCase_lower hcase
  ⟨hupper.decodeBytes ts, hlower.decodeBytes ts, hupper.trailingPads ts, hlower.trailingPads ts⟩

end Sys2Proof.Machine
end

section
/-! DECODE on the machine (42_decode.md R150 to R155): its checks, the steps of its main pass, and its completion. -/

open Sys2Proof Sys2Proof.Machine

namespace Sys2Proof.Machine

/-! ### The checks -/

theorem State.bad_region {s : State} (h : ¬s.regionsInRange) : (s.badSrc || s.badDst) = true := by
  rw [State.regionsInRange] at h
  cases hsrc : s.badSrc with
  | true => rfl
  | false => simpa [hsrc] using h

theorem exec_decode_of_bad_region {s : State} (h : ¬s.regionsInRange) :
    exec .decode s = .next (raise (.addressRange s.badSrc s.badDst) (atStart s)) := by
  have htick : decodeTick (atStart s) = .next (raise (.addressRange s.badSrc s.badDst) (atStart s)) := by
    show Host.Outcome.next (decodeStart (atStart s)) = _
    rw [decodeStart, atStart_badSrc, atStart_badDst, if_pos (s.bad_region h)]
  exact runEngine_now htick rfl (Nat.succ_pos _)

/-- With the regions in range DECODE comes to its space check, with steps enough for its main pass left. -/
theorem exec_decode_sized {s : State} (hregions : s.regionsInRange) :
    ∃ fuel, s.len + decodedLen s.config.toParams s.len + 1 ≤ fuel ∧
      exec .decode s = runEngine decodeTick (fuel + 1) (s.atControl (.sized (trailingPads s.input))) := by
  have hpads := trailingPads_input_le s
  refine ⟨decodeFuel s - (trailingPads s.input + 3), by unfold decodeFuel; omega, ?_⟩
  rw [← runEngine_decode_sized s hregions]
  show runEngine decodeTick (decodeFuel s) (atStart s) = _
  congr 1
  unfold decodeFuel
  omega

/-- The space check compares DST_CAP with the required size of the input (R151). -/
theorem decodeTick_sized (s : State) :
    decodeTick (s.atControl (.sized (trailingPads s.input))) =
      .next (if s.cap < decodedLenStripped s.config.toParams s.input
        then raise (.notEnoughSpace (decodedLenStripped s.config.toParams s.input))
          (s.atControl (.sized (trailingPads s.input)))
        else startMain (s.atControl (.sized (trailingPads s.input)))) := by
  rw [decodedLenStripped_input]
  rfl

theorem exec_decode_of_lack {s : State} (hregions : s.regionsInRange)
    (hcap : s.cap < decodedLenStripped s.config.toParams s.input) :
    exec .decode s = .next (raise (.notEnoughSpace (decodedLenStripped s.config.toParams s.input))
      (s.atControl (.sized (trailingPads s.input)))) := by
  obtain ⟨fuel, -, hexec⟩ := exec_decode_sized hregions
  have htick := decodeTick_sized s
  rw [if_pos hcap] at htick
  rw [hexec]
  exact runEngine_now htick rfl (Nat.succ_pos fuel)

/-- Settles O45: the space check ends the command before its main pass, and the required size fits RESULT_LO. -/
theorem decodeSpaceCheck : Obligations.DecodeSpaceCheck := by
  intro s hregions hlack
  have hfits : decodedLenStripped s.config.toParams s.input < 2 ^ 32 := by
    rw [decodedLenStripped_input]
    exact decodedLen_lt s.config s.srcLen (Nat.sub_le _ _)
  rw [exec_decode_of_lack hregions hlack, raise, complete, ErrorKind.result, resultHi_eq_zero hfits]
  rfl

/-! ### The main pass -/

/-- The byte that the scan comes to next. -/
def State.nextChar (s : State) : Byte := s.mem.read (s.src + s.inPos)

/-- What a step of the main pass that goes on can do: write a whole byte, stop or abort the scan, or push a symbol's value. -/
inductive DecodeStep (u : State) : State → Prop where
  | byte (whole : 8 ≤ u.acc.held) :
      DecodeStep u (emit (BitVec.ofNat 8 (u.acc.takeValue 8)) { u with acc := u.acc.taken 8 })
  | stop (stops : StopsScan u.config.toParams u.nextChar) : DecodeStep u { u with ctl := .stopped }
  | invalid (passes : ¬StopsScan u.config.toParams u.nextChar) (noSymbol : decodeByte u.config.toParams u.nextChar = none) :
      DecodeStep u { u with ctl := .invalid u.nextChar }
  | symbol (v : Nat) (held : u.acc.held < 8) (inPos : u.inPos < u.len)
      (value : decodeByte u.config.toParams u.nextChar = some v) :
      DecodeStep u { u with inPos := u.inPos + 1, acc := u.acc.push u.config.accWidth v u.config.chunkBits }

theorem decodeMain_step {u : State} (hrun : (decodeMain u).phase = .run) : DecodeStep u (decodeMain u) := by
  rcases decodeMain_cases u with ⟨hwhole, hmain⟩ | ⟨hheld, hin, hmain⟩ | ⟨-, -, hmain⟩ <;> rw [hmain] at hrun ⊢
  · exact .byte hwhole
  · change DecodeStep u (decodeChar u u.nextChar)
    rcases decodeChar_cases u u.nextChar with ⟨hpad, hstop, hchar⟩ | ⟨hpass, hnone, hchar⟩ | ⟨-, v, hv, hchar⟩ <;> rw [hchar]
    · exact .stop ⟨hpad, hstop⟩
    · exact .invalid hpass ((lookupByte_eq u.config _).symm.trans hnone)
    · exact .symbol v hheld hin ((lookupByte_eq u.config _).symm.trans hv)
  · cases hrun

/-- Only at the control point of the main pass does a step of its loop go on. -/
theorem DecodeLoop.step {s u t : State} (h : DecodeLoop s u) (htick : decodeTick u = .next t) (hrun : t.phase = .run) :
    u.ctl = .main ∧ DecodeStep u t := by
  rcases h.ctl with hctl | hctl | ⟨ch, hctl⟩ <;> simp only [decodeTick, hctl] at htick <;> cases htick
  · exact ⟨hctl, decodeMain_step hrun⟩
  · cases hrun
  · cases hrun

/-- The end of the main pass of a DECODE that started in s: t is its completion in u. -/
structure DecodeEnd (s u t : State) : Prop where
  loop : DecodeLoop s u
  held : u.acc.held < 8
  ends : DecodeEnds s u (.next t)

theorem DecodeLoop.left_pos {s u : State} (h : DecodeLoop s u) : 0 < decodeLeft s u := by
  unfold decodeLeft
  split
  · omega
  · next hctl =>
    have := (h.beforeEnd hctl).1
    omega

theorem DecodeEnds.idle {s u t : State} (h : DecodeEnds s u (.next t)) : t.phase = .idle := by
  rcases h with ⟨hdone, -⟩ | ⟨ch, hinvalid, -⟩
  · cases hdone
    rfl
  · cases hinvalid
    rfl

/-- One step of the main pass: it completes, or goes on, with less left to do, by one of the steps of `DecodeStep`. -/
theorem DecodeLoop.progress {s u : State} (h : DecodeLoop s u) :
    ∃ t, decodeTick u = .next t ∧ (DecodeEnd s u t ∨
      DecodeLoop s t ∧ u.ctl = .main ∧ DecodeStep u t ∧ decodeLeft s t < decodeLeft s u) := by
  rcases decodeTick_loop h with ⟨hends, hheld⟩ | ⟨t, htick, hnext, hless⟩
  · obtain ⟨t, htick⟩ := tick_next .decode u
    exact ⟨t, htick, .inl ⟨h, hheld, htick ▸ hends⟩⟩
  · obtain ⟨hctl, hstep⟩ := h.step htick hnext.phase
    exact ⟨t, htick, .inr ⟨hnext, hctl, hstep, hless⟩⟩

/-- With space enough DECODE completes at the end of its main pass, and whatever the steps of its main pass keep holds there. -/
theorem exec_decode_completes {s : State} (hregions : s.regionsInRange)
    (hcap : decodedLenStripped s.config.toParams s.input ≤ s.cap) {P : State → Prop}
    (hstart : ∀ c, P (startMain (s.atControl c)))
    (hkeep : ∀ u t, DecodeLoop s u → P u → u.ctl = .main → DecodeStep u t → DecodeLoop s t → P t) :
    ∃ u t, exec .decode s = .next t ∧ DecodeEnd s u t ∧ P u := by
  obtain ⟨fuel, hfuel, hexec⟩ := exec_decode_sized hregions
  have htick := decodeTick_sized s
  rw [if_neg (Nat.not_lt.mpr hcap)] at htick
  have hstep : ∀ u, DecodeLoop s u ∧ P u → ∃ t, decodeTick u = .next t ∧
      ((t.phase = .idle ∧ ∃ v, DecodeEnd s v t ∧ P v) ∨
        (t.phase = .run ∧ (DecodeLoop s t ∧ P t) ∧ decodeLeft s t - 1 < decodeLeft s u - 1)) := by
    rintro u ⟨hloop, hu⟩
    obtain ⟨t, hnext, hend | ⟨ht, hctl, hmove, hless⟩⟩ := hloop.progress
    · exact ⟨t, hnext, .inl ⟨hend.ends.idle, u, hend, hu⟩⟩
    · have hpos := ht.left_pos
      exact ⟨t, hnext, .inr ⟨ht.phase, ⟨ht, hkeep u t hloop hu hctl hmove ht⟩, by omega⟩⟩
  have hleft : decodeLeft s (startMain (s.atControl (.sized (trailingPads s.input)))) - 1 < fuel := by
    have : decodeLeft s (startMain (s.atControl (.sized (trailingPads s.input)))) =
        s.len - 0 + (decodedLen s.config.toParams s.len - (0 * s.config.chunkBits - 0) / 8) + 1 := rfl
    omega
  obtain ⟨t, hrun, -, u, hend⟩ := runEngine_completes hstep fuel _ ⟨DecodeLoop.start s _, hstart _⟩ hleft
  exact ⟨u, t, hexec.trans ((runEngine_step htick rfl).trans hrun), hend⟩

/-- At the end every whole byte of the symbols is written. -/
theorem DecodeEnd.outPos {s u t : State} (h : DecodeEnd s u t) : u.outPos = u.inPos * s.config.chunkBits / 8 := by
  have hbits := h.loop.bits
  have hheld := h.held
  omega

/-- A scan that has ended at a byte stands at that byte. -/
structure ScanStands (u : State) : Prop where
  stopped : u.ctl = .stopped → StopsScan u.config.toParams u.nextChar
  invalid : ∀ ch, u.ctl = .invalid ch →
    ch = u.nextChar ∧ ¬StopsScan u.config.toParams u.nextChar ∧ decodeByte u.config.toParams u.nextChar = none

theorem ScanStands.of_main {u : State} (hctl : u.ctl = .main) : ScanStands u :=
  ⟨fun h => ControlPoint.noConfusion (hctl.symm.trans h), fun _ h => ControlPoint.noConfusion (hctl.symm.trans h)⟩

theorem DecodeStep.scanStands {u t : State} (h : DecodeStep u t) (hctl : u.ctl = .main) : ScanStands t := by
  cases h with
  | byte whole => exact .of_main hctl
  | stop stops => exact ⟨fun _ => stops, nofun⟩
  | invalid passes noSymbol => exact ⟨nofun, fun _ h => ⟨(ControlPoint.invalid.inj h).symm, passes, noSymbol⟩⟩
  | symbol v held inPos value => exact .of_main hctl

/-! ### When every read precedes every write to the same address -/

/-- No byte that the scan has not reached is overwritten (20_memory.md R69). -/
theorem DecodeLoop.unread_outside {s u : State} (h : DecodeLoop s u) (hfirst : s.decodeReadsFirst) (hin : u.inPos < s.len) :
    inRegion (s.src + u.inPos) s.dst (min u.outPos s.cap) = false := by
  rcases hfirst with hdisjoint | hbefore
  · refine Bool.eq_false_iff.mpr fun hdst => hdisjoint (s.src + u.inPos) ?_
    rw [inRegion_iff] at hdst ⊢
    rw [inRegion_iff]
    omega
  · have hbits := h.bits
    have hK := Nat.mul_le_mul_left u.inPos s.config.chunkBits_le
    rw [inRegion_eq_false]
    omega

theorem DecodeLoop.getElem?_input {s u : State} (h : DecodeLoop s u) (hfirst : s.decodeReadsFirst) (hin : u.inPos < s.len) :
    s.input[u.inPos]? = some u.nextChar := by
  obtain ⟨hsrc, -⟩ := h.frame.operands
  rw [List.getElem?_eq_getElem (s.length_input ▸ hin), State.nextChar, hsrc, h.mem _ (h.unread_outside hfirst hin)]
  exact congrArg some (Memory.getElem_bytes _)

/-- The input is the characters scanned, the next one, and the rest. -/
theorem DecodeLoop.input_eq {s u : State} (h : DecodeLoop s u) (hfirst : s.decodeReadsFirst) (hin : u.inPos < s.len) :
    s.input = s.input.take u.inPos ++ u.nextChar :: s.input.drop (u.inPos + 1) := by
  have hdrop := List.drop_eq_getElem?_toList_append (l := s.input) (i := u.inPos)
  rw [h.getElem?_input hfirst hin] at hdrop
  exact (List.take_append_drop u.inPos s.input).symm.trans (congrArg _ hdrop)

/-- The characters that a DECODE has scanned are symbols. -/
theorem DecodeStep.allSymbols {s u t : State} (hstep : DecodeStep u t) (h : DecodeLoop s u) (hfirst : s.decodeReadsFirst)
    (hsymbols : AllSymbols s.config.toParams (s.input.take u.inPos)) :
    AllSymbols s.config.toParams (s.input.take t.inPos) := by
  cases hstep with
  | byte | stop | invalid => exact hsymbols
  | symbol v held inPos value =>
    obtain ⟨-, hlen, -⟩ := h.frame.operands
    rw [h.frame.config] at value
    rw [List.take_add_one, h.getElem?_input hfirst (hlen ▸ inPos)]
    exact allSymbols_append.mpr ⟨hsymbols, allSymbols_singleton.mpr fun hnone => nomatch hnone.symm.trans value⟩

theorem length_take_input {s : State} {i : Nat} (hi : i ≤ s.len) : (s.input.take i).length = i := by
  rw [List.length_take, s.length_input, Nat.min_eq_left hi]

/-- Symbols give at most the required size (R157). -/
theorem DecodeLoop.outPos_le_required {s u : State} (h : DecodeLoop s u)
    (hsymbols : AllSymbols s.config.toParams (s.input.take u.inPos)) :
    u.outPos ≤ decodedLenStripped s.config.toParams s.input := by
  have hbound := decodedLen_le_stripped hsymbols (s.input.drop u.inPos)
  rw [List.take_append_drop, length_take_input h.inPos, decodedLen] at hbound
  have hbits := h.bits
  omega

/-! ### The frame and the bounds -/

theorem complete_completedWith (st : Status) (r : Nat) (info : Word) (s : State) :
    CompletedWith st r info (complete st r info s) :=
  ⟨rfl, rfl, congrArg (BitVec.ofNat 32) (Nat.shiftRight_eq_div_pow r 32), rfl, rfl⟩

/-- Settles O47: either a check ends the command, or its main pass does, at the byte where its scan stands. -/
theorem decodeFrame : Obligations.DecodeFrame := by
  intro s t hexec
  refine ⟨exec_frame hexec, exec_phase hexec, ?_⟩
  by_cases hregions : s.regionsInRange
  case neg =>
    cases (exec_decode_of_bad_region hregions).symm.trans hexec
    exact .inl ⟨.inr rfl, rfl⟩
  rcases Nat.lt_or_ge s.cap (decodedLenStripped s.config.toParams s.input) with hlack | hcap
  · cases (exec_decode_of_lack hregions hlack).symm.trans hexec
    exact .inl ⟨.inl rfl, rfl⟩
  obtain ⟨u, v, hexec', hend, hstands, hsymbols⟩ := exec_decode_completes hregions hcap
    (P := fun u => ScanStands u ∧ (s.decodeReadsFirst → AllSymbols s.config.toParams (s.input.take u.inPos)))
    (fun _ => ⟨.of_main rfl, fun _ => allSymbols_nil _⟩)
    fun u t hloop hu hctl hstep _ => ⟨hstep.scanStands hctl, fun hfirst => hstep.allSymbols hloop hfirst (hu.2 hfirst)⟩
  cases hexec'.symm.trans hexec
  have hrequired := fun hfirst => hend.loop.outPos_le_required (hsymbols hfirst)
  rcases hend.ends with ⟨hdone, -⟩ | ⟨ch, hinvalid, hctl⟩
  · cases hdone
    exact .inr ⟨hend.outPos, hend.loop.inPos, hrequired, hcap, hend.loop.mem, .inl (complete_completedWith _ _ _ _)⟩
  · cases hinvalid
    obtain ⟨rfl, hpass, hnone⟩ := hstands.invalid ch hctl
    obtain ⟨hsrc, -⟩ := hend.loop.frame.operands
    have hin := (hend.loop.beforeEnd (hctl ▸ ControlPoint.noConfusion)).1
    rw [hend.loop.frame.config] at hpass hnone
    refine .inr ⟨hend.outPos, hend.loop.inPos, hrequired, hcap, hend.loop.mem, .inr ?_⟩
    change CompletedWith _ _ ((u.mem.read (s.src + u.inPos)).setWidth 32) _ ∧ u.inPos < s.len ∧
      decodeByte s.config.toParams (u.mem.read (s.src + u.inPos)) = none ∧
      ¬StopsScan s.config.toParams (u.mem.read (s.src + u.inPos))
    rw [← hsrc]
    exact ⟨complete_completedWith _ _ _ _, hin, hnone, hpass⟩

/-- An engine step writes inside the destination region alone. -/
theorem TickResult.keepsOutside {i : Instr} {s u t : State} (h : TickResult i u t) (hframe : CommandFrame s u)
    (hu : KeepsOutside s.dst s.cap s.mem u.mem) : KeepsOutside s.dst s.cap s.mem t.mem := by
  cases h with
  | completed | moved => exact hu
  | wrote v acc inMain writer =>
    obtain ⟨-, -, hdst, hcap⟩ := hframe.operands
    rw [emit_mem]
    split
    · next hin =>
      change u.outPos < u.cap at hin
      exact hu.write (Nat.le_refl _) v (show s.dst ≤ u.dst + u.outPos ∧ u.dst + u.outPos < s.dst + s.cap by omega)
    · exact hu

/-- Every command keeps every byte outside its destination region (20_memory.md R68). -/
theorem exec_keepsOutside {i : Instr} {s t : State} (h : exec i s = .next t) : KeepsOutside s.dst s.cap s.mem t.mem := by
  have hstep : ∀ u v, CommandFrame s u ∧ KeepsOutside s.dst s.cap s.mem u.mem → tick i u = .next v →
      CommandFrame s v ∧ KeepsOutside s.dst s.cap s.mem v.mem := fun u v ⟨hframe, hu⟩ htick =>
    ⟨hframe.trans (tick_frame htick), (tick_result htick).keepsOutside hframe hu⟩
  rcases exec_eq_run i s with hone | ⟨fuel, hrun⟩
  · exact (hstep s t ⟨.rfl' s, .refl _ _ _⟩ (hone ▸ h)).2
  · exact (runEngine_keeps hstep fuel (atStart s) t ⟨by constructor <;> rfl, .refl _ _ _⟩ (hrun ▸ h)).1.2

/-- Settles O48: the pure bound, the bound of DECODE's frame, and the frame of an engine step. -/
theorem decodeWriteBound : Obligations.DecodeWriteBound := by
  refine ⟨length_written_le, fun s t hfirst hexec => ?_, fun i s t => exec_keepsOutside⟩
  obtain ⟨-, -, ⟨-, hmem⟩ | ⟨-, -, hrequired, -, hkeeps, -⟩⟩ := decodeFrame s t hexec
  · rw [hmem]
    exact .refl _ _ _
  · exact hkeeps.mono (Nat.le_trans (Nat.min_le_left _ _) (hrequired hfirst))

end Sys2Proof.Machine
end

section
/-! The bytes that DECODE writes when every read precedes every write to the same address (42_decode.md R156): those of the bit string
of its input's symbols. -/

open Sys2Proof Sys2Proof.Machine

namespace Sys2Proof.Machine

/-! ### The bit string of a sequence of values -/

/-- The k bits of value j of a sequence of k-bit values. -/
theorem msbValue_bitOfValues {k j : Nat} {vs : List Nat} (hv : vs.getD j 0 < 2 ^ k) :
    msbValue (bitOfValues k vs) (j * k) k = vs.getD j 0 := by
  refine msbValue_eq_of_testBit hv fun t ht => ?_
  have hdiv : (j * k + t) / k = j := by
    rw [Nat.mul_comm, Nat.mul_add_div (Nat.zero_lt_of_lt ht), Nat.div_eq_of_lt ht, Nat.add_zero]
  rw [bitOfValues, hdiv, Nat.mul_add_mod_of_lt ht]

/-- The bit string of the first m values is the start of the bit string of all. -/
theorem bitOfValues_take {k m r : Nat} (vs : List Nat) (hr : r < m * k) :
    bitOfValues k (vs.take m) r = bitOfValues k vs r := by
  have hk : 0 < k := Nat.pos_of_mul_pos_left (Nat.zero_lt_of_lt hr)
  have hpart : r / k < m := (Nat.div_lt_iff_lt_mul hk).mpr hr
  simp only [bitOfValues, List.getD_eq_getElem?_getD, List.getElem?_take_of_lt hpart]

/-- Byte q of the bit string of a sequence of k-bit values. -/
def streamByte (k : Nat) (vs : List Nat) (q : Nat) : Byte := BitVec.ofNat 8 (msbValue (bitOfValues k vs) (8 * q) 8)

theorem streamByte_take {k m q : Nat} (vs : List Nat) (hq : 8 * q + 8 ≤ m * k) :
    streamByte k (vs.take m) q = streamByte k vs q :=
  congrArg (BitVec.ofNat 8) (msbValue_congr fun _ _ => bitOfValues_take vs (by omega))

/-- The stream of the first m bytes of a text. -/
theorem symbolStream_take {p : Params} {ts : List Byte} {m : Nat} (hm : m ≤ ts.length) :
    symbolStream p (ts.take m) = (List.range (decodedLen p m)).map (streamByte p.chunkBits (symbolValues p ts)) := by
  rw [symbolStream, List.length_take, Nat.min_eq_left hm, symbolValues, List.map_take]
  refine List.map_congr_left fun q hq => streamByte_take _ ?_
  have := List.mem_range.mp hq
  unfold decodedLen at this
  omega

/-! ### What the main pass has written -/

/-- The symbol values of a state's input. -/
def State.inputValues (s : State) : List Nat := symbolValues s.config.toParams s.input

theorem DecodeLoop.getD_inputValues {s u : State} (h : DecodeLoop s u) (hfirst : s.decodeReadsFirst) (hin : u.inPos < s.len)
    {v : Nat} (hv : decodeByte s.config.toParams u.nextChar = some v) : s.inputValues.getD u.inPos 0 = v := by
  rw [State.inputValues, symbolValues, List.getD_eq_getElem?_getD, List.getElem?_map, h.getElem?_input hfirst hin,
    Option.map_some, Option.getD_some, hv, Option.getD_some]

/-- What a DECODE of s has done at u: the bytes up to its cursor are those of the input's bit string, and the pending bits are the
next ones of it. -/
structure DecodedSoFar (s u : State) : Prop where
  memWf : u.mem.wf
  written : ∀ q < u.outPos, u.mem.read (s.dst + q) = streamByte s.config.chunkBits s.inputValues q
  pending : u.acc.pending = msbValue (bitOfValues s.config.chunkBits s.inputValues) (8 * u.outPos) u.acc.held

theorem DecodedSoFar.start {s : State} (hwf : s.mem.wf) (c : ControlPoint) : DecodedSoFar s (startMain (s.atControl c)) where
  memWf := hwf
  written := fun _ hq => absurd hq (Nat.not_lt_zero _)
  pending := rfl

/-- A take reads the next byte of the bit string. -/
theorem DecodedSoFar.takeValue_eq {s u : State} (h : DecodedSoFar s u) (hwhole : 8 ≤ u.acc.held) :
    BitVec.ofNat 8 (u.acc.takeValue 8) = streamByte s.config.chunkBits s.inputValues u.outPos := by
  obtain ⟨rest, hrest⟩ := Nat.exists_eq_add_of_le hwhole
  rw [Acc.takeValue_eq hwhole, h.pending, hrest, Nat.add_sub_cancel_left, msbValue_add_div, streamByte]

/-- A take leaves the bits behind that byte pending. -/
theorem DecodedSoFar.pending_taken {s u : State} (h : DecodedSoFar s u) (hwhole : 8 ≤ u.acc.held) :
    (u.acc.taken 8).pending =
      msbValue (bitOfValues s.config.chunkBits s.inputValues) (8 * (u.outPos + 1)) (u.acc.held - 8) := by
  obtain ⟨rest, hrest⟩ := Nat.exists_eq_add_of_le hwhole
  rw [Acc.pending_taken, h.pending, hrest, Nat.add_sub_cancel_left, msbValue_add_mod, Nat.mul_succ]

/-- The next byte of the bit string is written at the cursor, inside the destination region. -/
theorem DecodedSoFar.byte {s u : State} (h : DecodedSoFar s u) (hloop : DecodeLoop s u) (hcap : u.outPos < s.cap)
    (hwhole : 8 ≤ u.acc.held) :
    DecodedSoFar s (emit (BitVec.ofNat 8 (u.acc.takeValue 8)) { u with acc := u.acc.taken 8 }) := by
  obtain ⟨-, -, hdst, hcapacity⟩ := hloop.frame.operands
  have hmem : (emit (BitVec.ofNat 8 (u.acc.takeValue 8)) { u with acc := u.acc.taken 8 }).mem =
      u.mem.write (s.dst + u.outPos) (streamByte s.config.chunkBits s.inputValues u.outPos) := by
    rw [emit_mem, h.takeValue_eq hwhole]
    show (if u.outPos < u.cap then u.mem.write (u.dst + u.outPos) _ else u.mem) = _
    rw [hcapacity, hdst, if_pos hcap]
  refine ⟨hmem ▸ Memory.write_wf h.memWf _ _, fun q hq => ?_, h.pending_taken hwhole⟩
  rw [hmem, Memory.read_write h.memWf]
  rcases Nat.lt_succ_iff_lt_or_eq.mp (show q < u.outPos + 1 from hq) with hlt | rfl
  · rw [if_neg (by omega)]
    exact h.written q hlt
  · rw [if_pos rfl]

/-- The value of the next symbol goes below the pending bits. -/
theorem DecodedSoFar.pending_push {s u : State} (h : DecodedSoFar s u) (hloop : DecodeLoop s u) (hfirst : s.decodeReadsFirst)
    (hheld : u.acc.held < 8) (hin : u.inPos < s.len) {v : Nat} (hv : decodeByte s.config.toParams u.nextChar = some v) :
    (u.acc.push s.config.accWidth v s.config.chunkBits).pending =
      msbValue (bitOfValues s.config.chunkBits s.inputValues) (8 * u.outPos) (u.acc.held + s.config.chunkBits) := by
  have hlt : v < 2 ^ s.config.chunkBits := s.config.radix_eq ▸ (mem_accepted_of_decodeByte hv).1
  have hvalue := hloop.getD_inputValues hfirst hin hv
  have hfit : u.acc.held + s.config.chunkBits ≤ s.config.accWidth := by
    have := s.config.chunkBits_le
    have := s.config.accWidth_ge
    omega
  rw [Acc.pending_push_of_lt hlt hfit, h.pending, msbValue_add, Nat.mul_comm 8, hloop.bits,
    msbValue_bitOfValues (hvalue ▸ hlt), hvalue]

/-- Every step of the main pass keeps it. -/
theorem DecodeStep.decodedSoFar {s u t : State} (hstep : DecodeStep u t) (hfirst : s.decodeReadsFirst) (hloop : DecodeLoop s u)
    (hcap : t.outPos ≤ s.cap) (h : DecodedSoFar s u) : DecodedSoFar s t := by
  cases hstep with
  | byte whole => exact h.byte hloop hcap whole
  | stop | invalid => exact ⟨h.memWf, h.written, h.pending⟩
  | symbol v held inPos value =>
    obtain ⟨-, hlen, -⟩ := hloop.frame.operands
    rw [hloop.frame.config] at value ⊢
    exact ⟨h.memWf, h.written, h.pending_push hloop hfirst held (hlen ▸ inPos) value⟩

/-! ### The outcome -/

/-- The bytes that a DECODE has written are those of the symbols it has scanned. -/
theorem DecodedSoFar.bytes_eq {s u t : State} (h : DecodedSoFar s u) (hend : DecodeEnd s u t) :
    u.mem.bytes s.dst u.outPos = symbolStream s.config.toParams (s.input.take u.inPos) := by
  rw [symbolStream_take (s.length_input ▸ hend.loop.inPos), decodedLen, ← hend.outPos]
  exact List.map_congr_left fun q hq => h.written q (List.mem_range.mp hq)

/-- The scan of the machine ends where that of the pure form does. -/
theorem DecodeEnd.decodeBytes_cases {s u t : State} (h : DecodeEnd s u t) (hfirst : s.decodeReadsFirst) (hstands : ScanStands u)
    (hsymbols : AllSymbols s.config.toParams (s.input.take u.inPos)) :
    (t = finish u.outPos u ∧
      decodeBytes s.config.toParams s.input = .ok (symbolStream s.config.toParams (s.input.take u.inPos))) ∨
    ∃ ch, t = raise (.invalidSymbol u.inPos ch) u ∧
      decodeBytes s.config.toParams s.input =
        .invalidSymbol u.inPos ch (symbolStream s.config.toParams (s.input.take u.inPos)) := by
  have hcfg := h.loop.frame.config
  have hinput (hctl : u.ctl ≠ .main) :=
    congrArg (decodeBytes s.config.toParams) (h.loop.input_eq hfirst (h.loop.beforeEnd hctl).1)
  rcases h.ends with ⟨hdone, hend | hctl⟩ | ⟨ch, hinvalid, hctl⟩
  · have hall : s.input.take u.inPos = s.input := by rw [hend, ← s.length_input, List.take_length]
    rw [hall] at hsymbols ⊢
    exact .inl ⟨Host.Outcome.next.inj hdone, decodeBytes_of_symbols hsymbols⟩
  · have hstops := hstands.stopped hctl
    rw [hcfg] at hstops
    rw [hinput (hctl ▸ ControlPoint.noConfusion)]
    exact .inl ⟨Host.Outcome.next.inj hdone, decodeBytes_of_stop hsymbols hstops _⟩
  · obtain ⟨rfl, hpass, hnone⟩ := hstands.invalid ch hctl
    rw [hcfg] at hpass hnone
    have hpure := decodeBytes_of_invalid hsymbols hpass hnone (s.input.drop (u.inPos + 1))
    rw [length_take_input h.loop.inPos] at hpure
    exact .inr ⟨_, Host.Outcome.next.inj hinvalid, (hinput (hctl ▸ ControlPoint.noConfusion)).trans hpure⟩

/-- Settles O46: what every step of the main pass keeps, at its end. -/
theorem decodeWritesItsPureForm : Obligations.DecodeWritesItsPureForm := by
  intro s hwf hregions hcap hfirst
  obtain ⟨u, t, hexec, hend, hstands, hsymbols, hdone⟩ := exec_decode_completes hregions hcap
    (P := fun u => ScanStands u ∧ AllSymbols s.config.toParams (s.input.take u.inPos) ∧ DecodedSoFar s u)
    (fun c => ⟨.of_main rfl, allSymbols_nil _, .start hwf c⟩)
    fun u t hloop ⟨_, hsymbols, hdone⟩ hctl hstep hnext =>
      have hsymbols' := hstep.allSymbols hloop hfirst hsymbols
      ⟨hstep.scanStands hctl, hsymbols',
        hstep.decodedSoFar hfirst hloop (Nat.le_trans (hnext.outPos_le_required hsymbols') hcap) hdone⟩
  have hbytes := hdone.bytes_eq hend
  have hlength : (symbolStream s.config.toParams (s.input.take u.inPos)).length = u.outPos := by
    rw [← hbytes, Memory.length_bytes]
  have hmem : u.mem.bytes s.dst u.outPos = symbolStream s.config.toParams (s.input.take u.inPos) ∧
      KeepsOutside s.dst u.outPos s.mem u.mem := ⟨hbytes, hend.loop.mem.mono (Nat.min_le_left _ _)⟩
  rw [← hlength] at hmem
  refine ⟨t, hexec, exec_frame hexec, ?_⟩
  rcases hend.decodeBytes_cases hfirst hstands hsymbols with ⟨rfl, hpure⟩ | ⟨ch, rfl, hpure⟩ <;> rw [hpure]
  · rw [← hlength]
    exact ⟨complete_completedWith _ _ _ _, hmem⟩
  · exact ⟨complete_completedWith _ _ _ _, hmem⟩

end Sys2Proof.Machine
end

section
/-! The length commands (43_length.md R170 to R179): the length functions, the trailing pad bytes of an encoded text, and the four
commands as completions. -/

open Sys2Proof Sys2Proof.Machine

namespace Sys2Proof.Machine

/-! ### The length functions -/

theorem encodedLen_zero (c : Config) : encodedLen c.toParams 0 = 0 := by
  have hK := c.chunkBits_ge
  refine Nat.div_eq_of_lt ?_
  omega

theorem encodedLenPadded_of_pad {p : Params} (hpad : p.padEn = true) (n : Nat) :
    encodedLenPadded p n = roundUp (encodedLen p n) 8 := if_pos hpad

theorem encodedLenPadded_of_no_pad {p : Params} (hpad : p.padEn = false) (n : Nat) :
    encodedLenPadded p n = encodedLen p n := if_neg (Bool.eq_false_iff.mp hpad)

/-- `round_up(a, 8)` is the least multiple of 8 that is not below a (00_scope.md R9). -/
theorem roundUp_eight_bounds (a : Nat) : roundUp a 8 % 8 = 0 ∧ a ≤ roundUp a 8 ∧ roundUp a 8 < a + 8 := by
  unfold roundUp ceilDiv
  omega

/-- Settles O27: with PAD_EN = 1 the padded length is a round_up, without it the encoded length. -/
theorem paddedLengthAligned : Obligations.PaddedLengthAligned := fun p n =>
  ⟨fun hpad => encodedLenPadded_of_pad hpad n ▸ roundUp_eight_bounds (encodedLen p n),
    fun hpad => encodedLenPadded_of_no_pad hpad n⟩

theorem encodedLenPadded_zero (c : Config) : encodedLenPadded c.toParams 0 = 0 := by
  cases hpad : c.padEn with
  | false => rw [encodedLenPadded_of_no_pad hpad, encodedLen_zero]
  | true => rw [encodedLenPadded_of_pad hpad, encodedLen_zero]; rfl

/-- One character holds no whole byte, since K < 8. -/
theorem decodedLen_one (c : Config) : decodedLen c.toParams 1 = 0 := by
  have hK := c.chunkBits_le
  refine Nat.div_eq_of_lt ?_
  omega

/-! ### Trailing pad bytes -/

theorem trailingPads_append_pads (ts : List Byte) (n : Nat) :
    trailingPads (ts ++ List.replicate n padChar) = n + trailingPads ts := by
  have hpads : ∀ ch ∈ List.replicate n padChar, (ch == padChar) = true := fun ch hch =>
    beq_iff_eq.mpr (List.eq_of_mem_replicate hch)
  rw [trailingPads, List.reverse_append, List.reverse_replicate, List.takeWhile_append_of_pos hpads, List.length_append,
    List.length_replicate, trailingPads]

/-- The trailing pad bytes of an encoded text are its padding: no symbol is the pad byte (V5). -/
theorem trailingPads_encodeBytes (c : Config) (xs : List Byte) :
    trailingPads (encodeBytes c.toParams xs) = encodedLenPadded c.toParams xs.length - encodedLen c.toParams xs.length := by
  have hsymbols : trailingPads (encodeSymbols c.toParams xs) ≤ 0 := by
    simpa using trailingPads_append_le (fun _ => ne_padChar_of_mem_encodeSymbols) (ts := encodeSymbols c.toParams xs) []
  rw [encodeBytes_eq, trailingPads_append_pads, Nat.le_zero.mp hsymbols, Nat.add_zero]

theorem decodedLenStripped_encodeBytes (c : Config) (xs : List Byte) :
    decodedLenStripped c.toParams (encodeBytes c.toParams xs) = xs.length := by
  obtain ⟨-, -, hle, -⟩ := encodedLen_bounds c xs.length
  rw [decodedLenStripped, length_encodeBytes, trailingPads_encodeBytes, Nat.sub_sub_self hle, decodedLen_encodedLen]

/-- Settles O28: the symbols hold exactly the input's bytes, and stripping the padding leaves the symbols. -/
theorem roundTripSizes : Obligations.RoundTripSizes := ⟨decodedLen_encodedLen, decodedLenStripped_encodeBytes⟩

/-! ### The commands -/

/-- The success completion, with RESULT's two halves written as numbers (60_exceptions.md R197). -/
theorem finish_eq (r : Nat) (s : State) :
    finish r s = { s with
      resultLo := BitVec.ofNat 32 r, resultHi := BitVec.ofNat 32 (r / 2 ^ 32), errInfo := 0
      status := ⟨false, true, false, 0⟩, phase := .idle, ctl := .start } := by
  rw [finish, complete, Nat.shiftRight_eq_div_pow]
  rfl

/-- The success completion with a result that fits RESULT_LO. -/
theorem finish_of_lt {r : Nat} (hr : r < 2 ^ 32) (s : State) :
    finish r s = { s with
      resultLo := BitVec.ofNat 32 r, resultHi := 0, errInfo := 0
      status := ⟨false, true, false, 0⟩, phase := .idle, ctl := .start } := by
  rw [finish, complete, resultHi_eq_zero hr]
  rfl

/-- Settles O23: ENC_LEN is one completion; the corner cases are evaluated at each K. -/
theorem encLenResult : Obligations.EncLenResult := by
  refine ⟨decodeWord_encode .encLen, fun s => congrArg _ (finish_eq _ s), encodedLen_zero, fun p =>
    ⟨fun hK => ?_, fun hK => ?_, fun hK => ⟨?_, ?_⟩⟩⟩ <;> rw [encodedLen, hK, ceilDiv]

/-- Settles O24: ENC_LEN_PAD is one completion; the corner cases round up those of ENC_LEN. -/
theorem encLenPadResult : Obligations.EncLenPadResult := by
  refine ⟨decodeWord_encode .encLenPad, fun s => congrArg _ (finish_eq _ s), encodedLenPadded_zero,
    fun _ => encodedLenPadded_of_no_pad, fun p hpad => ?_⟩
  obtain ⟨-, -, -, hcorner⟩ := encLenResult
  obtain ⟨hfour, hfive, hsix⟩ := hcorner p
  simp only [encodedLenPadded_of_pad hpad]
  refine ⟨fun hK => ?_, fun hK => ⟨?_, ?_⟩, fun hK => ?_⟩
  · rw [hfour hK, roundUp, ceilDiv]
  · rw [hfive hK, roundUp, ceilDiv]
  · rw [encodedLen, hK]
    decide
  · rw [(hsix hK).1, roundUp, ceilDiv]

/-- Settles O25: DEC_LEN is one completion, whose result fits RESULT_LO; the corner cases are evaluated at each K. -/
theorem decLenResult : Obligations.DecLenResult := by
  refine ⟨decodeWord_encode .decLen, fun s => congrArg _ (finish_of_lt (decodedLen_lt s.config s.srcLen le_rfl) s),
    decodedLen_one, fun p => ⟨fun hK => ?_, fun hK => ⟨?_, ?_⟩, fun hK => ?_⟩⟩ <;> rw [decodedLen, hK]

/-- With its region in range DEC_LEN_STRIP completes with the decoded length of the stripped input, from its pre-scan on. -/
theorem exec_decLenStrip_of_range {s : State} (hsrc : s.badSrc = false) :
    exec .decLenStrip s = .next (finish (decodedLenStripped s.config.toParams s.input) s) := by
  have hpads := trailingPads_input_le s
  have hfuel : decLenStripFuel s = (s.len - trailingPads s.input + 1) + (trailingPads s.input + 2) := by
    unfold decLenStripFuel
    omega
  have htick : decLenStripTick (s.atControl (.sized (trailingPads s.input))) =
      .next (finish (decodedLenStripped s.config.toParams s.input) s) := by
    rw [decodedLenStripped_input]
    rfl
  calc exec .decLenStrip s = runEngine decLenStripTick (decLenStripFuel s) (atStart s) := rfl
    _ = runEngine decLenStripTick (s.len - trailingPads s.input + 1) (s.atControl (.sized (trailingPads s.input))) := by
      rw [hfuel, runEngine_strip_sized s hsrc]
    _ = .next (finish (decodedLenStripped s.config.toParams s.input) s) := runEngine_now htick rfl (Nat.succ_pos _)

theorem exec_decLenStrip_of_bad_src {s : State} (hsrc : s.badSrc = true) :
    exec .decLenStrip s = .next (raise (.addressRange true false) s) := by
  have htick : decLenStripTick (atStart s) = .next (raise (.addressRange true false) s) := congrArg _ (if_pos hsrc)
  exact runEngine_now htick rfl (Nat.succ_pos _)

/-- Settles O26: the range check decides between the error and the pre-scan, whose count gives the result. -/
theorem decLenStripResult : Obligations.DecLenStripResult := by
  refine ⟨decodeWord_encode .decLenStrip, fun s hrange => ?_,
    fun s hrange => exec_decLenStrip_of_bad_src (badSrc_eq_true.mpr hrange)⟩
  have hfits : decodedLenStripped s.config.toParams s.input < 2 ^ 32 := by
    rw [decodedLenStripped_input]
    exact decodedLen_lt s.config s.srcLen (Nat.sub_le _ _)
  rw [exec_decLenStrip_of_range (badSrc_eq_false.mpr hrange), finish_of_lt hfits]
  rfl

end Sys2Proof.Machine
end

section
/-! Every command completes (60_exceptions.md R190, R196, R197, R200): with DONE or with an error of its own, and within as many turns
as it may make data-memory accesses, and four. -/

open Sys2Proof Sys2Proof.Machine

namespace Sys2Proof.Machine

theorem completedBy_finish (i : Instr) (r : Nat) (s : State) : CompletedBy i (finish r s) := ⟨rfl, .inl rfl⟩

theorem completedBy_raise {i : Instr} {e : ErrorKind} (he : e.code ∈ errorCodes i) (s : State) : CompletedBy i (raise e s) :=
  ⟨rfl, .inr ⟨_, he, rfl⟩⟩

theorem exec_encode_of_bad_region {s : State} (h : ¬s.regionsInRange) :
    exec .encode s = .next (raise (.addressRange s.badSrc s.badDst) s) := by
  have htick : encodeTick (atStart s) = .next (raise (.addressRange s.badSrc s.badDst) s) := by
    show Host.Outcome.next (encodeStart (atStart s)) = _
    rw [encodeStart, atStart_badSrc, atStart_badDst, if_pos (s.bad_region h)]
    rfl
  exact runEngine_now htick rfl (Nat.succ_pos _)

/-- ENCODE ends with an error at its checks, before its first access, or with success (41_encode.md R130). -/
theorem exec_encode_cases (s : State) :
    (∃ e, e.code ∈ errorCodes .encode ∧ exec .encode s = .next (raise e s)) ∨ ∃ r u, exec .encode s = .next (finish r u) := by
  by_cases hregions : s.regionsInRange
  case neg => exact .inl ⟨_, .tail _ (.head _), exec_encode_of_bad_region hregions⟩
  rcases Nat.lt_or_ge s.cap (encodedLenPadded s.config.toParams s.len) with hlack | hcap
  · exact .inl ⟨_, .head _, exec_encode_of_lack hregions hlack⟩
  · obtain ⟨u, hexec, -⟩ := exec_encode_completes (P := fun _ => True) hregions hcap trivial fun _ _ _ _ => trivial
    exact .inr ⟨_, u, hexec⟩

theorem exec_encode_completedBy (s : State) : ∃ t, exec .encode s = .next t ∧ CompletedBy .encode t := by
  rcases exec_encode_cases s with ⟨e, he, hexec⟩ | ⟨r, u, hexec⟩
  · exact ⟨_, hexec, completedBy_raise he s⟩
  · exact ⟨_, hexec, completedBy_finish _ r u⟩

theorem DecodeEnds.completedBy {s u t : State} (h : DecodeEnds s u (.next t)) : CompletedBy .decode t := by
  rcases h with ⟨hdone, -⟩ | ⟨ch, hinvalid, -⟩
  · cases hdone
    exact completedBy_finish _ _ _
  · cases hinvalid
    exact completedBy_raise (.head _) _

theorem exec_decode_completedBy (s : State) : ∃ t, exec .decode s = .next t ∧ CompletedBy .decode t := by
  by_cases hregions : s.regionsInRange
  case neg => exact ⟨_, exec_decode_of_bad_region hregions, completedBy_raise (.tail _ (.tail _ (.head _))) _⟩
  rcases Nat.lt_or_ge s.cap (decodedLenStripped s.config.toParams s.input) with hlack | hcap
  · exact ⟨_, exec_decode_of_lack hregions hlack, completedBy_raise (.tail _ (.head _)) _⟩
  · obtain ⟨u, t, hexec, hend, -⟩ :=
      exec_decode_completes (P := fun _ => True) hregions hcap (fun _ => trivial) fun _ _ _ _ _ _ _ => trivial
    exact ⟨t, hexec, hend.ends.completedBy⟩

theorem exec_decLenStrip_completedBy (s : State) : ∃ t, exec .decLenStrip s = .next t ∧ CompletedBy .decLenStrip t := by
  cases hsrc : s.badSrc with
  | true => exact ⟨_, exec_decLenStrip_of_bad_src hsrc, completedBy_raise (.head _) s⟩
  | false => exact ⟨_, exec_decLenStrip_of_range hsrc, completedBy_finish _ _ s⟩

/-- Every command completes with DONE or with an error of its own, in every state. -/
theorem exec_completedBy (i : Instr) (s : State) : ∃ t, exec i s = .next t ∧ CompletedBy i t := by
  cases i with
  | encode => exact exec_encode_completedBy s
  | decode => exact exec_decode_completedBy s
  | decLenStrip => exact exec_decLenStrip_completedBy s
  | encLen | encLenPad | decLen => exact ⟨_, rfl, completedBy_finish _ _ s⟩
  | symbolAt =>
    by_cases hrange : s.config.radix ≤ s.indexOperand
    · exact ⟨_, if_pos hrange, completedBy_raise (.head _) s⟩
    · exact ⟨_, if_neg hrange, completedBy_finish _ _ s⟩
  | decodeByte =>
    cases hbyte : lookupByte s.config.toParams s.byteOperand with
    | some v => exact ⟨_, execDecodeByte_of_some hbyte, completedBy_finish _ _ s⟩
    | none => exact ⟨_, execDecodeByte_of_none hbyte, completedBy_finish _ _ s⟩

/-- The engine steps that exec gives a command: one, or at most as many as the command's accesses and four. -/
theorem exec_eq_bounded_run (i : Instr) (s : State) :
    exec i s = tick i s ∨ ∃ fuel ≤ accessBound i s + 4, exec i s = runEngine (tick i) fuel (atStart s) := by
  cases i with
  | encode => exact .inr ⟨encodeFuel s, Nat.add_le_add_left (by decide) _, rfl⟩
  | decode => exact .inr ⟨decodeFuel s, Nat.le_refl _, rfl⟩
  | decLenStrip => exact .inr ⟨decLenStripFuel s, Nat.add_le_add_left (by decide) _, rfl⟩
  | encLen | encLenPad | decLen | symbolAt | decodeByte => exact .inl rfl

/-- The turns of an accepted command reach the state that exec gives it, within the command's accesses and four. -/
theorem turns_of_exec {i : Instr} {s t : State} (h : exec i (accept (encode i) s) = .next t) :
    ∃ k ≤ accessBound i s + 4, turns k (accept (encode i) s) = .next t := by
  have hrunning := running_accept_encode i s
  rcases exec_eq_bounded_run i (accept (encode i) s) with hone | ⟨fuel, hfuel, hrun⟩
  · have hturn : engineTurn (accept (encode i) s) = .next t := (engineTurn_of_running rfl hrunning).trans (hone ▸ h)
    exact ⟨1, Nat.le_add_left 1 (accessBound i s + 3), turns_succ hturn 0⟩
  · obtain ⟨k, hk, hturns⟩ := turns_of_runEngine (s := accept (encode i) s) rfl hrunning (hrun.symm.trans h)
    exact ⟨k, Nat.le_trans hk hfuel, hturns⟩

/-- Settles O58: exec completes from every state, the accepted one among them, where the turns follow it. -/
theorem everyCommandCompletes : Obligations.EveryCommandCompletes := by
  refine fun i s => ⟨exec_completedBy i s, ?_⟩
  obtain ⟨t, hexec, hdone⟩ := exec_completedBy i (accept (encode i) s)
  obtain ⟨k, hk, hturns⟩ := turns_of_exec hexec
  exact ⟨k, hk, t, hturns, hdone⟩

end Sys2Proof.Machine
end

section
/-! What the error completions record and leave (60_exceptions.md R191, R195, R199). -/

open Sys2Proof Sys2Proof.Machine

namespace Sys2Proof.Machine

/-- ADDRESS_RANGE records its two regions in ERR_INFO and a RESULT of 0; the conditions are those of the two regions. -/
theorem raise_addressRange (s : State) :
    raise (.addressRange s.badSrc s.badDst) s = { s with
      resultLo := 0, resultHi := 0
      errInfo := (if 2 ^ s.config.aw < s.dst + s.cap then 2 else 0) ||| (if 2 ^ s.config.aw < s.src + s.len then 1 else 0)
      status := ⟨false, false, true, 5⟩, phase := .idle, ctl := .start } := by
  have hinfo : ErrorKind.info (.addressRange s.badSrc s.badDst) = (if s.badDst then 2 else 0) ||| (if s.badSrc then 1 else 0) := by
    cases s.badSrc <;> cases s.badDst <;> rfl
  simp only [badSrc_eq_true, badDst_eq_true] at hinfo
  rw [← hinfo, raise, complete, ErrorKind.result, resultHi_eq_zero (by decide)]
  rfl

theorem State.not_regionsInRange {s : State} (h : 2 ^ s.config.aw < s.src + s.len ∨ 2 ^ s.config.aw < s.dst + s.cap) :
    ¬s.regionsInRange := by
  rw [State.regionsInRange, badSrc_eq_false, badDst_eq_false]
  omega

/-- Settles O40: a region out of range ends each of the three commands at its first check. -/
theorem addressRangeErrors : Obligations.AddressRangeErrors := by
  refine ⟨fun i s hi hrange => ?_, fun s hrange => exec_decLenStrip_of_bad_src (badSrc_eq_true.mpr hrange)⟩
  have hregions : ¬s.regionsInRange := State.not_regionsInRange hrange
  have hexec : exec i s = .next (raise (.addressRange s.badSrc s.badDst) s) := by
    rcases hi with rfl | rfl
    · exact exec_encode_of_bad_region hregions
    · exact exec_decode_of_bad_region hregions
  exact hexec.trans (congrArg _ (raise_addressRange s))

/-- INVALID_SYMBOL is an error of DECODE alone. -/
theorem one_mem_errorCodes {i : Instr} : 1 ∈ errorCodes i ↔ i = .decode := by cases i <;> decide

theorem CompletedBy.errCode_mem {i : Instr} {t : State} (h : CompletedBy i t) (herr : t.status.err = true) :
    t.status.errCode ∈ errorCodes i := by
  obtain ⟨-, hdone | ⟨code, hcode, herror⟩⟩ := h
  · rw [hdone] at herr
    cases herr
  · rwa [herror]

/-- A command other than DECODE that ends with an error has written nothing. -/
theorem exec_error_mem {i : Instr} (hi : i ≠ .decode) {s t : State} (h : exec i s = .next t) (herr : t.status.err = true) :
    t.mem = s.mem := by
  by_cases hencode : i = .encode
  case neg => exact exec_mem hencode hi h
  subst hencode
  rcases exec_encode_cases s with ⟨e, -, hexec⟩ | ⟨r, u, hexec⟩ <;> cases hexec.symm.trans h
  · rfl
  · cases herr

/-- Settles O57: DECODE by its frame; no other command raises INVALID_SYMBOL, or writes and then ends with an error. -/
theorem errorsArePrecise : Obligations.ErrorsArePrecise := by
  intro i s t hexec herr
  by_cases hi : i = .decode
  case neg =>
    obtain ⟨u, hexec', hdone⟩ := exec_completedBy i s
    cases hexec'.symm.trans hexec
    exact .inl ⟨fun hcode => hi (one_mem_errorCodes.mp (hcode ▸ hdone.errCode_mem herr)), exec_error_mem hi hexec herr⟩
  subst hi
  obtain ⟨-, -, ⟨hcode, hmem⟩ | ⟨hout, -, hrequired, -, hkeeps, hdone | ⟨hinvalid, hin, -⟩⟩⟩ := decodeFrame s t hexec
  · exact .inl ⟨by rcases hcode with hcode | hcode <;> rw [hcode] <;> decide, hmem⟩
  · rw [hdone.status] at herr
    cases herr
  · have hresult : t.resultLo.toNat = t.inPos := by
      rw [hinvalid.resultLo, BitVec.toNat_ofNat, Nat.mod_eq_of_lt (Nat.lt_trans hin s.srcLen.isLt)]
    refine .inr ⟨by rw [hinvalid.status], rfl, ?_⟩
    rw [hresult, ← hout]
    exact ⟨hin, rfl, hrequired, hkeeps⟩

end Sys2Proof.Machine
end

section
/-! The outcome of a command stays (60_exceptions.md R202, R209): what an idle block's step keeps, event by event. -/

open Sys2Proof Sys2Proof.Machine

namespace Sys2Proof.Machine

theorem engineTurn_of_idle {s : State} (hidle : s.phase = .idle) : engineTurn s = .next s := by
  simp only [engineTurn, hidle]

/-- Settles O21: with no event pending the engine has its turn, which an idle block does not use. -/
theorem idleBlockStays : Obligations.IdleBlockStays := by
  intro s hidle hevents
  unfold step
  rw [hevents]
  exact engineTurn_of_idle hidle

theorem SameOutcome.refl (s : State) : SameOutcome s s := ⟨rfl, rfl, rfl, rfl⟩

theorem readReg_sameOutcome (r : Reg) (s : State) : SameOutcome s (readReg r s) := by
  obtain ⟨reply, draws, hr⟩ := readReg_cases r s
  rw [hr]
  exact ⟨rfl, rfl, rfl, rfl⟩

/-- A write of an operand register, or of a read-only one, keeps the outcome. -/
theorem writeReg_sameOutcome {r : Reg} (hr : r ≠ .cmd) (v : Word) (s : State) : SameOutcome s (writeReg r v s) := by
  cases r with
  | cmd => exact absurd rfl hr
  | srcAddr | srcLen | dstAddr | dstCap => simp only [writeReg]; split <;> exact ⟨rfl, rfl, rfl, rfl⟩
  | cfg | status | resultLo | resultHi | errInfo => exact .refl s

/-- An access of the register window that answers a next state is to the offset that it reaches. -/
theorem windowAccess_addr {size addr : Nat} {s t : State} {k : Nat → State} (h : windowAccess size addr s k = .next t) :
    ∃ offset, size = 4 ∧ addr = s.config.base + offset ∧ t = k offset := by
  unfold windowAccess at h
  split at h
  · next hwindow =>
    split at h <;> cases h
    next hform => exact ⟨_, hform.1, (Nat.add_sub_cancel' hwindow.1).symm, rfl⟩
  · cases h

theorem regOffset_of_regAt {o : Nat} {r : Reg} (h : regAt o = some r) : regOffset r = o := by
  simpa using List.find?_some h

theorem hostRegRead_sameOutcome {size addr : Nat} {s t : State} (h : hostRegRead size addr s = .next t) : SameOutcome s t := by
  obtain ⟨offset, rfl⟩ := windowAccess_next h
  split
  · exact readReg_sameOutcome _ s
  · exact ⟨rfl, rfl, rfl, rfl⟩

/-- A host write in the register window keeps the outcome unless it is a write of CMD. -/
theorem hostRegWrite_sameOutcome {size addr : Nat} {v : Word} {s t : State} (h : hostRegWrite size addr v s = .next t) :
    SameOutcome s t ∨ size = 4 ∧ addr = s.config.base + regOffset .cmd := by
  obtain ⟨offset, hsize, haddr, rfl⟩ := windowAccess_addr h
  split
  · next r hr =>
    by_cases hcmd : r = .cmd
    · exact .inr ⟨hsize, by rw [haddr, ← hcmd, regOffset_of_regAt hr]⟩
    · exact .inl (writeReg_sameOutcome hcmd v s)
  · exact .inl (.refl s)

/-- Settles O22: event by event; the engine's turn and a wait do nothing in an idle block. -/
theorem outcomeStays : Obligations.OutcomeStays := by
  intro s t hidle hbusy h
  have hturn (rest : List Event) : engineTurn (s.popped rest) = .next (s.popped rest) := engineTurn_of_idle hidle
  unfold step at h
  cases hevents : s.events with
  | nil =>
    rw [hevents] at h
    cases (engineTurn_of_idle hidle).symm.trans h
    exact .inl (.refl s)
  | cons e rest =>
    rw [hevents] at h
    cases e with
    | regRead size addr => exact .inl (hostRegRead_sameOutcome (s := s.popped rest) h)
    | regWrite size addr v =>
      rcases hostRegWrite_sameOutcome (s := s.popped rest) h with hsame | ⟨rfl, rfl⟩
      · exact .inl hsame
      · exact .inr (.inr (.inl ⟨v, rest, rfl⟩))
    | memRead a | memWrite a v =>
      obtain ⟨-, -, rfl⟩ := hostMemAccess_next h
      exact .inl ⟨rfl, rfl, rfl, rfl⟩
    | reset => exact .inr (.inl ⟨rest, rfl⟩)
    | engine =>
      cases (hturn rest).symm.trans h
      exact .inl ⟨rfl, rfl, rfl, rfl⟩
    | wait =>
      simp only [waitStep, hbusy, Bool.false_eq_true, if_false] at h
      cases h
      exact .inl ⟨rfl, rfl, rfl, rfl⟩
    | run w => exact .inr (.inr (.inr ⟨w, rest, rfl⟩))

end Sys2Proof.Machine
end

section
/-! The construction of a block (60_exceptions.md R201): the checks of a configuration compute the conditions of 10_state.md R22. -/

open Sys2Proof Sys2Proof.Machine

namespace Sys2Proof.Machine

theorem mem_symbolBytes_iff {p : Params} {b : Byte} : b ∈ p.symbolBytes ↔ NamesSymbol p b := by
  simp [Params.symbolBytes, NamesSymbol]

section
variable {p : Params} (h : ValidParams p)
include h

theorem ValidParams.radixOk : p.radixOk = true := by
  obtain ⟨hradix, hpow⟩ := h.v1
  have hK {k : Nat} (hk : p.radix = 2 ^ k) : p.chunkBits = k := Nat.pow_right_injective (Nat.le_refl 2) (hpow.symm.trans hk)
  rcases hradix with hr | hr | hr
  · simp [Params.radixOk, hr, hK (k := 4) hr]
  · simp [Params.radixOk, hr, hK (k := 5) hr]
  · simp [Params.radixOk, hr, hK (k := 6) hr]

theorem ValidParams.alphaLengthOk : p.alphaLengthOk = true := beq_iff_eq.mpr h.v2

theorem ValidParams.alphaDistinct : p.alphaDistinct = true := decide_eq_true h.v3

theorem ValidParams.printableOk : p.printableOk = true :=
  List.all_eq_true.mpr fun b hb => by simpa using h.v4 b (mem_symbolBytes_iff.mp hb)

theorem ValidParams.noPadByte : p.noPadByte = true :=
  List.all_eq_true.mpr fun b hb => bne_iff_ne.mpr (h.v5 b (mem_symbolBytes_iff.mp hb))

theorem ValidParams.aliasesCanonical : p.aliasesCanonical = true :=
  List.all_eq_true.mpr fun q hq => List.contains_iff_mem.mpr (h.v6 q.1 q.2 hq)

theorem ValidParams.noLowerCase : p.noLowerCase = true := by
  cases hcase : p.caseSens with
  | true => simp [Params.noLowerCase, hcase]
  | false =>
    rw [Params.noLowerCase, hcase, Bool.false_or]
    exact List.all_eq_true.mpr fun b hb => by simpa [or_iff_not_imp_left] using h.v7 hcase b (mem_symbolBytes_iff.mp hb)

theorem ValidParams.acceptedDisjoint : p.acceptedDisjoint = true := by
  rw [Params.acceptedDisjoint, disjointLists_iff, List.pairwise_map]
  refine List.nodup_range.imp_of_mem fun {i j} hi hj hne b hbi => ?_
  exact h.v8 i j b (List.mem_range.mp hi) (List.mem_range.mp hj) hne hbi

theorem ValidParams.accWidthOk : p.accWidthOk = true := decide_eq_true h.accWidth

end

/-- The checks compute V1 to V8 and W >= 13. -/
theorem valid_iff_validParams {p : Params} : p.valid = true ↔ ValidParams p := by
  refine ⟨fun hvalid => Config.validParams ⟨p, hvalid⟩, fun h => ?_⟩
  simp only [Params.valid, h.radixOk, h.alphaLengthOk, h.alphaDistinct, h.printableOk, h.noPadByte, h.aliasesCanonical,
    h.noLowerCase, h.acceptedDisjoint, h.accWidthOk, Bool.and_self]

/-- Settles O20: construction looks at the checks alone. -/
theorem constructionRefusesInvalid : Obligations.ConstructionRefusesInvalid := fun _ =>
  ⟨fun hinvalid => dif_neg (mt valid_iff_validParams.mp hinvalid),
    fun h => ⟨valid_iff_validParams.mpr h, dif_pos (valid_iff_validParams.mpr h)⟩⟩

end Sys2Proof.Machine
end

section
/-! A host that writes CMD and waits (70_reset_and_hazards.md R225, R231): each step of the wait is an engine turn until the
command completes, and the turns do not look at the host's pending events. -/

open Sys2Proof Sys2Proof.Machine

namespace Sys2Proof.Machine

/-! ### The engine does not look at the pending events: over other events (`State.popped`) it takes the same step -/

theorem State.popped_ite (rest : List Event) (c : Prop) [Decidable c] (s t : State) :
    (if c then s else t).popped rest = if c then s.popped rest else t.popped rest := apply_ite (State.popped rest) c s t

theorem prescanStep_popped (rest : List Event) (k : Nat) (s : State) :
    prescanStep k (s.popped rest) = (prescanStep k s).popped rest := by
  simp only [prescanStep, State.popped_ite]
  rfl

theorem encodeStart_popped (rest : List Event) (s : State) : encodeStart (s.popped rest) = (encodeStart s).popped rest := by
  simp only [encodeStart, State.popped_ite]
  rfl

theorem encodeMain_popped (rest : List Event) (s : State) : encodeMain (s.popped rest) = (encodeMain s).popped rest := by
  simp only [encodeMain, State.popped_ite]
  rfl

theorem decodeStart_popped (rest : List Event) (s : State) : decodeStart (s.popped rest) = (decodeStart s).popped rest := by
  simp only [decodeStart, State.popped_ite]
  rfl

theorem decodeSized_popped (rest : List Event) (k : Nat) (s : State) :
    decodeSized k (s.popped rest) = (decodeSized k s).popped rest := by
  simp only [decodeSized, State.popped_ite]
  rfl

theorem decodeChar_popped (rest : List Event) (s : State) (ch : Byte) :
    decodeChar (s.popped rest) ch = (decodeChar s ch).popped rest := by
  have hlookup : lookupByte (s.popped rest).config.toParams ch = lookupByte s.config.toParams ch := rfl
  simp only [decodeChar, State.popped_ite, hlookup]
  cases lookupByte s.config.toParams ch <;> rfl

theorem decodeMain_popped (rest : List Event) (s : State) : decodeMain (s.popped rest) = (decodeMain s).popped rest := by
  simp only [decodeMain, State.popped_ite, ← decodeChar_popped]
  rfl

/-- One engine step of a command over other pending events. -/
theorem tick_popped (rest : List Event) {i : Instr} {s t : State} (h : tick i s = .next t) :
    tick i (s.popped rest) = .next (t.popped rest) := by
  have hctl : (s.popped rest).ctl = s.ctl := rfl
  cases i with
  | encode =>
    simp only [tick, encodeTick, hctl] at h ⊢
    split at h <;> cases h
    · exact congrArg _ (encodeMain_popped rest s)
    all_goals exact congrArg _ (encodeStart_popped rest s)
  | decode =>
    simp only [tick, decodeTick, hctl] at h ⊢
    split at h <;> cases h
    · exact congrArg _ (decodeStart_popped rest s)
    · exact congrArg _ (prescanStep_popped rest _ s)
    · exact congrArg _ (decodeSized_popped rest _ s)
    · exact congrArg _ (decodeMain_popped rest s)
    · rfl
    · rfl
  | decLenStrip =>
    simp only [tick, decLenStripTick, hctl] at h ⊢
    split at h <;> cases h
    · exact congrArg _ (prescanStep_popped rest _ s)
    · rfl
    all_goals
      rw [State.popped_ite]
      rfl
  | encLen | encLenPad | decLen =>
    cases h
    rfl
  | symbolAt =>
    simp only [tick, execSymbolAt] at h ⊢
    split at h <;> cases h
    · exact if_pos ‹_›
    · exact if_neg ‹_›
  | decodeByte =>
    cases hbyte : lookupByte s.config.toParams s.byteOperand with
    | some v =>
      cases (execDecodeByte_of_some hbyte).symm.trans h
      exact execDecodeByte_of_some (s := s.popped rest) hbyte
    | none =>
      cases (execDecodeByte_of_none hbyte).symm.trans h
      exact execDecodeByte_of_none (s := s.popped rest) hbyte

/-- One turn over other pending events. -/
theorem engineTurn_popped (rest : List Event) {s t : State} (h : engineTurn s = .next t) :
    engineTurn (s.popped rest) = .next (t.popped rest) := by
  rcases engineTurn_cases h with ⟨hidle, rfl⟩ | ⟨hrun, i, hi, htick⟩ | ⟨hrun, ⟨e, he⟩, rfl⟩
  · exact engineTurn_of_idle (s := t.popped rest) hidle
  · exact (engineTurn_of_running (s := s.popped rest) hrun hi).trans (tick_popped rest htick)
  · have hrunning : (s.popped rest).running = .error e := he
    simp only [engineTurn, engineStep, show (s.popped rest).phase = .run from hrun, hrunning]
    rfl

/-! ### The steps of a wait -/

/-- A turn keeps PHASE = RUN and BUSY = 1 together (10_state.md R36). -/
theorem engineTurn_runIffBusy {s t : State} (hbusy : s.phase = .run ↔ s.status.busy = true) (h : engineTurn s = .next t) :
    t.phase = .run ↔ t.status.busy = true := by
  rcases engineTurn_cases h with ⟨-, rfl⟩ | ⟨-, i, -, htick⟩ | ⟨-, -, rfl⟩
  · exact hbusy
  · cases tick_result htick with
    | completed st r info notBusy => simp [notBusy]
    | moved | wrote => exact hbusy
  · simp [statusError]

theorem step_wait {s : State} {rest : List Event} (hevents : s.events = .wait :: rest) : step s = waitStep rest s := by
  unfold step
  rw [hevents]

/-- A wait gives the engine of a busy block its turn, and stays pending. -/
theorem step_wait_of_busy {s t : State} (hbusy : s.status.busy = true) (hturn : engineTurn s = .next t) (rest : List Event) :
    step (s.popped (.wait :: rest)) = .next (t.popped (.wait :: rest)) :=
  (step_wait rfl).trans ((if_pos hbusy).trans (engineTurn_popped _ hturn))

/-- A wait is over once the block is not busy. -/
theorem step_wait_of_not_busy {s : State} (hbusy : ¬s.status.busy = true) (rest : List Event) :
    step (s.popped (.wait :: rest)) = .next (s.popped rest) :=
  (step_wait rfl).trans (if_neg hbusy)

theorem steps_succ {s u : State} (h : step s = .next u) (k : Nat) : steps (k + 1) s = steps k u := by
  simp only [steps, h]

theorem turns_succ_next {k : Nat} {s t : State} (h : turns (k + 1) s = .next t) :
    ∃ u, engineTurn s = .next u ∧ turns k u = .next t := by
  unfold turns at h
  split at h
  · next u hu => exact ⟨u, hu, h⟩
  · cases h
  · cases h

/-- A wait that starts while a command runs takes the turns that complete it, and is then over. -/
theorem steps_wait_of_turns {k : Nat} {s t : State} (rest : List Event) (hbusy : s.phase = .run ↔ s.status.busy = true)
    (hidle : t.phase = .idle) (h : turns k s = .next t) :
    ∃ n, steps n (s.popped (.wait :: rest)) = .next (t.popped rest) := by
  induction k generalizing s with
  | zero =>
    cases h
    have hnot : ¬t.status.busy = true := by rw [← hbusy, hidle]; exact Phase.noConfusion
    exact ⟨1, steps_succ (step_wait_of_not_busy hnot rest) 0⟩
  | succ k ih =>
    obtain ⟨u, hturn, hturns⟩ := turns_succ_next h
    obtain ⟨n, hn⟩ := ih (engineTurn_runIffBusy hbusy hturn) hturns
    cases hphase : s.phase with
    | idle =>
      cases (engineTurn_of_idle hphase).symm.trans hturn
      exact ⟨n, hn⟩
    | run => exact ⟨n + 1, (steps_succ (step_wait_of_busy (hbusy.mp hphase) hturn rest) n).trans hn⟩

theorem State.popped_of_events {s : State} {rest : List Event} (h : s.events = rest) : s.popped rest = s := by
  cases h
  rfl

/-- Settles O60: the CMD write accepts the word, and the wait takes the turns that reach what exec gives the command. -/
theorem waitReachesTheCommandsEffect : Obligations.WaitReachesTheCommandsEffect := by
  intro i s t rest hidle hstep
  have hexec : exec i (accept (encode i) (s.popped rest)) = .next t :=
    (stepRunsTheDecodedCommand (s.popped (.run (encode i) :: rest)) (encode i) i rest rfl hidle
      (decodeWord_encode i)).symm.trans hstep
  obtain ⟨k, -, hturns⟩ := turns_of_exec hexec
  obtain ⟨n, hsteps⟩ := steps_wait_of_turns rest (iff_of_true rfl rfl) (exec_phase hexec) hturns
  rw [State.popped_of_events (rest := rest) (exec_frame hexec).events] at hsteps
  have hwrite : step (s.popped (wr s.config.toParams .cmd (encode i) :: .wait :: rest)) =
      .next ((accept (encode i) (s.popped rest)).popped (.wait :: rest)) := acceptanceEffect (s.popped _) _ _ rfl hidle
  exact ⟨n + 1, (steps_succ hwrite n).trans hsteps⟩

end Sys2Proof.Machine
end

section
/-! The register window while a command runs, and the operand registers (70_reset_and_hazards.md R226 to R228; 10_state.md R41,
R42). -/

open Sys2Proof Sys2Proof.Machine

namespace Sys2Proof.Machine

/-! ### Writes -/

/-- A busy block ignores every register write. -/
theorem writeReg_of_busy {s : State} (hbusy : s.status.busy = true) (r : Reg) (v : Word) : writeReg r v s = s := by
  rcases writeReg_cases r v s with hsame | ⟨hidle, -⟩
  · exact hsame
  · exact absurd (hidle.symm.trans hbusy) Bool.false_ne_true

theorem step_regWrite_of_busy {s : State} {v : Word} {rest : List Event} (hbusy : s.status.busy = true) (r : Reg)
    (hevents : s.events = .regWrite 4 (s.config.base + regOffset r) v :: rest) : step s = .next (s.popped rest) :=
  (step_regWrite_regOffset r hevents).trans (congrArg _ (writeReg_of_busy (s := s.popped rest) hbusy r v))

/-- A busy block leaves the wait of a command line. -/
theorem runCommand_of_busy {s : State} (hbusy : s.status.busy = true) (w : Word) :
    runCommand w s = .next { s with events := .wait :: s.events } := if_pos hbusy

/-- Settles O8: the busy block ignores the CMD write, alone or at the head of a command line. -/
theorem cmdWriteWhileBusyIgnored : Obligations.CmdWriteWhileBusyIgnored :=
  ⟨fun _ _ _ hevents hbusy => step_regWrite_of_busy hbusy .cmd hevents,
    fun s w rest hevents hbusy => (step_run hevents).trans (runCommand_of_busy (s := s.popped rest) hbusy w)⟩

/-! ### The operands of a running command -/

theorem SameOperands.refl (s : State) : SameOperands s s := ⟨rfl, rfl, rfl, rfl⟩

theorem CommandFrame.sameOperands {s t : State} (h : CommandFrame s t) : SameOperands s t :=
  ⟨h.srcAddr, h.srcLen, h.dstAddr, h.dstCap⟩

theorem hostRegRead_sameOperands {size addr : Nat} {s t : State} (h : hostRegRead size addr s = .next t) :
    SameOperands s t := by
  obtain ⟨offset, rfl⟩ := windowAccess_next h
  split
  · next r _ =>
    obtain ⟨reply, draws, hr⟩ := readReg_cases r s
    rw [hr]
    exact ⟨rfl, rfl, rfl, rfl⟩
  · exact ⟨rfl, rfl, rfl, rfl⟩

theorem hostRegWrite_of_busy {size addr : Nat} {v : Word} {s t : State} (hbusy : s.status.busy = true)
    (h : hostRegWrite size addr v s = .next t) : t = s := by
  obtain ⟨offset, rfl⟩ := windowAccess_next h
  split
  · exact writeReg_of_busy hbusy _ v
  · rfl

/-- No step but a reset changes the operands of a running command. -/
theorem step_sameOperands_of_busy {s t : State} (hbusy : s.status.busy = true) (h : step s = .next t) :
    (∃ rest, s.events = .reset :: rest) ∨ SameOperands s t := by
  unfold step at h
  cases hevents : s.events with
  | nil =>
    rw [hevents] at h
    exact .inr (engineTurn_frame h).sameOperands
  | cons e rest =>
    rw [hevents] at h
    cases e with
    | reset => exact .inl ⟨rest, rfl⟩
    | regRead size addr => exact .inr (hostRegRead_sameOperands (s := s.popped rest) h)
    | regWrite size addr v =>
      cases hostRegWrite_of_busy (s := s.popped rest) hbusy h
      exact .inr (.refl s)
    | memRead a | memWrite a v =>
      obtain ⟨-, -, rfl⟩ := hostMemAccess_next h
      exact .inr (.refl s)
    | engine => exact .inr (engineTurn_frame (s := s.popped rest) h).sameOperands
    | wait => exact .inr (engineTurn_frame ((if_pos hbusy).symm.trans h)).sameOperands
    | run w =>
      cases (runCommand_of_busy (s := s.popped rest) hbusy w).symm.trans h
      exact .inr (.refl s)

/-- Settles O9: the four offsets are those of the operand registers. -/
theorem operandRegisterWrites : Obligations.OperandRegisterWrites := by
  refine ⟨fun s v rest hidle => ?_, fun s v rest offset hbusy hoffset hevents => ?_, fun s t => step_sameOperands_of_busy⟩
  · have hnot : ¬(s.popped rest).status.busy = true := (Bool.not_eq_true _).mpr hidle
    have hwrite {r : Reg} {t : State} (hr : writeReg r v (s.popped rest) = t)
        (hevents : s.events = .regWrite 4 (s.config.base + regOffset r) v :: rest) : step s = .next t :=
      (step_regWrite_regOffset r hevents).trans (congrArg _ hr)
    exact ⟨hwrite (r := .srcAddr) (if_neg hnot), hwrite (r := .srcLen) (if_neg hnot), hwrite (r := .dstAddr) (if_neg hnot),
      hwrite (r := .dstCap) (if_neg hnot)⟩
  · have hmap : offset ∈ [Reg.srcAddr, .srcLen, .dstAddr, .dstCap].map regOffset := hoffset
    obtain ⟨r, -, rfl⟩ := List.mem_map.mp hmap
    exact step_regWrite_of_busy hbusy r hevents

/-! ### Reads -/

theorem step_regRead_regOffset {s : State} {rest : List Event} (r : Reg)
    (hevents : s.events = .regRead 4 (s.config.base + regOffset r) :: rest) : step s = .next (readReg r (s.popped rest)) :=
  (step_regRead hevents).trans (hostRegRead_regOffset r (s.popped rest))

/-- A read of a busy block's RESULT_LO, RESULT_HI or ERR_INFO draws a free value. -/
theorem readReg_of_busy {s : State} (hbusy : s.status.busy = true) {r : Reg} (hr : r ∈ [Reg.resultLo, .resultHi, .errInfo]) :
    readReg r s = { s with reply := .word (Config.freeRead s.draws), draws := s.draws + 1 } := by
  cases r with
  | resultLo | resultHi | errInfo => exact if_pos hbusy
  | cfg | cmd | status | srcAddr | srcLen | dstAddr | dstCap => exact absurd hr (by decide)

/-- A read of another register gives its value, in a busy block too. -/
theorem readReg_of_value {r : Reg} (hr : r ∉ [Reg.resultLo, .resultHi, .errInfo]) (s : State) :
    readReg r s = answer (s.regValue r) s := by
  cases r with
  | resultLo | resultHi | errInfo => exact absurd (by decide) hr
  | cfg | cmd | status | srcAddr | srcLen | dstAddr | dstCap => rfl

/-- While BUSY = 1, STATUS holds that flag alone. -/
theorem Status.WellFormed.eq_accepted_of_busy {st : Status} (h : st.WellFormed) (hbusy : st.busy = true) :
    st = statusAccepted := by
  obtain ⟨⟨hdone, herr, -⟩, hcode, -⟩ := h
  obtain ⟨busy, done, err, code⟩ := st
  cases hbusy
  have hdone : done = false := by simpa using hdone
  have herr : err = false := by simpa using herr
  have hcode : code = 0 := by simpa [herr] using hcode
  rw [hdone, herr, hcode]
  rfl

/-- Settles O12: the offsets are those of the registers; STATUS is as the acceptance of the command has set it. -/
theorem registerReadsWhileBusy : Obligations.RegisterReadsWhileBusy := by
  intro s rest hbusy
  have hread {r : Reg} (hr : r ∉ [Reg.resultLo, .resultHi, .errInfo])
      (hevents : s.events = .regRead 4 (s.config.base + regOffset r) :: rest) :
      step s = .next { s with events := rest, reply := .word (s.regValue r) } :=
    (step_regRead_regOffset r hevents).trans (congrArg _ (readReg_of_value hr (s.popped rest)))
  refine ⟨fun offset hoffset hevents => ?_, fun hinv hevents => ?_, fun x hx hevents => ?_⟩
  · have hmap : offset ∈ [Reg.resultLo, .resultHi, .errInfo].map regOffset := hoffset
    obtain ⟨r, hr, rfl⟩ := List.mem_map.mp hmap
    exact (step_regRead_regOffset r hevents).trans (congrArg _ (readReg_of_busy (s := s.popped rest) hbusy hr))
  · have hword : s.regValue .status = 1 := by
      rw [State.regValue, hinv.statusWellFormed.eq_accepted_of_busy hbusy]
      decide
    rw [← hword]
    exact hread (r := .status) (by decide) hevents
  · have hmap : x ∈ [Reg.cfg, .cmd, .srcAddr, .srcLen, .dstAddr, .dstCap].map fun r => (regOffset r, s.regValue r) := hx
    obtain ⟨r, hr, rfl⟩ := List.mem_map.mp hmap
    have hvalue : r ∉ [Reg.resultLo, .resultHi, .errInfo] := by revert hr; cases r <;> decide
    exact hread hvalue hevents

end Sys2Proof.Machine
end

section
/-! Host accesses to data memory beside a running command (70_reset_and_hazards.md R229; 20_memory.md R60). -/

open Sys2Proof Sys2Proof.Machine

namespace Sys2Proof.Machine

theorem step_memRead {s : State} {a : Nat} {rest : List Event} (hevents : s.events = .memRead a :: rest) :
    step s = hostMemRead a (s.popped rest) := by
  unfold step
  rw [hevents]
  rfl

theorem step_memWrite {s : State} {a : Nat} {v : Byte} {rest : List Event} (hevents : s.events = .memWrite a v :: rest) :
    step s = hostMemWrite a v (s.popped rest) := by
  unfold step
  rw [hevents]
  rfl

/-- A byte is hazardous while a command runs, when it lies in one of the two regions. -/
theorem regionHazardAt_iff {a : Nat} {s : State} :
    regionHazardAt a s = true ↔
      s.status.busy = true ∧ ((s.src ≤ a ∧ a < s.src + s.len) ∨ (s.dst ≤ a ∧ a < s.dst + s.cap)) := by
  simp only [regionHazardAt, Bool.and_eq_true, Bool.or_eq_true, inRegion_iff]

theorem hostMemAccess_of_hazard {a : Nat} {s : State} (ha : a < 2 ^ s.config.aw) (hhazard : regionHazardAt a s = true)
    (t : State) : hostMemAccess a s t = .fault (.regionHazard a) := by
  rw [hostMemAccess, if_neg (Nat.not_le.mpr ha), if_pos hhazard]

theorem hostMemAccess_of_free {a : Nat} {s : State} (ha : a < 2 ^ s.config.aw) (hfree : ¬regionHazardAt a s = true)
    (t : State) : hostMemAccess a s t = .next t := by
  rw [hostMemAccess, if_neg (Nat.not_le.mpr ha), if_neg hfree]

/-- Settles O16: a read and a write are the same access, which looks at the hazard of its byte. -/
theorem regionHazardFaults : Obligations.RegionHazardFaults := by
  refine ⟨fun s a v rest hbusy ha hregion => ?_, fun s a v rest ha hfree => ?_⟩
  · have hfault := hostMemAccess_of_hazard (s := s.popped rest) ha (regionHazardAt_iff.mpr ⟨hbusy, hregion⟩)
    exact ⟨fun hevents => (step_memRead hevents).trans (hfault _), fun hevents => (step_memWrite hevents).trans (hfault _)⟩
  · have hnone : ¬regionHazardAt a (s.popped rest) = true := by
      rw [regionHazardAt_iff]
      rintro ⟨hbusy, hregion⟩
      rcases hfree with hidle | ⟨hsrc, hdst⟩
      · exact Bool.false_ne_true (hidle.symm.trans hbusy)
      · exact hregion.elim hsrc hdst
    have hnext := hostMemAccess_of_free (s := s.popped rest) ha hnone
    exact ⟨fun hevents => (step_memRead hevents).trans (hnext _), fun hevents => (step_memWrite hevents).trans (hnext _)⟩

end Sys2Proof.Machine
end

section
/-! Reset (70_reset_and_hazards.md R220 to R222): the state it leaves, in which the engine has nothing to do. -/

open Sys2Proof Sys2Proof.Machine

namespace Sys2Proof.Machine

theorem step_reset {s : State} {rest : List Event} (hevents : s.events = .reset :: rest) :
    step s = .next (doReset (s.popped rest)) := by
  unfold step
  rw [hevents]
  rfl

/-- Settles O18: the reset state of the block's configuration, with what a reset leaves. -/
theorem resetValues : Obligations.ResetValues := fun _ _ hevents => step_reset hevents

/-- However many turns an idle block's engine has, the state stays. -/
theorem turns_of_idle {s : State} (hidle : s.phase = .idle) (k : Nat) : turns k s = .next s := by
  induction k with
  | zero => rfl
  | succ k ih => exact (turns_succ (engineTurn_of_idle hidle) k).trans ih

/-- Settles O19: a reset keeps memory and leaves the engine idle. -/
theorem resetAbandonsTheCommand : Obligations.ResetAbandonsTheCommand := fun s rest hevents =>
  ⟨doReset (s.popped rest), step_reset hevents, doReset_mem _, turns_of_idle (doReset_phase _)⟩

/-- A reset block with empty memory is idle, with cleared counters. -/
theorem State.Inv.resetWith (c : Config) : (State.resetWith c).Inv :=
  .of_idle ⟨⟨.nil, nofun⟩, nofun, Nat.two_pow_pos _⟩ ⟨by show 0 < 8 + _; omega, Nat.zero_le _, Nat.zero_le _⟩
    statusReset_wellFormed rfl rfl

/-- Settles O53: the default configuration is one of them. -/
theorem invariantAtReset : Obligations.InvariantAtReset := ⟨.resetWith _, .resetWith⟩

end Sys2Proof.Machine
end
